-- ==== Sys2Proof/Word.lean ====
section
/-! DEFINITION. The widths of the spec: bytes on the bus, 16-bit device register values, 32-bit
descriptor words (spec/00_scope.md R11, R12; spec/30_encoding.md R90). -/

namespace Sys2Proof

/-- One byte on the two-wire bus, and an 8-bit register address or SRAM sub-address (R11). -/
abbrev Byte := BitVec 8

/-- A 16-bit device register value, mask, raw reading or setpoint in mA (R11, R94). -/
abbrev Half := BitVec 16

/-- A 32-bit word of a command or response descriptor (R90, R100). -/
abbrev Word := BitVec 32

/-- The BUS field of a descriptor, `0 .. 15` (R91). -/
abbrev BusIndex := BitVec 4

end Sys2Proof
end

