-- ==== Sys2Proof/Config.lean ====
section
/-! DEFINITION. What an implementation of the block fixes (spec/00_scope.md R10), the named addresses
of the devices behind the bus (spec/20_memory.md R58 to R61), and the free values of the spec, which
are opaque constants: nothing can evaluate them or prove a value of them. -/

namespace Sys2Proof

/-- Which bus condition separates the transfers of a sequenced transaction (R57). No rule of the block
depends on it. -/
inductive SeqSeparator where
  | repeatedStart
  | none
  deriving DecidableEq, Repr, Inhabited

/-- The parameters of R10 that the rules read while a command runs. They are fixed for a run: no command
changes them (R37). They are carried beside the state so that a statement over every state covers every
value of them (entry 5). -/
structure Params where
  /-- `N_CLIENTS`, the number of clients, at least 1 (R10): client `c` exists where `c < N_CLIENTS` (R21). -/
  nClients : Nat
  /-- `SCRATCH_SIZE`, bytes of each scratch buffer (R10, R26). -/
  scratchSize : Nat
  /-- `DEFAULT_TIMEOUT_MS` (R10, R54). -/
  defaultTimeoutMs : Word
  /-- `FG_READ_DELAY` in microseconds (R10, R170). -/
  fgReadDelay : Word
  /-- `QUIRK_SIGNED_FALLBACK` (R10, R178). -/
  quirkSignedFallback : Bool
  /-- `REG_ICL` (R10, R210). -/
  regIcl : Byte
  /-- `REG_CC` (R10, R210). -/
  regCc : Byte
  /-- `REG_TOPOFF` (R10, R210). -/
  regTopoff : Byte
  /-- `REG_AUTOSTOP` (R10, R210). -/
  regAutostop : Byte
  /-- `REG_CHGEN` (R10, R210). -/
  regChgen : Byte
  /-- `SEQ_SEPARATOR` (R57). -/
  seqSeparator : SeqSeparator
  deriving DecidableEq, Repr

namespace Config

/-- `N_CTX` of the block after reset (R10, R250). The rules read the number of contexts from the state. -/
def nCtx : Nat := 2

/-- How many clients there are besides the first: OPEN, so no value (R10). -/
opaque otherClients : Nat

/-- `N_CLIENTS` of the block after reset: OPEN but at least 1, so no value beyond that (R10, entry 3). -/
def nClients : Nat := otherClients + 1

/-- `MAX_XFER`, the largest byte count of one write frame or one read (R10, R98). -/
def maxXfer : Nat := 255

/-- `REG_ICL`: OPEN, so no value (R10, R210). -/
opaque regIcl : Byte

/-- `REG_CC`: OPEN, so no value (R10, R210). -/
opaque regCc : Byte

/-- `REG_TOPOFF`: OPEN, so no value (R10, R210). -/
opaque regTopoff : Byte

/-- `REG_AUTOSTOP`: OPEN, so no value (R10, R210). -/
opaque regAutostop : Byte

/-- `REG_CHGEN`: OPEN, so no value (R10, R210). -/
opaque regChgen : Byte

/-- `SEQ_SEPARATOR`: OPEN, so no value (R57). -/
opaque seqSeparator : SeqSeparator

/-- `ENDPOINT[i]`: OPEN and opaque to the block, which only passes it to the bus (R10, R15). -/
opaque endpoint : Nat → Nat

/-- A free byte: draw number `d`. It stands for a byte no rule gives: each data byte of an accepted but
short sequence (R130), and what a failed read (`Err`, or a count that is not the length) or a short sequence leaves in
a buffer (entry 7). -/
opaque freeByte : Nat → Byte

/-- A free 32-bit signed result: draw number `d`. The current decoder's result for `raw[15] = 1` under
`QUIRK_SIGNED_FALLBACK = true` (R178, 93_implementation_defined.md I2). -/
opaque freeCurrent : Nat → BitVec 32

/-- The parameters of the block after reset: the spec's values and defaults, and the OPEN constants. -/
def params : Params where
  nClients := nClients
  scratchSize := 16
  defaultTimeoutMs := 100
  fgReadDelay := 0
  quirkSignedFallback := false
  regIcl := regIcl
  regCc := regCc
  regTopoff := regTopoff
  regAutostop := regAutostop
  regChgen := regChgen
  seqSeparator := seqSeparator

end Config

/-- The fuel gauge's top-level registers (R59). Only `sramRaddr` and `sramRdata` are used by a command. -/
inductive FgRegister where
  | deviceId | ctrl | intfg | status | intfgMask | sramProt | sramRaddr | sramRdata | sramWaddr | sramWdata
  deriving DecidableEq, Repr

/-- Their addresses (R59). -/
def FgRegister.address : FgRegister → Byte
  | .deviceId => 0x00
  | .ctrl => 0x01
  | .intfg => 0x02
  | .status => 0x03
  | .intfgMask => 0x04
  | .sramProt => 0x8B
  | .sramRaddr => 0x8C
  | .sramRdata => 0x8D
  | .sramWaddr => 0x8E
  | .sramWdata => 0x8F

/-- The fuel gauge's SRAM locations (R60). -/
inductive SramLocation where
  | soc | ocv | vbat | vsys | current | temperature | vbatAvg | currentAvg | state | socCycle
  deriving DecidableEq, Repr

/-- Their sub-addresses (R60). -/
def SramLocation.subAddress : SramLocation → Byte
  | .soc => 0x00
  | .ocv => 0x01
  | .vbat => 0x03
  | .vsys => 0x04
  | .current => 0x05
  | .temperature => 0x07
  | .vbatAvg => 0x08
  | .currentAvg => 0x09
  | .state => 0x15
  | .socCycle => 0x87

/-- The charger's registers (R61). Which of them holds which setpoint field is OPEN (R210). -/
inductive ChargerRegister where
  | status1 | status2 | status3 | status4 | status5 | cntl1 | vbuscntl | chgcntl2 | chgcntl4 | chgcntl5
  deriving DecidableEq, Repr

/-- Their addresses (R61). -/
def ChargerRegister.address : ChargerRegister → Byte
  | .status1 => 0x0D
  | .status2 => 0x0E
  | .status3 => 0x0F
  | .status4 => 0x10
  | .status5 => 0x11
  | .cntl1 => 0x13
  | .vbuscntl => 0x15
  | .chgcntl2 => 0x18
  | .chgcntl4 => 0x1A
  | .chgcntl5 => 0x1B

end Sys2Proof
end

