-- ==== Sys2Proof/Syntax.lean ====
section
/-! DEFINITION. The 27 commands of the block, one constructor per row of spec/opcode_table.json, with
the operands of spec/30_encoding.md R94 and R95. -/

namespace Sys2Proof

/-- A command with its operands (R95). Every operand is unsigned and read as written (R94). -/
inductive Instr where
  /-- `WRITE_SYNC bus, addr, [bytes]` (R121). -/
  | writeSync (bus : BusIndex) (addr : Byte) (payload : List Byte)
  /-- `READ_SYNC bus, addr, len` (R125). -/
  | readSync (bus : BusIndex) (addr : Byte) (len : Byte)
  /-- `SEQ_WWR bus, [frame1], [frame2], readLength, delay, timeout`; `noLimit` is the header bit F, and
  with it set the TIMEOUT word is carried but ignored (R128). -/
  | seqWwr (bus : BusIndex) (noLimit : Bool) (frame1 frame2 : List Byte) (readLength : Byte)
      (delay timeout : Word)
  /-- `READ_REG bus, addr` (R151). -/
  | readReg (bus : BusIndex) (addr : Byte)
  /-- `WRITE_REG bus, addr, value` (R152). -/
  | writeReg (bus : BusIndex) (addr : Byte) (value : Half)
  /-- `UPDATE_REG bus, addr, mask, value` (R153). -/
  | updateReg (bus : BusIndex) (addr : Byte) (mask value : Half)
  /-- `FG_READ_SOC bus` (R180). -/
  | fgReadSoc (bus : BusIndex)
  /-- `FG_READ_OCV bus` (R181). -/
  | fgReadOcv (bus : BusIndex)
  /-- `FG_READ_CURRENT bus` (R182). -/
  | fgReadCurrent (bus : BusIndex)
  /-- `FG_READ_TEMP bus` (R183). -/
  | fgReadTemp (bus : BusIndex)
  /-- `FG_READ_CYCLE bus` (R184). -/
  | fgReadCycle (bus : BusIndex)
  /-- `CVT_SOC raw` (R185). -/
  | cvtSoc (raw : Half)
  /-- `CVT_OCV raw` (R186). -/
  | cvtOcv (raw : Half)
  /-- `CVT_CURRENT raw` (R187). -/
  | cvtCurrent (raw : Half)
  /-- `CVT_TEMP raw` (R188). -/
  | cvtTemp (raw : Half)
  /-- `CVT_CYCLE raw` (R189). -/
  | cvtCycle (raw : Half)
  /-- `CHG_SET_ICL bus, mA` (R218). -/
  | chgSetIcl (bus : BusIndex) (mA : Half)
  /-- `CHG_SET_CC bus, mA` (R219). -/
  | chgSetCc (bus : BusIndex) (mA : Half)
  /-- `CHG_SET_TOPOFF bus, mA` (R220). -/
  | chgSetTopoff (bus : BusIndex) (mA : Half)
  /-- `CHG_SET_AUTOSTOP bus, 0|1` (R221). -/
  | chgSetAutostop (bus : BusIndex) (enable : Bool)
  /-- `CHG_SET_ENABLE bus, 0|1` (R222). -/
  | chgSetEnable (bus : BusIndex) (enable : Bool)
  /-- `CHG_PROBE bus, autostop, iclmA, ccmA, topoffmA` (R230). -/
  | chgProbe (bus : BusIndex) (autostop : Bool) (icl cc topoff : Half)
  /-- `CVT_ICL mA` (R223). -/
  | cvtIcl (mA : Half)
  /-- `CVT_CC mA` (R224). -/
  | cvtCc (mA : Half)
  /-- `CVT_TOPOFF mA` (R225). -/
  | cvtTopoff (mA : Half)
  /-- `CTX_OPEN bus` (R252). -/
  | ctxOpen (bus : BusIndex)
  /-- `CTX_CLOSE bus` (R253). -/
  | ctxClose (bus : BusIndex)
  deriving DecidableEq, Repr

/-- The bus context a command names, or `none` for the commands that use no `BUS` field (R95). -/
def Instr.bus? : Instr → Option BusIndex
  | .writeSync b _ _ => some b
  | .readSync b _ _ => some b
  | .seqWwr b _ _ _ _ _ _ => some b
  | .readReg b _ => some b
  | .writeReg b _ _ => some b
  | .updateReg b _ _ _ => some b
  | .fgReadSoc b => some b
  | .fgReadOcv b => some b
  | .fgReadCurrent b => some b
  | .fgReadTemp b => some b
  | .fgReadCycle b => some b
  | .cvtSoc _ => none
  | .cvtOcv _ => none
  | .cvtCurrent _ => none
  | .cvtTemp _ => none
  | .cvtCycle _ => none
  | .chgSetIcl b _ => some b
  | .chgSetCc b _ => some b
  | .chgSetTopoff b _ => some b
  | .chgSetAutostop b _ => some b
  | .chgSetEnable b _ => some b
  | .chgProbe b _ _ _ _ => some b
  | .cvtIcl _ => none
  | .cvtCc _ => none
  | .cvtTopoff _ => none
  | .ctxOpen b => some b
  | .ctxClose b => some b

end Sys2Proof
end

