-- ==== Sys2Proof/WellFormed.lean ====
section
/-! DEFINITION. Which operands a command may carry (spec/30_encoding.md R95, R98): the legal ranges of
the byte counts. Every other operand takes all its values. -/

namespace Sys2Proof

/-- A byte count in `lo .. MAX_XFER` (R98). -/
def legalCount (lo n : Nat) : Bool := decide (lo ≤ n) && decide (n ≤ Config.maxXfer)

/-- The length legality of R98; no other operand has an illegal value (R95). -/
def Instr.wellFormed : Instr → Bool
  | .writeSync _ _ payload => legalCount 0 payload.length
  | .readSync _ _ len => legalCount 1 len.toNat
  | .seqWwr _ _ frame1 frame2 readLength _ _ =>
      legalCount 1 frame1.length && legalCount 1 frame2.length && legalCount 1 readLength.toNat
  | .readReg _ _ => true
  | .writeReg _ _ _ => true
  | .updateReg _ _ _ _ => true
  | .fgReadSoc _ => true
  | .fgReadOcv _ => true
  | .fgReadCurrent _ => true
  | .fgReadTemp _ => true
  | .fgReadCycle _ => true
  | .cvtSoc _ => true
  | .cvtOcv _ => true
  | .cvtCurrent _ => true
  | .cvtTemp _ => true
  | .cvtCycle _ => true
  | .chgSetIcl _ _ => true
  | .chgSetCc _ _ => true
  | .chgSetTopoff _ _ => true
  | .chgSetAutostop _ _ => true
  | .chgSetEnable _ _ => true
  | .chgProbe _ _ _ _ _ => true
  | .cvtIcl _ => true
  | .cvtCc _ => true
  | .cvtTopoff _ => true
  | .ctxOpen _ => true
  | .ctxClose _ => true

end Sys2Proof
end

