-- ==== Sys2Proof/Decode.lean ====
section
/-! DEFINITION. Command descriptors (spec/30_encoding.md R90 to R99): the header fields, the opcode map,
byte packing, the decoder, total on any list of words and rejecting by name, and after it the encoder
and the reading of one row of spec/opcode_table.json. -/

namespace Sys2Proof

/-! ## Header fields (R91) -/

/-- `OPC`, bits 31:24. -/
def opcField (h : Word) : Byte := h.extractLsb' 24 8

/-- `BUS`, bits 23:20. -/
def busField (h : Word) : BusIndex := h.extractLsb' 20 4

/-- `F`, bit 16. -/
def fField (h : Word) : Bool := h.getLsbD 16

/-- `A`, bits 15:8. -/
def aField (h : Word) : Byte := h.extractLsb' 8 8

/-- `B`, bits 7:0. -/
def bField (h : Word) : Byte := h.extractLsb' 0 8

/-- The header with these fields and `RSV = 0` (R91). -/
def headerWord (opc : Byte) (bus : BusIndex) (f : Bool) (a b : Byte) : Word :=
  ((((opc ++ bus) ++ (0 : BitVec 3)) ++ BitVec.ofBool f) ++ a) ++ b

/-- Bits 15:0 of an extension word (R94). -/
def lowHalf (x : Word) : Half := x.extractLsb' 0 16

/-- Bits 31:16 of an extension word (R94). -/
def highHalf (x : Word) : Half := x.extractLsb' 16 16

/-! ## Opcode map (R95, R96) -/

/-- The assigned opcodes, in the table's order (R96). -/
inductive Opcode where
  | writeSync | readSync | seqWwr
  | readReg | writeReg | updateReg
  | fgReadSoc | fgReadOcv | fgReadCurrent | fgReadTemp | fgReadCycle
  | cvtSoc | cvtOcv | cvtCurrent | cvtTemp | cvtCycle
  | chgSetIcl | chgSetCc | chgSetTopoff | chgSetAutostop | chgSetEnable | chgProbe
  | cvtIcl | cvtCc | cvtTopoff
  | ctxOpen | ctxClose
  deriving DecidableEq, Repr

/-- The descriptor formats (R92). -/
inductive Format where
  | h | hx | hxx | hd | hs
  deriving DecidableEq, Repr

/-- Every assigned opcode (R96). -/
def Opcode.all : List Opcode :=
  [.writeSync, .readSync, .seqWwr, .readReg, .writeReg, .updateReg,
   .fgReadSoc, .fgReadOcv, .fgReadCurrent, .fgReadTemp, .fgReadCycle,
   .cvtSoc, .cvtOcv, .cvtCurrent, .cvtTemp, .cvtCycle,
   .chgSetIcl, .chgSetCc, .chgSetTopoff, .chgSetAutostop, .chgSetEnable, .chgProbe,
   .cvtIcl, .cvtCc, .cvtTopoff, .ctxOpen, .ctxClose]

/-- The `OPC` column of R95. -/
def Opcode.code : Opcode → Byte
  | .writeSync => 0x01
  | .readSync => 0x02
  | .seqWwr => 0x03
  | .readReg => 0x10
  | .writeReg => 0x11
  | .updateReg => 0x12
  | .fgReadSoc => 0x20
  | .fgReadOcv => 0x21
  | .fgReadCurrent => 0x22
  | .fgReadTemp => 0x23
  | .fgReadCycle => 0x24
  | .cvtSoc => 0x28
  | .cvtOcv => 0x29
  | .cvtCurrent => 0x2A
  | .cvtTemp => 0x2B
  | .cvtCycle => 0x2C
  | .chgSetIcl => 0x30
  | .chgSetCc => 0x31
  | .chgSetTopoff => 0x32
  | .chgSetAutostop => 0x33
  | .chgSetEnable => 0x34
  | .chgProbe => 0x35
  | .cvtIcl => 0x38
  | .cvtCc => 0x39
  | .cvtTopoff => 0x3A
  | .ctxOpen => 0x40
  | .ctxClose => 0x41

/-- The `match` column of R96. -/
def Opcode.pattern : Opcode → Word
  | .writeSync => 0x01000000
  | .readSync => 0x02000000
  | .seqWwr => 0x03000000
  | .readReg => 0x10000000
  | .writeReg => 0x11000000
  | .updateReg => 0x12000000
  | .fgReadSoc => 0x20000000
  | .fgReadOcv => 0x21000000
  | .fgReadCurrent => 0x22000000
  | .fgReadTemp => 0x23000000
  | .fgReadCycle => 0x24000000
  | .cvtSoc => 0x28000000
  | .cvtOcv => 0x29000000
  | .cvtCurrent => 0x2A000000
  | .cvtTemp => 0x2B000000
  | .cvtCycle => 0x2C000000
  | .chgSetIcl => 0x30000000
  | .chgSetCc => 0x31000000
  | .chgSetTopoff => 0x32000000
  | .chgSetAutostop => 0x33000000
  | .chgSetEnable => 0x34000000
  | .chgProbe => 0x35000000
  | .cvtIcl => 0x38000000
  | .cvtCc => 0x39000000
  | .cvtTopoff => 0x3A000000
  | .ctxOpen => 0x40000000
  | .ctxClose => 0x41000000

/-- The `mask` column of R96. -/
def Opcode.mask : Opcode → Word
  | .writeSync | .readSync => 0xFF0F0000
  | .seqWwr => 0xFF0E0000
  | .readReg | .writeReg | .updateReg => 0xFF0F00FF
  | .fgReadSoc | .fgReadOcv | .fgReadCurrent | .fgReadTemp | .fgReadCycle => 0xFF0FFFFF
  | .cvtSoc | .cvtOcv | .cvtCurrent | .cvtTemp | .cvtCycle => 0xFFFFFFFF
  | .chgSetIcl | .chgSetCc | .chgSetTopoff => 0xFF0FFFFF
  | .chgSetAutostop | .chgSetEnable | .chgProbe => 0xFF0EFFFF
  | .cvtIcl | .cvtCc | .cvtTopoff => 0xFFFFFFFF
  | .ctxOpen | .ctxClose => 0xFF0FFFFF

/-- The `format` column of R95. -/
def Opcode.format : Opcode → Format
  | .writeSync => .hd
  | .seqWwr => .hs
  | .chgProbe => .hxx
  | .writeReg | .updateReg => .hx
  | .cvtSoc | .cvtOcv | .cvtCurrent | .cvtTemp | .cvtCycle => .hx
  | .chgSetIcl | .chgSetCc | .chgSetTopoff => .hx
  | .cvtIcl | .cvtCc | .cvtTopoff => .hx
  | .readSync | .readReg => .h
  | .fgReadSoc | .fgReadOcv | .fgReadCurrent | .fgReadTemp | .fgReadCycle => .h
  | .chgSetAutostop | .chgSetEnable => .h
  | .ctxOpen | .ctxClose => .h

/-- The opcode with this `OPC` value, if it is assigned (R96, R97). -/
def Opcode.ofCode (code : Byte) : Option Opcode := Opcode.all.find? fun o => o.code == code

/-- A header selects a command when `h & mask = match` (R96). -/
def Opcode.selects (o : Opcode) (h : Word) : Bool := h &&& o.mask == o.pattern

/-! ## Byte packing (R93) -/

/-- The word that holds four bytes, the first in bits 7:0 (R93). -/
def wordOf (b0 b1 b2 b3 : Byte) : Word := ((b3 ++ b2) ++ b1) ++ b0

/-- The four bytes of a word, bits 7:0 first; also the order in which a descriptor carried as bytes sends
them (R90, R93). -/
def wordBytes (w : Word) : List Byte :=
  [w.extractLsb' 0 8, w.extractLsb' 8 8, w.extractLsb' 16 8, w.extractLsb' 24 8]

/-- `ceil(n / 4)`, the words that `n` bytes take (R92, R93). -/
def wordsFor (n : Nat) : Nat := (n + 3) / 4

/-- A byte sequence packed into words, with zero padding (R93). -/
def packBytes : List Byte → List Word
  | [] => []
  | [b0] => [wordOf b0 0 0 0]
  | [b0, b1] => [wordOf b0 b1 0 0]
  | [b0, b1, b2] => [wordOf b0 b1 b2 0]
  | b0 :: b1 :: b2 :: b3 :: rest => wordOf b0 b1 b2 b3 :: packBytes rest

/-- The words that a byte sequence carries, least significant byte first, if it is whole words (R90). -/
def wordsOfBytes : List Byte → Option (List Word)
  | [] => some []
  | b0 :: b1 :: b2 :: b3 :: rest => (wordsOfBytes rest).map (wordOf b0 b1 b2 b3 :: ·)
  | _ => none

/-! ## The decoder (R97 to R99, R106 step 2) -/

/-- Why a descriptor is illegal (R97, R98; the first two are the model's choice, entry 21). The client is answered
`ERR_ILLEGAL_COMMAND` for each of them. -/
inductive DecodeError where
  /-- There is no word at all, so no header. R90 gives a descriptor 1 to 136 words, and R97 has no case for none: that
  it is illegal is the model's choice (DESIGN CHOICE, entry 21). -/
  | emptyDescriptor
  /-- The bytes are not a whole number of words. R90 says only how whole words are carried, and R97 has no such case:
  that it is illegal is the model's choice (DESIGN CHOICE, entry 21). -/
  | notWholeWords
  /-- `OPC` is not in R96. -/
  | unassignedOpcode
  /-- A header field the opcode does not use is nonzero (R97). -/
  | unusedField
  /-- The word count differs from R92's for the header (R97). -/
  | wordCount
  /-- A reserved extension bit is nonzero (R97). -/
  | reservedBits
  /-- A padding byte is nonzero (R97). -/
  | padding
  /-- A byte count is outside its range (R98). -/
  | illegalLength
  deriving DecidableEq, Repr

/-- The `n` bytes packed in exactly these words, with the padding checked (R93, R97). -/
def unpackBytes (n : Nat) (ws : List Word) : Except DecodeError (List Byte) :=
  if ws.length ≠ wordsFor n then .error .wordCount
  else
    let bytes := ws.flatMap wordBytes
    if (bytes.drop n).all (· == 0) then .ok (bytes.take n) else .error .padding

/-- Format H: no extension word (R92). -/
def takeNone (ext : List Word) (i : Instr) : Except DecodeError Instr :=
  match ext with
  | [] => .ok i
  | _ => .error .wordCount

/-- Format HX with a 16-bit operand in `X1[15:0]` and `X1[31:16]` reserved (R92, R95). -/
def takeHalf (ext : List Word) (f : Half → Instr) : Except DecodeError Instr :=
  match ext with
  | [x1] => if highHalf x1 = 0 then .ok (f (lowHalf x1)) else .error .reservedBits
  | _ => .error .wordCount

/-- Format HX with two 16-bit operands, `X1[31:16]` and `X1[15:0]` (`UPDATE_REG`, R95). -/
def takeHalves (ext : List Word) (f : Half → Half → Instr) : Except DecodeError Instr :=
  match ext with
  | [x1] => .ok (f (highHalf x1) (lowHalf x1))
  | _ => .error .wordCount

/-- Format HXX of `CHG_PROBE`: ICL and CC in `X1`, topoff in `X2[15:0]`, `X2[31:16]` reserved (R95). -/
def takeProbe (ext : List Word) (f : Half → Half → Half → Instr) : Except DecodeError Instr :=
  match ext with
  | [x1, x2] =>
      if highHalf x2 = 0 then .ok (f (lowHalf x1) (highHalf x1) (lowHalf x2)) else .error .reservedBits
  | _ => .error .wordCount

/-- Format HD: `n` payload bytes (R92, R98). -/
def takePayload (n : Nat) (ext : List Word) (f : List Byte → Instr) : Except DecodeError Instr :=
  if legalCount 0 n then (unpackBytes n ext).map f else .error .illegalLength

/-- Format HS: `X1`, `DELAY`, `TIMEOUT`, then the two frames (R92, R95, R98). -/
def takeSequence (len1 readLength : Nat) (ext : List Word)
    (f : List Byte → List Byte → Word → Word → Instr) : Except DecodeError Instr :=
  match ext with
  | x1 :: delay :: timeout :: frames =>
      let len2 := (x1.extractLsb' 0 8).toNat
      if x1.extractLsb' 8 24 ≠ 0 then .error .reservedBits
      else if legalCount 1 len1 && legalCount 1 len2 && legalCount 1 readLength then
        match unpackBytes len1 (frames.take (wordsFor len1)) with
        | .error e => .error e
        | .ok frame1 =>
            match unpackBytes len2 (frames.drop (wordsFor len1)) with
            | .error e => .error e
            | .ok frame2 => .ok (f frame1 frame2 delay timeout)
      else .error .illegalLength
  | _ => .error .wordCount

/-- The command of opcode `o` with header `h` and extension words `ext` (R95). -/
def decodeBody (o : Opcode) (h : Word) (ext : List Word) : Except DecodeError Instr :=
  match o with
  | .writeSync => takePayload (bField h).toNat ext (.writeSync (busField h) (aField h))
  | .readSync =>
      if legalCount 1 (bField h).toNat then takeNone ext (.readSync (busField h) (aField h) (bField h))
      else .error .illegalLength
  | .seqWwr =>
      takeSequence (aField h).toNat (bField h).toNat ext fun frame1 frame2 delay timeout =>
        .seqWwr (busField h) (fField h) frame1 frame2 (bField h) delay timeout
  | .readReg => takeNone ext (.readReg (busField h) (aField h))
  | .writeReg => takeHalf ext (.writeReg (busField h) (aField h))
  | .updateReg => takeHalves ext (.updateReg (busField h) (aField h))
  | .fgReadSoc => takeNone ext (.fgReadSoc (busField h))
  | .fgReadOcv => takeNone ext (.fgReadOcv (busField h))
  | .fgReadCurrent => takeNone ext (.fgReadCurrent (busField h))
  | .fgReadTemp => takeNone ext (.fgReadTemp (busField h))
  | .fgReadCycle => takeNone ext (.fgReadCycle (busField h))
  | .cvtSoc => takeHalf ext .cvtSoc
  | .cvtOcv => takeHalf ext .cvtOcv
  | .cvtCurrent => takeHalf ext .cvtCurrent
  | .cvtTemp => takeHalf ext .cvtTemp
  | .cvtCycle => takeHalf ext .cvtCycle
  | .chgSetIcl => takeHalf ext (.chgSetIcl (busField h))
  | .chgSetCc => takeHalf ext (.chgSetCc (busField h))
  | .chgSetTopoff => takeHalf ext (.chgSetTopoff (busField h))
  | .chgSetAutostop => takeNone ext (.chgSetAutostop (busField h) (fField h))
  | .chgSetEnable => takeNone ext (.chgSetEnable (busField h) (fField h))
  | .chgProbe => takeProbe ext (.chgProbe (busField h) (fField h))
  | .cvtIcl => takeHalf ext .cvtIcl
  | .cvtCc => takeHalf ext .cvtCc
  | .cvtTopoff => takeHalf ext .cvtTopoff
  | .ctxOpen => takeNone ext (.ctxOpen (busField h))
  | .ctxClose => takeNone ext (.ctxClose (busField h))

/-- The command a descriptor stands for, or why it is illegal (R96 to R99); that no word at all is illegal is the
model's choice (entry 21). -/
def decode (descriptor : List Word) : Except DecodeError Instr :=
  match descriptor with
  | [] => .error .emptyDescriptor
  | h :: ext =>
      match Opcode.ofCode (opcField h) with
      | none => .error .unassignedOpcode
      | some o => if o.selects h then decodeBody o h ext else .error .unusedField

/-- The command that a descriptor carried as bytes stands for (R90); that bytes which are not whole words are illegal
is the model's choice (entry 21). -/
def decodeBytes (bytes : List Byte) : Except DecodeError Instr :=
  match wordsOfBytes bytes with
  | none => .error .notWholeWords
  | some ws => decode ws

/-! ## The encoder (R91 to R95) -/

/-- The opcode of a command (R95). -/
def Instr.opcode : Instr → Opcode
  | .writeSync _ _ _ => .writeSync
  | .readSync _ _ _ => .readSync
  | .seqWwr _ _ _ _ _ _ _ => .seqWwr
  | .readReg _ _ => .readReg
  | .writeReg _ _ _ => .writeReg
  | .updateReg _ _ _ _ => .updateReg
  | .fgReadSoc _ => .fgReadSoc
  | .fgReadOcv _ => .fgReadOcv
  | .fgReadCurrent _ => .fgReadCurrent
  | .fgReadTemp _ => .fgReadTemp
  | .fgReadCycle _ => .fgReadCycle
  | .cvtSoc _ => .cvtSoc
  | .cvtOcv _ => .cvtOcv
  | .cvtCurrent _ => .cvtCurrent
  | .cvtTemp _ => .cvtTemp
  | .cvtCycle _ => .cvtCycle
  | .chgSetIcl _ _ => .chgSetIcl
  | .chgSetCc _ _ => .chgSetCc
  | .chgSetTopoff _ _ => .chgSetTopoff
  | .chgSetAutostop _ _ => .chgSetAutostop
  | .chgSetEnable _ _ => .chgSetEnable
  | .chgProbe _ _ _ _ _ => .chgProbe
  | .cvtIcl _ => .cvtIcl
  | .cvtCc _ => .cvtCc
  | .cvtTopoff _ => .cvtTopoff
  | .ctxOpen _ => .ctxOpen
  | .ctxClose _ => .ctxClose

/-- The header of opcode `o`: its `OPC` and the fields it uses (R91). -/
def headerFor (o : Opcode) (bus : BusIndex) (f : Bool) (a b : Byte) : Word :=
  headerWord o.code bus f a b

/-- An extension word with a 16-bit operand and zeros above it (R95). -/
def halfWord (x : Half) : Word := (0 : Half) ++ x

/-- The descriptor of a command (R92, R95). Meant for well-formed commands: a longer payload or frame does
not fit its count field. -/
def encode : Instr → List Word
  | .writeSync bus addr payload =>
      headerFor .writeSync bus false addr (BitVec.ofNat 8 payload.length) :: packBytes payload
  | .readSync bus addr len => [headerFor .readSync bus false addr len]
  | .seqWwr bus noLimit frame1 frame2 readLength delay timeout =>
      headerFor .seqWwr bus noLimit (BitVec.ofNat 8 frame1.length) readLength
        :: BitVec.ofNat 32 frame2.length :: delay :: timeout :: (packBytes frame1 ++ packBytes frame2)
  | .readReg bus addr => [headerFor .readReg bus false addr 0]
  | .writeReg bus addr value => [headerFor .writeReg bus false addr 0, halfWord value]
  | .updateReg bus addr mask value => [headerFor .updateReg bus false addr 0, mask ++ value]
  | .fgReadSoc bus => [headerFor .fgReadSoc bus false 0 0]
  | .fgReadOcv bus => [headerFor .fgReadOcv bus false 0 0]
  | .fgReadCurrent bus => [headerFor .fgReadCurrent bus false 0 0]
  | .fgReadTemp bus => [headerFor .fgReadTemp bus false 0 0]
  | .fgReadCycle bus => [headerFor .fgReadCycle bus false 0 0]
  | .cvtSoc raw => [headerFor .cvtSoc 0 false 0 0, halfWord raw]
  | .cvtOcv raw => [headerFor .cvtOcv 0 false 0 0, halfWord raw]
  | .cvtCurrent raw => [headerFor .cvtCurrent 0 false 0 0, halfWord raw]
  | .cvtTemp raw => [headerFor .cvtTemp 0 false 0 0, halfWord raw]
  | .cvtCycle raw => [headerFor .cvtCycle 0 false 0 0, halfWord raw]
  | .chgSetIcl bus mA => [headerFor .chgSetIcl bus false 0 0, halfWord mA]
  | .chgSetCc bus mA => [headerFor .chgSetCc bus false 0 0, halfWord mA]
  | .chgSetTopoff bus mA => [headerFor .chgSetTopoff bus false 0 0, halfWord mA]
  | .chgSetAutostop bus enable => [headerFor .chgSetAutostop bus enable 0 0]
  | .chgSetEnable bus enable => [headerFor .chgSetEnable bus enable 0 0]
  | .chgProbe bus autostop icl cc topoff =>
      [headerFor .chgProbe bus autostop 0 0, cc ++ icl, halfWord topoff]
  | .cvtIcl mA => [headerFor .cvtIcl 0 false 0 0, halfWord mA]
  | .cvtCc mA => [headerFor .cvtCc 0 false 0 0, halfWord mA]
  | .cvtTopoff mA => [headerFor .cvtTopoff 0 false 0 0, halfWord mA]
  | .ctxOpen bus => [headerFor .ctxOpen bus false 0 0]
  | .ctxClose bus => [headerFor .ctxClose bus false 0 0]

/-- The descriptor of a command carried as bytes (R90). -/
def encodeBytes (i : Instr) : List Byte := (encode i).flatMap wordBytes

/-! ## One row of the opcode table -/

/-- How many words the descriptor with this header and first extension word has (R92, R99); 1 for an
unassigned opcode. -/
def descriptorLength (h x1 : Word) : Nat :=
  match Opcode.ofCode (opcField h) with
  | none => 1
  | some o =>
      match o.format with
      | .h => 1
      | .hx => 2
      | .hxx => 3
      | .hd => 1 + wordsFor (bField h).toNat
      | .hs => 4 + wordsFor (aField h).toNat + wordsFor (x1.extractLsb' 0 8).toNat

/-- The first `k` words of a number, bit 0 the least significant bit of the first word. -/
def wordsOfNat : Nat → Nat → List Word
  | 0, _ => []
  | k + 1, w => BitVec.ofNat 32 w :: wordsOfNat k (w / 2 ^ 32)

/-- The descriptor whose bits are the low `nbits` bits of `w`, with zeros above them, as long as its header
says (R99). -/
def tableDescriptor (nbits w : Nat) : List Word :=
  let bits := w % 2 ^ nbits
  wordsOfNat (descriptorLength (BitVec.ofNat 32 bits) (BitVec.ofNat 32 (bits / 2 ^ 32))) bits

/-- What the decoder reads from that descriptor carried as bytes, least significant byte of each word
first (R90). -/
def decodeTableWord (nbits w : Nat) : Option Instr :=
  match decodeBytes ((tableDescriptor nbits w).flatMap wordBytes) with
  | .ok i => some i
  | .error _ => none

end Sys2Proof
end

