-- ==== Sys2Proof/Machine/State.lean ====
section
/-! DEFINITION. The state of the block (spec/10_state.md), plain data: the sticky fault bit, the bus
contexts, the clients with their commands in progress, the bus event history, and the model's own fields
(the events still to come from outside and the count of free values drawn). State.reset is the machine
right after reset (R38, R300). -/

namespace Sys2Proof.Machine

/-! ## Responses (30_encoding.md R100 to R103) -/

/-- The status codes of R101. -/
inductive Status where
  /-- 0x00, the command completed. -/
  | ok
  /-- 0x01, a transaction failed or timed out, or a read's count differs (R271). -/
  | errBusTransport
  /-- 0x02, a sequence moved too few bytes (R272). -/
  | errShortTransfer
  /-- 0x03, reserved for the host; the block never produces it (R273). -/
  | errConfigUnavailable
  /-- 0x04, reserved for the host; the block never produces it (R273). -/
  | errInvalidSession
  /-- 0x10, an illegal descriptor (R274). -/
  | errIllegalCommand
  /-- 0xFF, a contract violation, or any command while the fault stands (R275, R276). -/
  | faultContract
  deriving DecidableEq, Repr

/-- The one response of a command: STATUS, RESULT and the data bytes; DLEN is their number (R100). -/
structure Response where
  status : Status
  result : Word
  data : List Byte
  deriving DecidableEq, Repr

/-! ## The bus (20_memory.md R52 to R54) -/

/-- The timeout a transaction carries (R54, R128). -/
inductive Timeout where
  | milliseconds (t : Word)
  | noLimit
  deriving DecidableEq, Repr

/-- One transfer of a transaction (R52). -/
inductive Transfer where
  /-- `W(frame)` -/
  | w (frame : List Byte)
  /-- `R(n, delay)`, the delay in microseconds -/
  | r (n : Nat) (delay : Word)
  deriving DecidableEq, Repr

/-- A transaction, in one of the three shapes of R52. -/
inductive Transaction where
  /-- `[W(frame)]` -/
  | write (frame : List Byte)
  /-- `[R(n, 0)]` -/
  | read (n : Nat)
  /-- `[W(f1), W(f2), R(n, delay)]`, one unit (R57) -/
  | sequence (frame1 frame2 : List Byte) (n : Nat) (delay : Word)
  deriving DecidableEq, Repr

/-- What the block hands the bus: the endpoint, the transaction and its timeout (R15, R54). -/
structure Request where
  endpoint : Nat
  transaction : Transaction
  timeout : Timeout
  deriving DecidableEq, Repr

/-- The outcome of a transaction (R53). -/
inductive BusOutcome where
  /-- `Err`: a transport failure or a timeout. -/
  | err
  /-- `Ok(count)` of a single write. -/
  | okWrite (count : Nat)
  /-- `Ok(count, data)` of a transaction that ends in a read. -/
  | okRead (count : Nat) (data : List Byte)
  deriving DecidableEq, Repr

/-- What the bus oracle says to the next transaction of a context, before it is fitted to that
transaction's shape (entry 2). -/
inductive BusAnswer where
  | err
  | ok (count : Nat) (data : List Byte)
  deriving DecidableEq, Repr

/-- One entry of `HIST`: context, client, transaction and outcome (R35). -/
structure BusEvent where
  ctx : Nat
  client : Nat
  transaction : Transaction
  outcome : BusOutcome
  deriving DecidableEq, Repr

/-! ## Commands in progress (10_state.md R28 to R31) -/

/-- What a command does in one guard span (R25): one of the bus procedures with its arguments, or the
state change of `CTX_OPEN` and `CTX_CLOSE`. -/
inductive Span where
  /-- `WriteOp(i, frame)` (R121) -/
  | write (frame : List Byte)
  /-- `ReadOp(i, a, n)` (R124) -/
  | read (addr : Byte) (n : Nat)
  /-- `SeqOp(i, f1, f2, n, delay, to)` (R127) -/
  | sequence (frame1 frame2 : List Byte) (n : Nat) (delay : Word) (timeout : Timeout)
  /-- `OPEN[i] <- b` (R252, R253) -/
  | setOpen (b : Bool)
  deriving DecidableEq, Repr

/-- A procedure call in progress: its context and what it does there. -/
structure Call where
  ctx : Nat
  span : Span
  deriving DecidableEq, Repr

/-- What a bus procedure returns: `(status, data)` (R121, R124, R127). -/
structure SpanResult where
  status : Status
  data : List Byte
  deriving DecidableEq, Repr

/-- The phase, "the block's program counter for one command" (R29), with the procedure call it is in.
`DONE` is the client being `answered`: R28 and R29 describe the same moment. -/
inductive Phase where
  /-- `DECODE`: check the descriptor. -/
  | decode
  /-- `ACQ(k)`: wait to take the guard for span `k`. -/
  | acq (k : Nat) (call : Call)
  /-- `BUS(k, t)`: transaction `t` of span `k` is with the bus. -/
  | bus (k t : Nat) (call : Call)
  /-- `REL(k)`: release the guard that ends span `k`; `result` is what the procedure returns. -/
  | rel (k : Nat) (call : Call) (result : SpanResult)
  /-- `COMPUTE` after span `k`, or before any span (`none`): pure steps. -/
  | compute (k : Nat) (last : Option (Span × SpanResult))
  deriving DecidableEq, Repr

/-- The locals of a command (R30, R31). `CUR` and `NEW` are not present before the read of an update. -/
structure Locals where
  cur : Option Half
  new : Option Half
  step : Nat
  deriving DecidableEq, Repr

/-- The locals of a command in `DECODE`: `STEP` is 0 (R31), `CUR` and `NEW` are not present (R38). -/
def Locals.start : Locals := ⟨none, none, 0⟩

/-- `CLIENT[c]` (R28). -/
inductive Client where
  | idle
  | pending (cmd : List Word) (phase : Phase) (locals : Locals)
  | answered (response : Response)
  deriving DecidableEq, Repr

/-! ## Contexts (10_state.md R23 to R26) -/

/-- `LOCK[i]` (R24). -/
inductive Lock where
  | free
  | held (client : Nat)
  deriving DecidableEq, Repr

/-- The state of one bus context, with its endpoint parameter (R10) and two fields of the model's own:
the request with the bus and the answers the bus will give (entry 2). -/
structure Context where
  /-- `OPEN[i]` (R23). -/
  isOpen : Bool
  /-- `LOCK[i]` (R24). -/
  lock : Lock
  /-- `RSCRATCH[i]` (R26). -/
  rscratch : List Byte
  /-- `WSCRATCH[i]` (R26). -/
  wscratch : List Byte
  /-- `ENDPOINT[i]` (R10). -/
  endpoint : Nat
  /-- The request handed to the bus and not answered yet, if any (R29, R54). -/
  onBus : Option Request
  /-- The bus oracle's answers for this context that the block has not taken yet. -/
  answers : List BusAnswer
  deriving DecidableEq, Repr

/-! ## Events from outside -/

/-- What can happen from outside the block (entry 1). -/
inductive Input where
  /-- Client `c` delivers a command descriptor (R28, R90). -/
  | submit (c : Nat) (descriptor : List Word)
  /-- Client `c`'s command gets a turn of `n` steps of its pseudocode (R8, R29). -/
  | turn (c : Nat) (n : Nat)
  /-- The bus answers a transaction of context `i` (R53). -/
  | answer (i : Nat) (a : BusAnswer)
  /-- Reset, or loss of power (R291, R300). -/
  | reset
  deriving DecidableEq, Repr

/-! ## The state -/

/-- The state of the block (R21), its parameters (R10), and the model's own fields. -/
structure State where
  /-- The parameters, fixed for a run (R37). -/
  params : Params
  /-- `FAULTED` (R22). -/
  faulted : Bool
  /-- The bus contexts; `N_CTX` is their number (R250). -/
  contexts : List Context
  /-- The clients by number, in rising order; a client that is not listed is `Idle` (R28). Every number listed is below
  `N_CLIENTS` (R21). -/
  clients : List (Nat × Client)
  /-- `HIST`, oldest first (R35). -/
  hist : List BusEvent
  /-- The events still to come from outside, next first (the model's own field). -/
  inputs : List Input
  /-- How many free values have been drawn (the model's own field). -/
  draws : Nat
  deriving DecidableEq, Repr

/-- Why a step would stop the model. No meaning and no step raises one: every violation the spec names
is a next state. -/
inductive Fault where
  /-- Raised by nobody. The spec's own fault, the contract violation of R275, is the sticky state of R276
  with its response, a next state. Safe. -/
  | neverRaised
  deriving DecidableEq, Repr

/-- Why an instruction has no meaning. -/
inductive Refusal where
  /-- Raised by an arm of `exec` for an instruction without a meaning; every instruction has one, so by no
  arm. Safe. -/
  | notModelled (mnemonic : String)
  deriving DecidableEq, Repr

/-- Context `i` right after reset: closed, its guard free (R38). The scratch buffers are "unspecified, any
bytes" there; the model takes zeros (DESIGN CHOICE, entry 4). -/
def Context.reset (scratchSize endpoint : Nat) : Context where
  isOpen := false
  lock := .free
  rscratch := List.replicate scratchSize 0
  wscratch := List.replicate scratchSize 0
  endpoint := endpoint
  onBus := none
  answers := []

/-- The block right after reset (R38, R300): not faulted, every context closed and free, every client
idle, no bus event, and nothing to come from outside. -/
def State.reset : State where
  params := Config.params
  faulted := false
  contexts := (List.range Config.nCtx).map fun i =>
    Context.reset Config.params.scratchSize (Config.endpoint i)
  clients := []
  hist := []
  inputs := []
  draws := 0

end Sys2Proof.Machine
end

