-- ==== Sys2Proof/Machine/Operands.lean ====
section
/-! DEFINITION. Operand and result forms: byte order (spec/20_memory.md R55), the bus frames
(spec/30_encoding.md R80 to R85), the transfers of a transaction (R52), the setpoint fields
(spec/43_charger.md R210, R214, R215), and the words of a response (R100 to R103). -/

namespace Sys2Proof.Machine

/-! ## Byte order (R14, R55) -/

/-- `le16(b0, b1) = b0 | (b1 << 8)` (R14, R55). -/
def le16 (b0 b1 : Byte) : Half := b1 ++ b0

/-- `bytes16(v) = [v[7:0], v[15:8]]` (R14, R55). -/
def bytes16 (v : Half) : List Byte := [v.extractLsb' 0 8, v.extractLsb' 8 8]

/-- `le16(data[0], data[1])` of the bytes of a 2-byte read (R83, R150, R170). The bus gives exactly two
(R53); a shorter list, which no read of 2 bytes returns, reads as 0. -/
def valueOf (data : List Byte) : Half :=
  match data with
  | b0 :: b1 :: _ => le16 b0 b1
  | _ => 0

/-! ## Frames (R80 to R85) -/

/-- The frame of a write of `data` to address `a` (R80). -/
def writeFrame (a : Byte) (data : List Byte) : List Byte := a :: data

/-- The pointer-set frame of address `a` (R81). -/
def pointerFrame (a : Byte) : List Byte := writeFrame a []

/-- The register-write frame of value `v` to address `a`, 3 bytes (R82). -/
def registerFrame (a : Byte) (v : Half) : List Byte := writeFrame a (bytes16 v)

/-- The first frame of an SRAM read: the pointer register and the sub-address as a 16-bit value (R58, R84). -/
def sramPointerFrame (s : Byte) : List Byte := [FgRegister.sramRaddr.address, s, 0x00]

/-- The second frame of an SRAM read, the read trigger (R58, R84). -/
def sramTriggerFrame : List Byte := [FgRegister.sramRdata.address]

/-! ## Transactions (R52) -/

/-- The transfers of a transaction, in order (R52). -/
def Transaction.transfers : Transaction → List Transfer
  | .write frame => [.w frame]
  | .read n => [.r n 0]
  | .sequence frame1 frame2 n delay => [.w frame1, .w frame2, .r n delay]

/-- How many bytes the transaction's read transfer has; 0 for a write (R52, R53). -/
def Transaction.readLength : Transaction → Nat
  | .write _ => 0
  | .read n => n
  | .sequence _ _ n _ => n

/-- The frames a transaction writes, in order (R52). -/
def Transaction.frames : Transaction → List (List Byte)
  | .write frame => [frame]
  | .read _ => []
  | .sequence frame1 frame2 _ _ => [frame1, frame2]

/-- Transaction `t` of a guard span (R25, R29); `none` where the span has no transaction `t`. -/
def Span.transaction : Span → Nat → Option Transaction
  | .write frame, 1 => some (.write frame)
  | .read addr _, 1 => some (.write (pointerFrame addr))
  | .read _ n, 2 => some (.read n)
  | .sequence frame1 frame2 n delay _, 1 => some (.sequence frame1 frame2 n delay)
  | _, _ => none

/-- The timeout a span's transactions carry: the command's own for a sequence, the default for every
other transaction (R54, R123). -/
def Span.timeout (p : Params) : Span → Timeout
  | .sequence _ _ _ _ timeout => timeout
  | _ => .milliseconds p.defaultTimeoutMs

/-- The SRAM read of sub-address `s`: one sequence of 2 read bytes with the fuel gauge's delay and the
default timeout (R170). -/
def sramRead (p : Params) (s : Byte) : Span :=
  .sequence (sramPointerFrame s) sramTriggerFrame 2 p.fgReadDelay (.milliseconds p.defaultTimeoutMs)

/-- `to` of `SEQ_WWR`: no limit if `F = 1`, else `X3` milliseconds (R128). -/
def sequenceTimeout (noLimit : Bool) (timeout : Word) : Timeout :=
  if noLimit then .noLimit else .milliseconds timeout

/-! ## Setpoint fields (R210) -/

/-- One masked update: a register, a mask and the value under it (R217). -/
structure FieldUpdate where
  reg : Byte
  mask : Half
  value : Half
  deriving DecidableEq, Repr

/-- `Merge(cur, mask, value) = (cur & ~mask) | (value & mask)` (R154). -/
def merge (cur mask value : Half) : Half := (cur &&& ~~~mask) ||| (value &&& mask)

/-- `autostop_value(b)` (R214). -/
def autostopValue (b : Bool) : Half := if b then 0x0040 else 0x0000

/-- `chgen_value(b)` (R215). -/
def chgenValue (b : Bool) : Half := if b then 0x0008 else 0x0000

/-! ## Responses (R100 to R103) -/

/-- The STATUS byte of R101. -/
def Status.code : Status → Byte
  | .ok => 0x00
  | .errBusTransport => 0x01
  | .errShortTransfer => 0x02
  | .errConfigUnavailable => 0x03
  | .errInvalidSession => 0x04
  | .errIllegalCommand => 0x10
  | .faultContract => 0xFF

/-- The words of a response: `R0` with STATUS and DLEN, `R1` with RESULT, then the packed data (R100, R103). -/
def Response.words (r : Response) : List Word :=
  ((BitVec.ofNat 16 r.data.length ++ (0 : Byte)) ++ r.status.code) :: r.result :: packBytes r.data

/-- `Respond(status, 0, [])` (R15). -/
def plain (status : Status) : Response := ⟨status, 0, []⟩

/-- `Respond(status, (status = OK) ? result : 0, [])` (R102, R151, R180). -/
def withResult (status : Status) (result : Word) : Response :=
  ⟨status, if status = .ok then result else 0, []⟩

/-- `Respond(OK, 0, data)` on success, `Respond(status, 0, [])` otherwise (R100, R125, R128). -/
def withData (status : Status) (data : List Byte) : Response :=
  ⟨status, 0, if status = .ok then data else []⟩

end Sys2Proof.Machine
end

