-- ==== Sys2Proof/Machine/Flags.lean ====
section
/-! DEFINITION. The block has no status flags (spec/10_state.md R32): a command's outcome is its status.
This file computes it: how the bus's answer becomes a transaction's outcome (spec/20_memory.md R53), what a
read leaves in its buffer (spec/40_bus_primitive.md R130), and the status a bus procedure returns (R121,
R124, R127). -/

namespace Sys2Proof.Machine

/-- `n` free bytes, the draws `d`, `d + 1`, ... -/
def freeBytes (d n : Nat) : List Byte := (List.range n).map fun k => Config.freeByte (d + k)

/-- How many bytes an answer leaves out of the `n` that R53 gives a read. -/
def missingBytes (n : Nat) : BusAnswer → Nat
  | .err => 0
  | .ok _ data => n - data.length

/-- The outcome of a transaction: the answer fitted to the transaction's shape (R53). The data of a read
is exactly its `n` bytes; the model takes a byte the answer leaves out as free, from draw `d` on (entry 2). -/
def fitAnswer (t : Transaction) (a : BusAnswer) (d : Nat) : BusOutcome :=
  match a with
  | .err => .err
  | .ok count data =>
      match t with
      | .write _ => .okWrite count
      | .read n => .okRead count (data.take n ++ freeBytes d (n - data.length))
      | .sequence _ _ n _ => .okRead count (data.take n ++ freeBytes d (n - data.length))

/-- How many free values `fitAnswer` draws. -/
def fitDraws (t : Transaction) (a : BusAnswer) : Nat :=
  match t with
  | .write _ => 0
  | .read n => missingBytes n a
  | .sequence _ _ n _ => missingBytes n a

/-- The bytes a transaction leaves in its read buffer, `none` where they are free values: a read that failed, by `Err`
or by a count other than `n` (R126), and a sequence that failed or moved fewer than `len1 + len2 + n` bytes (R130).
R26 and R135 leave the buffer's contents after a failure open: free values there are the model's choice (entry 7). -/
def deliveredBytes (t : Transaction) (o : BusOutcome) : Option (List Byte) :=
  match t, o with
  | .write _, _ => some []
  | .read n, .okRead count data => if count = n then some data else none
  | .sequence frame1 frame2 n _, .okRead count data =>
      if count < frame1.length + frame2.length + n then none else some data
  | _, _ => none

/-- The read buffer after a transaction: the delivered bytes, or free values from draw `d` on (R130). -/
def readBuffer (t : Transaction) (o : BusOutcome) (d : Nat) : List Byte :=
  match deliveredBytes t o with
  | some data => data
  | none => freeBytes d t.readLength

/-- How many free values `readBuffer` draws. -/
def bufferDraws (t : Transaction) (o : BusOutcome) : Nat :=
  match deliveredBytes t o with
  | some _ => 0
  | none => t.readLength

/-- `WriteOp`'s status: a write's count is not examined (R121, R122). -/
def writeStatus : BusOutcome → Status
  | .err => .errBusTransport
  | _ => .ok

/-- `ReadOp`'s status: the count must be exactly `n` (R124, R126). -/
def readStatus (n : Nat) : BusOutcome → Status
  | .okRead count _ => if count = n then .ok else .errBusTransport
  | _ => .errBusTransport

/-- `SeqOp`'s status: the count must reach `len(f1) + n`; `len(f2)` is not counted (R127, R129). -/
def sequenceStatus (len1 n : Nat) : BusOutcome → Status
  | .okRead count _ => if count < len1 + n then .errShortTransfer else .ok
  | _ => .errBusTransport

/-- What the procedure of a span returns after the outcome of its last transaction, whose read buffer is
`buffer`: data only with `OK` (R121, R124, R127, R134). -/
def spanResult (span : Span) (o : BusOutcome) (buffer : List Byte) : SpanResult :=
  match span with
  | .write _ => ⟨writeStatus o, []⟩
  | .read _ n => ⟨readStatus n o, if readStatus n o = .ok then buffer else []⟩
  | .sequence frame1 _ n _ _ =>
      ⟨sequenceStatus frame1.length n o, if sequenceStatus frame1.length n o = .ok then buffer else []⟩
  | .setOpen _ => ⟨.ok, []⟩

end Sys2Proof.Machine
end

