-- ==== Sys2Proof/Machine/Ops.lean ====
section
/-! DEFINITION. The named operations over the state: clients and contexts, Respond and raise Fault
(spec/00_scope.md R15, spec/60_exceptions.md R276), the guard and the hand-over to the bus
(spec/10_state.md R24, R29), the phases of a command one by one, a turn of a client, and the events from
outside. Every meaning is a Program run by these operations. -/

namespace Sys2Proof.Machine

/-! ## Clients -/

/-- The state of client `c`; a client that is not listed is `Idle` (R28). -/
def clientAt : List (Nat × Client) → Nat → Client
  | [], _ => .idle
  | (k, x) :: rest, c => if k = c then x else clientAt rest c

/-- The list with client `c` at `x`: numbers stay strictly rising, and an idle client is not listed. -/
def putClient : List (Nat × Client) → Nat → Client → List (Nat × Client)
  | [], c, x => if x = .idle then [] else [(c, x)]
  | (k, y) :: rest, c, x =>
      if c < k then (if x = .idle then (k, y) :: rest else (c, x) :: (k, y) :: rest)
      else if c = k then (if x = .idle then rest else (c, x) :: rest)
      else (k, y) :: putClient rest c x

/-- `CLIENT[c]` (R28). -/
def State.client (s : State) (c : Nat) : Client := clientAt s.clients c

/-- `CLIENT[c] <- x` (R28). -/
def State.setClient (s : State) (c : Nat) (x : Client) : State :=
  { s with clients := putClient s.clients c x }

/-- Context `i <- x`; nothing where there is no context `i`. -/
def State.setContext (s : State) (i : Nat) (x : Context) : State :=
  { s with contexts := s.contexts.set i x }

/-- `Respond(r)`: the command of client `c` ends with the response (R15, R28). -/
def respond (c : Nat) (r : Response) (s : State) : State := s.setClient c (.answered r)

/-! ## The contract fault (R275, R276) and reset (R300) -/

/-- `raise Fault(reason)` by client `c`'s command, for a bad index and for a closed context alike: set
`FAULTED`, answer `FAULT_CONTRACT`, change nothing else (R276). The reason is not reported (R15). -/
def raiseFault (c : Nat) (s : State) : State :=
  { respond c (plain .faultContract) s with faulted := true }

/-- Context `i` after reset: its endpoint is a parameter and stays (R37, R300). -/
def resetContext (p : Params) (x : Context) : Context := Context.reset p.scratchSize x.endpoint

/-- Reset: the only way out of the fault state (R276, R300). Pending commands are discarded without a
response, and nothing goes to the bus. Parameters and events to come are not block state and stay. -/
def resetBlock (s : State) : State :=
  { s with
    faulted := false
    contexts := s.contexts.map (resetContext s.params)
    clients := []
    hist := [] }

/-! ## Scratch buffers (R26, R135) -/

/-- A scratch buffer after `bytes` were put at its start; bytes that do not fit go to an on-demand buffer
and leave it as it was (R26). -/
def overlay (size : Nat) (buffer bytes : List Byte) : List Byte :=
  if bytes.length ≤ size then bytes ++ buffer.drop bytes.length else buffer

/-- `WSCRATCH` after the frames of a transaction were assembled in it, one after the other (R26, entry 7). -/
def assembleFrames (size : Nat) (buffer : List Byte) (t : Transaction) : List Byte :=
  t.frames.foldl (overlay size) buffer

/-! ## The guard and the bus (R24, R29) -/

/-- The context once transaction `t` of a span is handed to the bus (R29, R54). -/
def handOver (p : Params) (span : Span) (t : Transaction) (x : Context) : Context :=
  { x with
    onBus := some ⟨x.endpoint, t, span.timeout p⟩
    wscratch := assembleFrames p.scratchSize x.wscratch t }

/-- The context once the bus has answered: the request is done, the answer is taken, and the read buffer
holds `buffer` (R26, R35). -/
def takeAnswer (p : Params) (rest : List BusAnswer) (buffer : List Byte) (x : Context) : Context :=
  { x with
    onBus := none
    answers := rest
    rscratch := overlay p.scratchSize x.rscratch buffer }

/-- `Release(i)` by client `c`, performed only by the holder (R24). -/
def releaseLock (c : Nat) (x : Context) : Context :=
  { x with lock := if x.lock = .held c then .free else x.lock }

/-! ## Programs -/

/-- What a command does next. -/
inductive Action where
  /-- Call a procedure in the next guard span. -/
  | call (c : Call)
  /-- `Respond`. -/
  | respond (r : Response)
  deriving DecidableEq, Repr

/-- One pure stretch of a command's pseudocode: its locals after it, what it does next, and how many free
values it drew. -/
structure Decision where
  locals : Locals
  action : Action
  draws : Nat
  deriving DecidableEq, Repr

/-- A command's pseudocode: the context it uses, if any, and its pure stretches, from the number of the
next free value, its locals, and the procedure that returned last with its result (`none` at the start). -/
structure Program where
  bus : Option BusIndex
  next : Nat → Locals → Option (Span × SpanResult) → Decision

/-- Carry out a decision of client `c` after span `k`: wait for the guard of span `k + 1`, or answer. -/
def follow (c : Nat) (cmd : List Word) (k : Nat) (d : Decision) (s : State) : State :=
  let s' := { s with draws := s.draws + d.draws }
  match d.action with
  | .call call => s'.setClient c (.pending cmd (.acq (k + 1) call) d.locals)
  | .respond r => respond c r s'

/-! ## The phases of a command (R29) -/

/-- `DECODE` of a legal descriptor: the fault check, the index check, then the command's rule (R106 steps 1, 3
and 4, R280). -/
def decodePhase (p : Program) (c : Nat) (cmd : List Word) (l : Locals) (s : State) : State :=
  if s.faulted then respond c (plain .faultContract) s
  else
    match p.bus with
    | none => s.setClient c (.pending cmd (.compute 0 none) l)
    | some b =>
        if s.contexts.length ≤ b.toNat then raiseFault c s
        else follow c cmd 0 (p.next s.draws l none) s

/-- `ACQ(k)`: answer `FAULT_CONTRACT` if the block is faulted; wait while the guard is held; else take it,
and either raise the fault of a closed context, having freed the guard again, or hand the first transaction
to the bus; `CTX_OPEN` and `CTX_CLOSE` make their change under the guard (R15, R24, R252 to R254). -/
def acquirePhase (c : Nat) (cmd : List Word) (k : Nat) (call : Call) (l : Locals) (s : State) : State :=
  if s.faulted then respond c (plain .faultContract) s
  else
    match s.contexts[call.ctx]? with
    | none => raiseFault c s
    | some x =>
        match x.lock with
        | .held _ => s
        | .free =>
            match call.span, call.span.transaction 1 with
            | .setOpen b, _ =>
                (s.setContext call.ctx { x with lock := .held c, isOpen := b }).setClient c
                  (.pending cmd (.rel k call ⟨.ok, []⟩) l)
            | _, none => s
            | span, some t =>
                if x.isOpen then
                  (s.setContext call.ctx (handOver s.params span t { x with lock := .held c })).setClient c
                    (.pending cmd (.bus k 1 call) l)
                else raiseFault c s

/-- `BUS(k, t)`: wait while the bus has not answered; else record the event, and hand the span's next
transaction to the bus, or go and release the guard (R29, R35, R124). -/
def busPhase (c : Nat) (cmd : List Word) (k t : Nat) (call : Call) (l : Locals) (s : State) : State :=
  match s.contexts[call.ctx]?, call.span.transaction t with
  | some x, some txn =>
      match x.answers with
      | [] => s
      | a :: rest =>
          let outcome := fitAnswer txn a s.draws
          let d := s.draws + fitDraws txn a
          let buffer := readBuffer txn outcome d
          let x' := takeAnswer s.params rest buffer x
          let s' := { s with
            hist := s.hist ++ [BusEvent.mk call.ctx c txn outcome]
            draws := d + bufferDraws txn outcome }
          match call.span.transaction (t + 1), outcome with
          | some txn', .okWrite _ =>
              (s'.setContext call.ctx (handOver s.params call.span txn' x')).setClient c
                (.pending cmd (.bus k (t + 1) call) l)
          | _, _ =>
              (s'.setContext call.ctx x').setClient c
                (.pending cmd (.rel k call (spanResult call.span outcome buffer)) l)
  | _, _ => s

/-- `REL(k)`: release the guard that ends span `k` (R16, R29). -/
def releasePhase (c : Nat) (cmd : List Word) (k : Nat) (call : Call) (r : SpanResult) (l : Locals)
    (s : State) : State :=
  let next := Client.pending cmd (.compute k (some (call.span, r))) l
  match s.contexts[call.ctx]? with
  | none => s.setClient c next
  | some x => (s.setContext call.ctx (releaseLock c x)).setClient c next

/-- One step of client `c`'s command, whose pseudocode is `p`: the step its phase names (R28, R29). A client
that is not pending has no step. -/
def advance (p : Program) (c : Nat) (s : State) : State :=
  match s.client c with
  | .idle => s
  | .answered _ => s
  | .pending cmd phase l =>
      match phase with
      | .decode => decodePhase p c cmd l s
      | .acq k call => acquirePhase c cmd k call l s
      | .bus k t call => busPhase c cmd k t call l s
      | .rel k call r => releasePhase c cmd k call r l s
      | .compute k last => follow c cmd k (p.next s.draws l last) s

/-- `n` steps of client `c`'s command, or as many as it has: once it has answered it makes no further step
(R294). -/
def turnSteps (p : Program) (c : Nat) : Nat → State → State
  | 0, s => s
  | n + 1, s =>
      match s.client c with
      | .pending _ _ _ => turnSteps p c n (advance p c s)
      | _ => s

/-- The meaning of a command: when the next event is a turn of a client, the steps of that turn (R8, R29).
With no turn next, no client moves. -/
def run (p : Program) (s : State) : Host.Outcome State Fault Refusal :=
  match s.inputs with
  | .turn c n :: rest => .next (turnSteps p c n { s with inputs := rest })
  | _ => .next s

/-! ## Program shapes -/

/-- A command of one guard span whose answer may draw free values: call the procedure, then answer from the number
of the next free value and the procedure's result. -/
def drawingProgram (bus : BusIndex) (span : Span) (finish : Nat → SpanResult → Response × Nat) : Program where
  bus := some bus
  next := fun d l last =>
    match last with
    | none => ⟨l, .call ⟨bus.toNat, span⟩, 0⟩
    | some (_, r) => ⟨l, .respond (finish d r).1, (finish d r).2⟩

/-- A command of one guard span: call the procedure, then answer from its result. -/
def spanProgram (bus : BusIndex) (span : Span) (finish : SpanResult → Response) : Program :=
  drawingProgram bus span fun _ r => (finish r, 0)

/-- A command with no bus activity: a result, and how many free values it drew. -/
def pureProgram (result : Nat → Word × Nat) : Program where
  bus := none
  next := fun d l _ => ⟨l, .respond ⟨.ok, (result d).1, []⟩, (result d).2⟩

/-- What a masked update does next. -/
inductive UpdateStep where
  | call (span : Span)
  | done (status : Status)
  deriving DecidableEq, Repr

/-- `RegUpdate` (R153): read the register; on success merge, and write only if the value changes; return the
status of the procedure that failed, or `OK`. -/
def updateStep (f : FieldUpdate) (l : Locals) (last : Option (Span × SpanResult)) : Locals × UpdateStep :=
  match last with
  | none => (l, .call (.read f.reg 2))
  | some (.read _ _, r) =>
      if r.status = .ok then
        let cur := valueOf r.data
        let new := merge cur f.mask f.value
        ({ l with cur := some cur, new := some new },
          if new = cur then .done .ok else .call (.write (registerFrame f.reg new)))
      else (l, .done r.status)
  | some (_, r) => (l, .done r.status)

/-- A command that is one masked update (R153, R217). -/
def updateProgram (bus : BusIndex) (f : FieldUpdate) : Program where
  bus := some bus
  next := fun _ l last =>
    match updateStep f l last with
    | (l', .call span) => ⟨l', .call ⟨bus.toNat, span⟩, 0⟩
    | (l', .done status) => ⟨l', .respond (plain status), 0⟩

/-- A command that makes masked updates in order, counted by `STEP`, and stops at the first that fails
(R230, R233). -/
def updatesProgram (bus : BusIndex) (fields : List FieldUpdate) : Program where
  bus := some bus
  next := fun _ l last =>
    match fields[l.step]? with
    | none => ⟨l, .respond (plain .ok), 0⟩
    | some f =>
        match updateStep f l last with
        | (l', .call span) => ⟨l', .call ⟨bus.toNat, span⟩, 0⟩
        | (l', .done status) =>
            if status = .ok then
              match fields[l.step + 1]? with
              | none => ⟨{ l' with step := l.step + 1 }, .respond (plain .ok), 0⟩
              | some g =>
                  ⟨{ l' with step := l.step + 1 }, .call ⟨bus.toNat, .read g.reg 2⟩, 0⟩
            else ⟨l', .respond (plain status), 0⟩

/-! ## Events from outside -/

/-- Client `c` delivers a descriptor; a client that is pending submits nothing (R28), and there is no client `c` where
`c` is not below `N_CLIENTS` (R10, R21). -/
def submit (c : Nat) (descriptor : List Word) (s : State) : State :=
  if c < s.params.nClients then
    match s.client c with
    | .pending _ _ _ => s
    | _ => s.setClient c (.pending descriptor .decode Locals.start)
  else s

/-- The bus gives an answer for context `i`; there is no such bus where there is no context (R53). -/
def busAnswer (i : Nat) (a : BusAnswer) (s : State) : State :=
  match s.contexts[i]? with
  | none => s
  | some x => s.setContext i { x with answers := x.answers ++ [a] }

/-- `DECODE` of an illegal descriptor: the fault check, then `ERR_ILLEGAL_COMMAND` (R106 steps 1 and 2). -/
def refuse (c : Nat) (s : State) : State :=
  match s.client c with
  | .pending _ .decode _ =>
      respond c (plain (if s.faulted then .faultContract else .errIllegalCommand)) s
  | _ => s

/-- The command that the next event runs: the next event is a turn of a client whose descriptor decodes. -/
def fetch (s : State) : Option Instr :=
  match s.inputs with
  | .turn c _ :: _ =>
      match s.client c with
      | .pending cmd _ _ =>
          match decode cmd with
          | .ok i => some i
          | .error _ => none
      | _ => none
  | _ => none

/-- The next event where it runs no command: nothing to come, a delivery, an answer of the bus, a reset, a
turn of a client that has no command, or the refusal of an illegal descriptor. -/
def outside (s : State) : State :=
  match s.inputs with
  | [] => s
  | .submit c descriptor :: rest => submit c descriptor { s with inputs := rest }
  | .answer i a :: rest => busAnswer i a { s with inputs := rest }
  | .reset :: rest => resetBlock { s with inputs := rest }
  | .turn _ 0 :: rest => { s with inputs := rest }
  | .turn c _ :: rest => refuse c { s with inputs := rest }

/-- A turn long enough for every command: `CHG_PROBE` takes at most 37 steps (entry 1). -/
def fullTurn : Nat := 40

/-- Client 0 has just delivered the descriptor and gets a full turn next (entry 8). -/
def deliverFirst (descriptor : List Word) (s : State) : State :=
  { s.setClient 0 (.pending descriptor .decode Locals.start) with
    inputs := .turn 0 fullTurn :: s.inputs }

end Sys2Proof.Machine
end

