-- ==== Sys2Proof/Machine/BusPrimitive.lean ====
section
/-! DEFINITION. The bus transaction primitive (spec/40_bus_primitive.md): `WRITE_SYNC`, `READ_SYNC` and
`SEQ_WWR`. -/

namespace Sys2Proof.Machine

/-- `WRITE_SYNC`: one write of `[addr] ++ payload` (R121). -/
def execWriteSync (bus : BusIndex) (addr : Byte) (payload : List Byte) (s : State) :
    Host.Outcome State Fault Refusal :=
  run (spanProgram bus (.write (writeFrame addr payload)) fun r => plain r.status) s

/-- `READ_SYNC`: `len` bytes from a register address; the bytes are the response's data (R125). -/
def execReadSync (bus : BusIndex) (addr len : Byte) (s : State) : Host.Outcome State Fault Refusal :=
  run (spanProgram bus (.read addr len.toNat) fun r => withData r.status r.data) s

/-- `SEQ_WWR`: one sequenced write-write-read; the bytes read are the response's data (R128). -/
def execSeqWwr (bus : BusIndex) (noLimit : Bool) (frame1 frame2 : List Byte) (readLength : Byte)
    (delay timeout : Word) (s : State) : Host.Outcome State Fault Refusal :=
  run (spanProgram bus
    (.sequence frame1 frame2 readLength.toNat delay (sequenceTimeout noLimit timeout))
    fun r => withData r.status r.data) s

end Sys2Proof.Machine
end

