-- ==== Sys2Proof/Machine/Converter.lean ====
section
/-! DEFINITION. The fixed-point converter: the decode transforms of the fuel gauge (spec/42_fuel_gauge.md
R172 to R178) and the encode functions of the charger (spec/43_charger.md R211 to R213). Arithmetic is on
mathematical integers (spec/00_scope.md R13). -/

namespace Sys2Proof.Machine

/-! ## Decode transforms -/

/-- `soc_decode(raw)`, tenths of a percent (R172). -/
def socDecode (raw : Half) : Int :=
  let r := raw.toNat
  ((r / 256) * 10 + ((r % 256) * 10) / 256 : Nat)

/-- `((raw & mask) >> 11) * 1000 + ((raw & 0x07FF) * 1000) / 2048`, the shape that voltage and current
share (R173, R174). -/
def milliValue (mask : Nat) (raw : Half) : Int :=
  let r := raw.toNat
  (((r &&& mask) >>> 11) * 1000 + ((r &&& 0x07FF) * 1000) / 2048 : Nat)

/-- `ocv_decode(raw)`, mV (R173); with the quirk, 4000 when bit 15 is set (R178). -/
def ocvDecode (quirk : Bool) (raw : Half) : Int :=
  if quirk && raw.msb then 4000 else milliValue 0x3800 raw

/-- `current_decode(raw)`, mA, signed magnitude (R174); with the quirk, a free value when bit 15 is set
(R178, 93_implementation_defined.md I2). -/
def currentDecode (quirk : Bool) (free : BitVec 32) (raw : Half) : Int :=
  if quirk && raw.msb then free.toInt
  else if raw.msb then -milliValue 0x1800 raw
  else milliValue 0x1800 raw

/-- The tenths of a degree before the sign and the final division (R175). -/
def tempTenths (raw : Half) : Int :=
  let r := raw.toNat
  (((r &&& 0x7FFF) >>> 8) * 10 + ((r &&& 0x00F0) * 10) / 256 : Nat)

/-- `temp_decode(raw)`, whole °C, truncating toward zero (R175); with the quirk, 0 when bit 15 is set (R178). -/
def tempDecode (quirk : Bool) (raw : Half) : Int :=
  if quirk && raw.msb then 0
  else
    let t := if raw.msb then -tempTenths raw else tempTenths raw
    t.tdiv 10

/-- `cycle_decode(raw)` (R176); with the quirk, 0 when bit 15 is set (R178). -/
def cycleDecode (quirk : Bool) (raw : Half) : Int :=
  if quirk && raw.msb then 0 else (raw.toNat &&& 0x00FF : Nat)

/-- `trunc_32(q)`: the decoded quantity as a 32-bit two's-complement RESULT (R102). -/
def quantityWord (q : Int) : Word := BitVec.ofInt 32 q

/-! ## Encode functions -/

/-- `icl_encode(mA)`, a 7-bit code that wraps (R211, R318). -/
def iclEncode (mA : Half) : Half :=
  let m := mA.toNat
  if m < 100 then 0 else BitVec.ofNat 16 (((m - 100) / 25) &&& 0x7F)

/-- `cc_encode(mA)`, an 8-bit code clamped to `[0x07, 0xE0]` (R212). -/
def ccEncode (mA : Half) : Half :=
  let uA := mA.toNat * 1000
  if uA < 109375 then 0x07
  else if 3500000 < uA then 0xE0
  else BitVec.ofNat 16 ((7 + (uA - 109375) / 15625) &&& 0xFF)

/-- `topoff_encode(mA)`, a 5-bit code with a ceiling (R213). -/
def topoffEncode (mA : Half) : Half :=
  let m := mA.toNat
  if m < 100 then 0
  else if m < 800 then BitVec.ofNat 16 ((m - 100) / 25)
  else 0x1C

/-- `zext_32(code)` or `zext_32(value)`: an unsigned RESULT (R102). -/
def halfResult (v : Half) : Word := v.setWidth 32

/-! ## The five fields as masked updates (R210) -/

/-- The autostop field (R210, R221). -/
def autostopField (p : Params) (b : Bool) : FieldUpdate := ⟨p.regAutostop, 0x0040, autostopValue b⟩

/-- The input-current-limit field (R210, R218). -/
def iclField (p : Params) (mA : Half) : FieldUpdate := ⟨p.regIcl, 0x007F, iclEncode mA⟩

/-- The charging-current field (R210, R219). -/
def ccField (p : Params) (mA : Half) : FieldUpdate := ⟨p.regCc, 0x00FF, ccEncode mA⟩

/-- The topoff field (R210, R220). -/
def topoffField (p : Params) (mA : Half) : FieldUpdate := ⟨p.regTopoff, 0x001F, topoffEncode mA⟩

/-- The charge-enable field (R210, R222). -/
def chgenField (p : Params) (b : Bool) : FieldUpdate := ⟨p.regChgen, 0x0008, chgenValue b⟩

end Sys2Proof.Machine
end

