-- ==== Sys2Proof/Machine/Charger.lean ====
section
/-! DEFINITION. The charger commands (spec/43_charger.md): `CHG_SET_*` encode and update one field,
`CHG_PROBE` updates four in order, `CVT_*` encode an operand. -/

namespace Sys2Proof.Machine

/-- A `CVT_*` encoder: the code of an operand, with no bus activity (R223 to R225). -/
def encoderProgram (code : Half) : Program := pureProgram fun _ => (halfResult code, 0)

/-- The four probe-time fields in their fixed order (R230). -/
def probeFields (p : Params) (autostop : Bool) (icl cc topoff : Half) : List FieldUpdate :=
  [autostopField p autostop, iclField p icl, ccField p cc, topoffField p topoff]

/-- `CHG_SET_ICL` (R218). -/
def execChgSetIcl (bus : BusIndex) (mA : Half) (s : State) : Host.Outcome State Fault Refusal :=
  run (updateProgram bus (iclField s.params mA)) s

/-- `CHG_SET_CC` (R219). -/
def execChgSetCc (bus : BusIndex) (mA : Half) (s : State) : Host.Outcome State Fault Refusal :=
  run (updateProgram bus (ccField s.params mA)) s

/-- `CHG_SET_TOPOFF` (R220). -/
def execChgSetTopoff (bus : BusIndex) (mA : Half) (s : State) : Host.Outcome State Fault Refusal :=
  run (updateProgram bus (topoffField s.params mA)) s

/-- `CHG_SET_AUTOSTOP` (R221). -/
def execChgSetAutostop (bus : BusIndex) (enable : Bool) (s : State) : Host.Outcome State Fault Refusal :=
  run (updateProgram bus (autostopField s.params enable)) s

/-- `CHG_SET_ENABLE` (R222). -/
def execChgSetEnable (bus : BusIndex) (enable : Bool) (s : State) : Host.Outcome State Fault Refusal :=
  run (updateProgram bus (chgenField s.params enable)) s

/-- `CHG_PROBE` (R230 to R233). -/
def execChgProbe (bus : BusIndex) (autostop : Bool) (icl cc topoff : Half) (s : State) :
    Host.Outcome State Fault Refusal :=
  run (updatesProgram bus (probeFields s.params autostop icl cc topoff)) s

/-- `CVT_ICL` (R223). -/
def execCvtIcl (mA : Half) (s : State) : Host.Outcome State Fault Refusal :=
  run (encoderProgram (iclEncode mA)) s

/-- `CVT_CC` (R224). -/
def execCvtCc (mA : Half) (s : State) : Host.Outcome State Fault Refusal :=
  run (encoderProgram (ccEncode mA)) s

/-- `CVT_TOPOFF` (R225). -/
def execCvtTopoff (mA : Half) (s : State) : Host.Outcome State Fault Refusal :=
  run (encoderProgram (topoffEncode mA)) s

end Sys2Proof.Machine
end

