-- ==== Sys2Proof/Machine/FuelGauge.lean ====
section
/-! DEFINITION. The fuel-gauge commands (spec/42_fuel_gauge.md): `FG_READ_*` read one SRAM location and
decode it, `CVT_*` decode an operand. A transform takes the number of the next free value and the raw value,
and gives the quantity and how many free values it drew. -/

namespace Sys2Proof.Machine

/-- `soc_decode` (R172). -/
def socTransform (_ : Params) (_ : Nat) (raw : Half) : Int × Nat := (socDecode raw, 0)

/-- `ocv_decode` (R173, R178). -/
def ocvTransform (p : Params) (_ : Nat) (raw : Half) : Int × Nat := (ocvDecode p.quirkSignedFallback raw, 0)

/-- `current_decode` (R174, R178); one free value is drawn where the quirk leaves the result open. -/
def currentTransform (p : Params) (d : Nat) (raw : Half) : Int × Nat :=
  (currentDecode p.quirkSignedFallback (Config.freeCurrent d) raw,
    if p.quirkSignedFallback && raw.msb then 1 else 0)

/-- `temp_decode` (R175, R178). -/
def tempTransform (p : Params) (_ : Nat) (raw : Half) : Int × Nat := (tempDecode p.quirkSignedFallback raw, 0)

/-- `cycle_decode` (R176, R178). -/
def cycleTransform (p : Params) (_ : Nat) (raw : Half) : Int × Nat := (cycleDecode p.quirkSignedFallback raw, 0)

/-- The response of `FgRead` (R170, R180): the transform of the raw value with `OK`, else the status alone. -/
def fgResponse (transform : Nat → Half → Int × Nat) (d : Nat) (r : SpanResult) : Response × Nat :=
  if r.status = .ok then
    (withResult .ok (quantityWord (transform d (valueOf r.data)).1), (transform d (valueOf r.data)).2)
  else (plain r.status, 0)

/-- `FgRead(i, s, T)` and its response (R170): one SRAM read, then the transform of the raw value. -/
def fgProgram (p : Params) (bus : BusIndex) (location : SramLocation) (transform : Nat → Half → Int × Nat) :
    Program :=
  drawingProgram bus (sramRead p location.subAddress) (fgResponse transform)

/-- A `CVT_*` decoder: the transform of an operand, with no bus activity (R185 to R189). -/
def decoderProgram (transform : Nat → Half → Int × Nat) (raw : Half) : Program :=
  pureProgram fun d => (quantityWord (transform d raw).1, (transform d raw).2)

/-- `FG_READ_SOC` (R180). -/
def execFgReadSoc (bus : BusIndex) (s : State) : Host.Outcome State Fault Refusal :=
  run (fgProgram s.params bus .soc (socTransform s.params)) s

/-- `FG_READ_OCV` (R181). -/
def execFgReadOcv (bus : BusIndex) (s : State) : Host.Outcome State Fault Refusal :=
  run (fgProgram s.params bus .ocv (ocvTransform s.params)) s

/-- `FG_READ_CURRENT` (R182). -/
def execFgReadCurrent (bus : BusIndex) (s : State) : Host.Outcome State Fault Refusal :=
  run (fgProgram s.params bus .current (currentTransform s.params)) s

/-- `FG_READ_TEMP` (R183). -/
def execFgReadTemp (bus : BusIndex) (s : State) : Host.Outcome State Fault Refusal :=
  run (fgProgram s.params bus .temperature (tempTransform s.params)) s

/-- `FG_READ_CYCLE` (R184). -/
def execFgReadCycle (bus : BusIndex) (s : State) : Host.Outcome State Fault Refusal :=
  run (fgProgram s.params bus .socCycle (cycleTransform s.params)) s

/-- `CVT_SOC` (R185). -/
def execCvtSoc (raw : Half) (s : State) : Host.Outcome State Fault Refusal :=
  run (decoderProgram (socTransform s.params) raw) s

/-- `CVT_OCV` (R186). -/
def execCvtOcv (raw : Half) (s : State) : Host.Outcome State Fault Refusal :=
  run (decoderProgram (ocvTransform s.params) raw) s

/-- `CVT_CURRENT` (R187). -/
def execCvtCurrent (raw : Half) (s : State) : Host.Outcome State Fault Refusal :=
  run (decoderProgram (currentTransform s.params) raw) s

/-- `CVT_TEMP` (R188). -/
def execCvtTemp (raw : Half) (s : State) : Host.Outcome State Fault Refusal :=
  run (decoderProgram (tempTransform s.params) raw) s

/-- `CVT_CYCLE` (R189). -/
def execCvtCycle (raw : Half) (s : State) : Host.Outcome State Fault Refusal :=
  run (decoderProgram (cycleTransform s.params) raw) s

end Sys2Proof.Machine
end

