-- ==== Sys2Proof/Machine/RegisterCodec.lean ====
section
/-! DEFINITION. The register codec (spec/41_register_codec.md): `READ_REG`, `WRITE_REG` and `UPDATE_REG`. -/

namespace Sys2Proof.Machine

/-- `READ_REG`: the little-endian value of a 2-byte read (R151). -/
def execReadReg (bus : BusIndex) (addr : Byte) (s : State) : Host.Outcome State Fault Refusal :=
  run (spanProgram bus (.read addr 2) fun r => withResult r.status (halfResult (valueOf r.data))) s

/-- `WRITE_REG`: one write of `[addr, value[7:0], value[15:8]]` (R152). -/
def execWriteReg (bus : BusIndex) (addr : Byte) (value : Half) (s : State) :
    Host.Outcome State Fault Refusal :=
  run (spanProgram bus (.write (registerFrame addr value)) fun r => plain r.status) s

/-- `UPDATE_REG`: read, merge under the mask, write if the value changes (R153). -/
def execUpdateReg (bus : BusIndex) (addr : Byte) (mask value : Half) (s : State) :
    Host.Outcome State Fault Refusal :=
  run (updateProgram bus ⟨addr, mask, value⟩) s

end Sys2Proof.Machine
end

