-- ==== Sys2Proof/Machine/Session.lean ====
section
/-! DEFINITION. The lifecycle of bus contexts (spec/44_session.md): `CTX_OPEN` and `CTX_CLOSE`. -/

namespace Sys2Proof.Machine

/-- `CTX_OPEN`: open the context under its guard, with no bus activity (R252). -/
def execCtxOpen (bus : BusIndex) (s : State) : Host.Outcome State Fault Refusal :=
  run (spanProgram bus (.setOpen true) fun r => plain r.status) s

/-- `CTX_CLOSE`: close the context under its guard, with no bus activity (R253). -/
def execCtxClose (bus : BusIndex) (s : State) : Host.Outcome State Fault Refusal :=
  run (spanProgram bus (.setOpen false) fun r => plain r.status) s

end Sys2Proof.Machine
end

