-- ==== Sys2Proof/Machine/Dispatch.lean ====
section
/-! DEFINITION. The meaning of every command (spec/30_encoding.md R96), one arm per constructor. -/

namespace Sys2Proof.Machine

def exec (i : Instr) (s : State) : Host.Outcome State Fault Refusal :=
  match i with
  | .writeSync bus addr payload => Sys2Proof.Machine.execWriteSync bus addr payload s
  | .readSync bus addr len => Sys2Proof.Machine.execReadSync bus addr len s
  | .seqWwr bus noLimit f1 f2 n delay timeout => Sys2Proof.Machine.execSeqWwr bus noLimit f1 f2 n delay timeout s
  | .readReg bus addr => Sys2Proof.Machine.execReadReg bus addr s
  | .writeReg bus addr value => Sys2Proof.Machine.execWriteReg bus addr value s
  | .updateReg bus addr mask value => Sys2Proof.Machine.execUpdateReg bus addr mask value s
  | .fgReadSoc bus => Sys2Proof.Machine.execFgReadSoc bus s
  | .fgReadOcv bus => Sys2Proof.Machine.execFgReadOcv bus s
  | .fgReadCurrent bus => Sys2Proof.Machine.execFgReadCurrent bus s
  | .fgReadTemp bus => Sys2Proof.Machine.execFgReadTemp bus s
  | .fgReadCycle bus => Sys2Proof.Machine.execFgReadCycle bus s
  | .cvtSoc raw => Sys2Proof.Machine.execCvtSoc raw s
  | .cvtOcv raw => Sys2Proof.Machine.execCvtOcv raw s
  | .cvtCurrent raw => Sys2Proof.Machine.execCvtCurrent raw s
  | .cvtTemp raw => Sys2Proof.Machine.execCvtTemp raw s
  | .cvtCycle raw => Sys2Proof.Machine.execCvtCycle raw s
  | .chgSetIcl bus mA => Sys2Proof.Machine.execChgSetIcl bus mA s
  | .chgSetCc bus mA => Sys2Proof.Machine.execChgSetCc bus mA s
  | .chgSetTopoff bus mA => Sys2Proof.Machine.execChgSetTopoff bus mA s
  | .chgSetAutostop bus enable => Sys2Proof.Machine.execChgSetAutostop bus enable s
  | .chgSetEnable bus enable => Sys2Proof.Machine.execChgSetEnable bus enable s
  | .chgProbe bus autostop icl cc topoff => Sys2Proof.Machine.execChgProbe bus autostop icl cc topoff s
  | .cvtIcl mA => Sys2Proof.Machine.execCvtIcl mA s
  | .cvtCc mA => Sys2Proof.Machine.execCvtCc mA s
  | .cvtTopoff mA => Sys2Proof.Machine.execCvtTopoff mA s
  | .ctxOpen bus => Sys2Proof.Machine.execCtxOpen bus s
  | .ctxClose bus => Sys2Proof.Machine.execCtxClose bus s

end Sys2Proof.Machine
end

