-- ==== Sys2Proof/Machine/Step.lean ====
section
/-! DEFINITION. One step of the block: one event from outside (spec/00_scope.md R8, spec/70_reset_and_hazards.md
R302). A turn of a client runs its command; every other event is one of Ops.outside. -/

namespace Sys2Proof.Machine

/-- One step: if the next event runs a command, its meaning; else what the event does (R8, R106). -/
def step (s : State) : Host.Outcome State Fault Refusal :=
  match fetch s with
  | some i => exec i s
  | none => .next (outside s)

/-- `s` with the table row's descriptor delivered by client 0, whose full turn is the next event. -/
def State.withFetchWord (s : State) (nbits w : Nat) : State :=
  deliverFirst (tableDescriptor nbits w) s

end Sys2Proof.Machine
end

