-- ==== Sys2Proof/Machine/Assembler.lean ====
section
/-! DEFINITION. The assembler syntax of commands and responses (spec/30_encoding.md R104), numbers in
decimal, and the pseudo-commands, each its expansion (R105). Nothing of the machine depends on it. -/

namespace Sys2Proof.Machine

/-- An operand as a decimal number. -/
def asmNumber {w : Nat} (x : BitVec w) : String := toString x.toNat

/-- A byte list `[b0, b1, ...]`. -/
def asmBytes (bytes : List Byte) : String := "[" ++ String.intercalate ", " (bytes.map asmNumber) ++ "]"

/-- A one-bit operand. -/
def asmFlag (b : Bool) : String := if b then "1" else "0"

/-- `MNEMONIC operand, operand, ...` -/
def asmLine (mnemonic : String) (operands : List String) : String :=
  mnemonic ++ " " ++ String.intercalate ", " operands

/-- A command in the assembler syntax (R104). -/
def asmText : Instr → String
  | .writeSync bus addr payload => asmLine "WRITE_SYNC" [asmNumber bus, asmNumber addr, asmBytes payload]
  | .readSync bus addr len => asmLine "READ_SYNC" [asmNumber bus, asmNumber addr, asmNumber len]
  | .seqWwr bus noLimit frame1 frame2 readLength delay timeout =>
      asmLine "SEQ_WWR" [asmNumber bus, asmBytes frame1, asmBytes frame2, asmNumber readLength,
        "delay=" ++ asmNumber delay, "timeout=" ++ (if noLimit then "NOLIMIT" else asmNumber timeout)]
  | .readReg bus addr => asmLine "READ_REG" [asmNumber bus, asmNumber addr]
  | .writeReg bus addr value => asmLine "WRITE_REG" [asmNumber bus, asmNumber addr, asmNumber value]
  | .updateReg bus addr mask value =>
      asmLine "UPDATE_REG" [asmNumber bus, asmNumber addr, asmNumber mask, asmNumber value]
  | .fgReadSoc bus => asmLine "FG_READ_SOC" [asmNumber bus]
  | .fgReadOcv bus => asmLine "FG_READ_OCV" [asmNumber bus]
  | .fgReadCurrent bus => asmLine "FG_READ_CURRENT" [asmNumber bus]
  | .fgReadTemp bus => asmLine "FG_READ_TEMP" [asmNumber bus]
  | .fgReadCycle bus => asmLine "FG_READ_CYCLE" [asmNumber bus]
  | .cvtSoc raw => asmLine "CVT_SOC" [asmNumber raw]
  | .cvtOcv raw => asmLine "CVT_OCV" [asmNumber raw]
  | .cvtCurrent raw => asmLine "CVT_CURRENT" [asmNumber raw]
  | .cvtTemp raw => asmLine "CVT_TEMP" [asmNumber raw]
  | .cvtCycle raw => asmLine "CVT_CYCLE" [asmNumber raw]
  | .chgSetIcl bus mA => asmLine "CHG_SET_ICL" [asmNumber bus, asmNumber mA]
  | .chgSetCc bus mA => asmLine "CHG_SET_CC" [asmNumber bus, asmNumber mA]
  | .chgSetTopoff bus mA => asmLine "CHG_SET_TOPOFF" [asmNumber bus, asmNumber mA]
  | .chgSetAutostop bus enable => asmLine "CHG_SET_AUTOSTOP" [asmNumber bus, asmFlag enable]
  | .chgSetEnable bus enable => asmLine "CHG_SET_ENABLE" [asmNumber bus, asmFlag enable]
  | .chgProbe bus autostop icl cc topoff =>
      asmLine "CHG_PROBE" [asmNumber bus, asmFlag autostop, asmNumber icl, asmNumber cc, asmNumber topoff]
  | .cvtIcl mA => asmLine "CVT_ICL" [asmNumber mA]
  | .cvtCc mA => asmLine "CVT_CC" [asmNumber mA]
  | .cvtTopoff mA => asmLine "CVT_TOPOFF" [asmNumber mA]
  | .ctxOpen bus => asmLine "CTX_OPEN" [asmNumber bus]
  | .ctxClose bus => asmLine "CTX_CLOSE" [asmNumber bus]

/-- The name of a status (R101). -/
def statusName : Status → String
  | .ok => "OK"
  | .errBusTransport => "ERR_BUS_TRANSPORT"
  | .errShortTransfer => "ERR_SHORT_TRANSFER"
  | .errConfigUnavailable => "ERR_CONFIG_UNAVAILABLE"
  | .errInvalidSession => "ERR_INVALID_SESSION"
  | .errIllegalCommand => "ERR_ILLEGAL_COMMAND"
  | .faultContract => "FAULT_CONTRACT"

/-- A response, `-> STATUS, RESULT[, [data bytes]]` (R104). -/
def responseText (r : Response) : String :=
  "-> " ++ statusName r.status ++ ", " ++ asmNumber r.result
    ++ (if r.data = [] then "" else ", " ++ asmBytes r.data)

/-- `FG_SRAM_READ bus, s, n`: `SEQ_WWR` with the SRAM frames, the fuel gauge's delay and the default
timeout (R105). -/
def fgSramRead (p : Params) (bus : BusIndex) (s n : Byte) : Instr :=
  .seqWwr bus false (sramPointerFrame s) sramTriggerFrame n p.fgReadDelay p.defaultTimeoutMs

/-- `SET_POINTER bus, a` (R105). -/
def setPointer (bus : BusIndex) (a : Byte) : Instr := .writeSync bus a []

/-- `SET_BITS bus, a, m` (R105). -/
def setBits (bus : BusIndex) (a : Byte) (m : Half) : Instr := .updateReg bus a m m

/-- `CLEAR_BITS bus, a, m` (R105). -/
def clearBits (bus : BusIndex) (a : Byte) (m : Half) : Instr := .updateReg bus a m 0

/-- `CHG_ENABLE bus` (R105). -/
def chgEnable (bus : BusIndex) : Instr := .chgSetEnable bus true

/-- `CHG_DISABLE bus` (R105). -/
def chgDisable (bus : BusIndex) : Instr := .chgSetEnable bus false

end Sys2Proof.Machine
end

