-- ==== Sys2Proof/Safety.lean ====
section
/-! DEFINITION. What the claims speak of: the guard discipline (spec/10_state.md R24, R25, spec/20_memory.md
R65), commands that keep to their context (spec/44_session.md R255), the statuses a command may answer
(spec/60_exceptions.md R273, R293), a command that is ready to run, and what a command leaves alone. -/

namespace Sys2Proof.Machine

/-! ## Clients and spans -/

/-- The canonical form of the client list: numbers strictly rising, no idle client listed. -/
abbrev ClientsCanonical (l : List (Nat × Client)) : Prop :=
  (l.map Prod.fst).Pairwise (· < ·) ∧ ∀ p ∈ l, p.2 ≠ Client.idle

/-- The context whose guard span a client is in: from the guard taken to its release (R25, R29). -/
def spanContext? : Client → Option Nat
  | .pending _ (.bus _ _ call) _ => some call.ctx
  | .pending _ (.rel _ call _) _ => some call.ctx
  | _ => none

/-- The context whose bus a client waits for (R29). -/
def busContext? : Client → Option Nat
  | .pending _ (.bus _ _ call) _ => some call.ctx
  | _ => none

/-- The guard discipline. A guard is held by exactly the client that is in a span of that context (R24, R25);
a request is with the bus exactly while a client waits for it, and is the one its phase names (R29); the
scratch buffers keep their size (R26); the client list is canonical, and only a client below `N_CLIENTS` is not idle
(R21). -/
structure GuardInv (s : State) : Prop where
  canonical : ClientsCanonical s.clients
  exist : ∀ c, s.client c ≠ .idle → c < s.params.nClients
  guard : ∀ i x, s.contexts[i]? = some x →
    ∀ c, x.lock = .held c ↔ spanContext? (s.client c) = some i
  port : ∀ i x, s.contexts[i]? = some x →
    (x.onBus = none ↔ ∀ c, busContext? (s.client c) ≠ some i)
  request : ∀ c cmd k t call l, s.client c = .pending cmd (.bus k t call) l →
    ∃ x txn, s.contexts[call.ctx]? = some x ∧ call.span.transaction t = some txn ∧
      x.onBus = some ⟨x.endpoint, txn, call.span.timeout s.params⟩
  scratch : ∀ x ∈ s.contexts,
    x.rscratch.length = s.params.scratchSize ∧ x.wscratch.length = s.params.scratchSize

/-! ## Commands -/

/-- The guard spans a command makes, by kind (R25, R64). -/
def usesSpan : Instr → Span → Bool
  | .writeSync _ _ _, .write _ => true
  | .writeReg _ _ _, .write _ => true
  | .readSync _ _ _, .read _ _ => true
  | .readReg _ _, .read _ _ => true
  | .seqWwr _ _ _ _ _ _ _, .sequence _ _ _ _ _ => true
  | .fgReadSoc _, .sequence _ _ _ _ _ => true
  | .fgReadOcv _, .sequence _ _ _ _ _ => true
  | .fgReadCurrent _, .sequence _ _ _ _ _ => true
  | .fgReadTemp _, .sequence _ _ _ _ _ => true
  | .fgReadCycle _, .sequence _ _ _ _ _ => true
  | .updateReg _ _ _ _, .read _ _ => true
  | .updateReg _ _ _ _, .write _ => true
  | .chgSetIcl _ _, .read _ _ => true
  | .chgSetIcl _ _, .write _ => true
  | .chgSetCc _ _, .read _ _ => true
  | .chgSetCc _ _, .write _ => true
  | .chgSetTopoff _ _, .read _ _ => true
  | .chgSetTopoff _ _, .write _ => true
  | .chgSetAutostop _ _, .read _ _ => true
  | .chgSetAutostop _ _, .write _ => true
  | .chgSetEnable _ _, .read _ _ => true
  | .chgSetEnable _ _, .write _ => true
  | .chgProbe _ _ _ _ _, .read _ _ => true
  | .chgProbe _ _ _ _ _, .write _ => true
  | .ctxOpen _, .setOpen _ => true
  | .ctxClose _, .setOpen _ => true
  | _, _ => false

/-- The statuses a bus procedure may return (R121, R124, R127); a lifecycle change returns `OK`. -/
def spanMayReturn : Span → Status → Bool
  | _, .ok => true
  | .write _, .errBusTransport => true
  | .read _ _, .errBusTransport => true
  | .sequence _ _ _ _ _, .errBusTransport => true
  | .sequence _ _ _ _ _, .errShortTransfer => true
  | _, _ => false

/-- The call of a phase fits its command: it is on the command's own context, which exists, and makes a span
the command makes (R255). -/
def CallFits (nCtx : Nat) (i : Instr) (call : Call) : Prop :=
  (∃ b, i.bus? = some b ∧ call.ctx = b.toNat ∧ b.toNat < nCtx) ∧ usesSpan i call.span = true

/-- A phase fits its command. -/
def PhaseFits (nCtx : Nat) (i : Instr) : Phase → Prop
  | .decode => True
  | .acq _ call => CallFits nCtx i call
  | .bus _ _ call => CallFits nCtx i call
  | .rel _ call r => CallFits nCtx i call ∧ spanMayReturn call.span r.status = true
  | .compute _ none => i.bus? = none
  | .compute _ (some (span, r)) =>
      (∃ b, i.bus? = some b ∧ b.toNat < nCtx) ∧ usesSpan i span = true ∧ spanMayReturn span r.status = true

/-- Every command past `DECODE` is legal and in a phase that fits it (R106, R255). -/
def CommandInv (s : State) : Prop :=
  ∀ c cmd ph l, s.client c = .pending cmd ph l → ph ≠ .decode →
    ∃ i, decode cmd = .ok i ∧ PhaseFits s.contexts.length i ph

/-- The statuses a legal command may answer (R293). -/
def mayAnswer : Instr → Status → Bool
  | _, .ok => true
  | _, .faultContract => true
  | i, .errBusTransport => i.bus?.isSome && !(usesSpan i (.setOpen true))
  | i, .errShortTransfer => usesSpan i (.sequence [] [] 0 0 .noLimit)
  | _, _ => false

/-- A response the block may give: a status it produces (R101, R273), and with a failure no result and no
data (R100, R102). -/
def LegalResponse (r : Response) : Prop :=
  r.status ≠ .errConfigUnavailable ∧ r.status ≠ .errInvalidSession ∧
    (r.status ≠ .ok → r.result = 0 ∧ r.data = [])

/-- Every response the clients hold is legal. -/
def ResponsesLegal (s : State) : Prop := ∀ c r, s.client c = .answered r → LegalResponse r

/-! ## A command that is ready to run, and what it leaves alone -/

/-- The next event is a turn of `n` steps of client `c`, whose command `cmd` is in `DECODE`, and no fault
stands. -/
structure AtDecode (s : State) (c n : Nat) (rest : List Input) (cmd : List Word) : Prop where
  inputs : s.inputs = .turn c n :: rest
  client : s.client c = .pending cmd .decode Locals.start
  notFaulted : s.faulted = false

/-- As `AtDecode`, and context `b` exists, is open and its guard is free. -/
structure Ready (s : State) (c n : Nat) (rest : List Input) (cmd : List Word) (b : BusIndex) (x : Context) :
    Prop extends AtDecode s c n rest cmd where
  context : s.contexts[b.toNat]? = some x
  isOpen : x.isOpen = true
  free : x.lock = .free

/-- From `s` to `t` only client `c` and the bus context `i` change, with the history, the events still to come
and the count of free values: the parameters, `FAULTED`, every other client and every other context stay. -/
structure OnlyAt (s t : State) (c i : Nat) (rest : List Input) : Prop where
  params : t.params = s.params
  faulted : t.faulted = s.faulted
  inputs : t.inputs = rest
  clients : ∀ c', c' ≠ c → t.client c' = s.client c'
  nCtx : t.contexts.length = s.contexts.length
  contexts : ∀ j, j ≠ i → t.contexts[j]? = s.contexts[j]?

/-- Context `x` after a command that ran to its end: the guard is free again, no request is with the bus, the
answers left are `tape`; whether it is open and its endpoint are as before. -/
structure Settled (x x' : Context) (tape : List BusAnswer) : Prop where
  isOpen : x'.isOpen = x.isOpen
  lock : x'.lock = .free
  onBus : x'.onBus = none
  answers : x'.answers = tape
  endpoint : x'.endpoint = x.endpoint

/-- `c`'s command has ended with response `r`, having caused exactly the bus events `events`, and touched
nothing but its client and its context, which is settled. -/
structure EndedWith (s t : State) (c : Nat) (b : BusIndex) (rest : List Input) (x : Context)
    (tape : List BusAnswer) (r : Response) (events : List BusEvent) : Prop where
  response : t.client c = .answered r
  hist : t.hist = s.hist ++ events
  frame : OnlyAt s t c b.toNat rest
  context : ∃ x', t.contexts[b.toNat]? = some x' ∧ Settled x x' tape

/-! ## The bus traffic of a masked update -/

/-- The bus events of the update of a field whose register reads as `v`: the pointer write, the read, and the
write where the merged value differs (R153, R155). The counts of the writes are not examined (R122). -/
def updateEvents (i c : Nat) (f : FieldUpdate) (v : Half) (count1 count2 : Nat) : List BusEvent :=
  [⟨i, c, .write [f.reg], .okWrite count1⟩, ⟨i, c, .read 2, .okRead 2 (bytes16 v)⟩] ++
    if merge v f.mask f.value = v then []
    else [⟨i, c, .write (f.reg :: bytes16 (merge v f.mask f.value)), .okWrite count2⟩]

/-- The bus's answers to it, when the register reads as `v` and the bus reports no error. -/
def updateAnswers (f : FieldUpdate) (v : Half) (count1 count2 : Nat) : List BusAnswer :=
  [.ok count1 [], .ok 2 (bytes16 v)] ++
    if merge v f.mask f.value = v then [] else [.ok count2 []]

/-- The traffic of several updates in order, the first `j` of them; `v` and the counts are by position. -/
def updatesEvents (i c : Nat) (v : Nat → Half) (count1 count2 : Nat → Nat) (fields : List FieldUpdate) :
    List BusEvent :=
  (fields.zipIdx.map fun fj => updateEvents i c fj.1 (v fj.2) (count1 fj.2) (count2 fj.2)).flatten

/-- The bus's answers to them. -/
def updatesAnswers (v : Nat → Half) (count1 count2 : Nat → Nat) (fields : List FieldUpdate) : List BusAnswer :=
  (fields.zipIdx.map fun fj => updateAnswers fj.1 (v fj.2) (count1 fj.2) (count2 fj.2)).flatten

/-! ## What a group of commands of one shape does -/

/-- `i` reads SRAM sub-address `sub` with one sequence and answers the transform `T` of the raw value, or the
status of the sequence (R170, R271, R272). The transaction moves 3 + 1 + 2 bytes and the check asks for 3 + 2, so
at a count of 5 the raw value is two free bytes (R130). `T` takes the number of the next free value, and gives the
quantity and how many free values it draws (R178). -/
def FgReadMeaning (i : BusIndex → Instr) (sub : Byte) (T : Params → Nat → Half → Int × Nat) : Prop :=
  ∀ s c n rest cmd b x tape, Ready s c (n + 5) rest cmd b x →
    (∀ count b0 b1, x.answers = .ok count [b0, b1] :: tape → 6 ≤ count →
      ∃ t, exec (i b) s = .next t ∧ t.draws = s.draws + (T s.params s.draws (b1 ++ b0)).2 ∧
        EndedWith s t c b rest x tape ⟨.ok, BitVec.ofInt 32 (T s.params s.draws (b1 ++ b0)).1, []⟩
          [⟨b.toNat, c, .sequence [0x8C, sub, 0x00] [0x8D] 2 s.params.fgReadDelay, .okRead count [b0, b1]⟩]) ∧
    (∀ b0 b1, x.answers = .ok 5 [b0, b1] :: tape →
      ∀ raw : Half, raw = Config.freeByte (s.draws + 1) ++ Config.freeByte s.draws →
      ∃ t, exec (i b) s = .next t ∧ t.draws = s.draws + 2 + (T s.params (s.draws + 2) raw).2 ∧
        EndedWith s t c b rest x tape ⟨.ok, BitVec.ofInt 32 (T s.params (s.draws + 2) raw).1, []⟩
          [⟨b.toNat, c, .sequence [0x8C, sub, 0x00] [0x8D] 2 s.params.fgReadDelay, .okRead 5 [b0, b1]⟩]) ∧
    (∀ count b0 b1, x.answers = .ok count [b0, b1] :: tape → count < 5 →
      ∃ t, exec (i b) s = .next t ∧
        EndedWith s t c b rest x tape ⟨.errShortTransfer, 0, []⟩
          [⟨b.toNat, c, .sequence [0x8C, sub, 0x00] [0x8D] 2 s.params.fgReadDelay, .okRead count [b0, b1]⟩]) ∧
    (x.answers = .err :: tape →
      ∃ t, exec (i b) s = .next t ∧
        EndedWith s t c b rest x tape ⟨.errBusTransport, 0, []⟩
          [⟨b.toNat, c, .sequence [0x8C, sub, 0x00] [0x8D] 2 s.params.fgReadDelay, .err⟩])

/-- A read of two bytes that fails: the bus answers `Err`, or a count other than 2 (R124, R126). -/
inductive FailedRead : BusAnswer → BusOutcome → Prop where
  | err : FailedRead .err .err
  | count (got : Nat) (b0 b1 : Byte) : got ≠ 2 → FailedRead (.ok got [b0, b1]) (.okRead got [b0, b1])

/-- The ways an update of the field `f` by client `c` on context `i` fails, each with the bus's answers and the bus
events: its pointer write is answered `Err`; its read fails; its write, which the value read makes due, is answered
`Err` (R124, R126, R153, R158). -/
inductive FailedUpdate (i c : Nat) (f : FieldUpdate) : List BusAnswer → List BusEvent → Prop where
  | pointer : FailedUpdate i c f [.err] [⟨i, c, .write [f.reg], .err⟩]
  | read (count : Nat) (a : BusAnswer) (o : BusOutcome) : FailedRead a o →
      FailedUpdate i c f [.ok count [], a] [⟨i, c, .write [f.reg], .okWrite count⟩, ⟨i, c, .read 2, o⟩]
  | write (count : Nat) (v : Half) : merge v f.mask f.value ≠ v →
      FailedUpdate i c f [.ok count [], .ok 2 (bytes16 v), .err]
        [⟨i, c, .write [f.reg], .okWrite count⟩, ⟨i, c, .read 2, .okRead 2 (bytes16 v)⟩,
         ⟨i, c, .write (f.reg :: bytes16 (merge v f.mask f.value)), .err⟩]

/-- `i` makes one masked update of the field `f`: a read, and a write where the value changes (R153, R155, R217);
a failed read writes nothing, and a failed write is reported. -/
def UpdateMeaning (i : BusIndex → Instr) (f : Params → FieldUpdate) : Prop :=
  ∀ s c n rest cmd b x tape, Ready s c (n + 10) rest cmd b x →
    (∀ v count1 count2, x.answers = updateAnswers (f s.params) v count1 count2 ++ tape →
      ∃ t, exec (i b) s = .next t ∧ t.draws = s.draws ∧
        EndedWith s t c b rest x tape ⟨.ok, 0, []⟩ (updateEvents b.toNat c (f s.params) v count1 count2)) ∧
    (∀ answers events, FailedUpdate b.toNat c (f s.params) answers events → x.answers = answers ++ tape →
      ∃ t, exec (i b) s = .next t ∧ EndedWith s t c b rest x tape ⟨.errBusTransport, 0, []⟩ events)

/-! ## Span numbers (R29, R31) -/

/-- The largest number a guard span of this kind has in the command when `STEP` is `step`: an update reads in its
first span and writes in its second, and `CHG_PROBE` makes one update for each value of `STEP` (R29, R230). -/
def spanBound : Instr → Nat → Span → Nat
  | .chgProbe _ _ _ _ _, step, .read _ _ => 2 * step + 1
  | .chgProbe _ _ _ _ _, step, _ => 2 * step + 2
  | _, _, .write _ => 2
  | _, _, _ => 1

/-- The span number and `STEP` of a phase are within their bounds. -/
def PhaseNumbered (i : Instr) (l : Locals) : Phase → Prop
  | .decode => l.step = 0
  | .acq k call => l.step ≤ 3 ∧ 1 ≤ k ∧ k ≤ spanBound i l.step call.span
  | .bus k t call => l.step ≤ 3 ∧ 1 ≤ k ∧ k ≤ spanBound i l.step call.span ∧ 1 ≤ t ∧ t ≤ 2
  | .rel k call _ => l.step ≤ 3 ∧ 1 ≤ k ∧ k ≤ spanBound i l.step call.span
  | .compute k none => l.step = 0 ∧ k = 0
  | .compute k (some (span, _)) => l.step ≤ 3 ∧ 1 ≤ k ∧ k ≤ spanBound i l.step span

/-- Every pending command's span number and `STEP` are within their bounds. -/
def NumbersInv (s : State) : Prop :=
  ∀ c cmd ph l i, s.client c = .pending cmd ph l → decode cmd = .ok i → PhaseNumbered i l ph

end Sys2Proof.Machine
end

