-- ==== Sys2Proof/Certificates/Slice0/Obligations.lean ====
section
/-! DEFINITION. The statements for the provers. Each docstring names the rule of spec/ it rests on; where a
clause rests on a choice of the model, it says so and names the log entry. -/

open Sys2Proof Sys2Proof.Machine

/-! ## Encoding -/

/-- The six worked encodings of 30_encoding.md R107, in both directions. -/
def Obligations.WorkedEncodingsOfR107 : Prop :=
  (encode (.readReg 0 0x01) = [0x10000100] ∧ decode [0x10000100] = .ok (.readReg 0 0x01)) ∧
  (encode (.writeReg 1 0x13 0x1234) = [0x11101300, 0x00001234] ∧
    decode [0x11101300, 0x00001234] = .ok (.writeReg 1 0x13 0x1234)) ∧
  (encode (.writeSync 1 0x13 [0x34, 0x12]) = [0x01101302, 0x00001234] ∧
    decode [0x01101302, 0x00001234] = .ok (.writeSync 1 0x13 [0x34, 0x12])) ∧
  (encode (.updateReg 1 0x13 0x0008 0x0008) = [0x12101300, 0x00080008] ∧
    decode [0x12101300, 0x00080008] = .ok (.updateReg 1 0x13 0x0008 0x0008)) ∧
  (∀ p : Params, p.fgReadDelay = 0 → p.defaultTimeoutMs = 100 →
    fgSramRead p 0 0x00 2 = .seqWwr 0 false [0x8C, 0x00, 0x00] [0x8D] 2 0 100 ∧
    encode (fgSramRead p 0 0x00 2) =
      [0x03000302, 0x00000001, 0x00000000, 0x00000064, 0x0000008C, 0x0000008D] ∧
    decode [0x03000302, 0x00000001, 0x00000000, 0x00000064, 0x0000008C, 0x0000008D] =
      .ok (fgSramRead p 0 0x00 2)) ∧
  (encode (.chgProbe 1 true 500 1000 200) = [0x35110000, 0x03E801F4, 0x000000C8] ∧
    decode [0x35110000, 0x03E801F4, 0x000000C8] = .ok (.chgProbe 1 true 500 1000 200))

/-- Decoding the descriptor of a well-formed command gives the command back, for every command and every value of
its operands (30_encoding.md R91 to R95, R98). -/
def Obligations.DecodeOfEncode : Prop :=
  ∀ i : Instr, i.wellFormed = true → decode (encode i) = .ok i

/-- A descriptor that decodes is the one descriptor of its command, which is well formed: every bit of a legal
descriptor is fixed or read (30_encoding.md R95, R97). -/
def Obligations.EncodeOfDecode : Prop :=
  ∀ (ws : List Word) (i : Instr), decode ws = .ok i → i.wellFormed = true ∧ encode i = ws

/-- No header is selected by two rows of the opcode map (30_encoding.md R96). -/
def Obligations.HeaderSelectsAtMostOneCommand : Prop :=
  ∀ (h : Word) (o o' : Opcode), h &&& o.mask = o.pattern → h &&& o'.mask = o'.pattern → o = o'

/-- A well-formed command's descriptor has as many words as its header and first extension word say, and at most 132,
4 and 64 for each of the two frames of the longest `SEQ_WWR`, so within R90's 136 (30_encoding.md R90, R92, R99,
entry 14). -/
def Obligations.DescriptorLengthFollowsHeader : Prop :=
  ∀ i : Instr, i.wellFormed = true → ∀ h ext, encode i = h :: ext →
    (encode i).length = descriptorLength h (ext.headD 0) ∧ (encode i).length ≤ 132

/-- The descriptors that 30_encoding.md R97 and R98 make illegal do not decode: an unassigned opcode; a header that
fails `h & mask = match`; a wrong word count; a reserved bit of `X1` of a command with one 16-bit operand, of
`CHG_PROBE`'s `X2`, and of `SEQ_WWR`'s `X1`; a zero length of `SEQ_WWR` (either frame or the read); `READ_SYNC`'s zero
count; and a nonzero padding byte of `WRITE_SYNC`'s payload, and of frame 1 and of frame 2 of `SEQ_WWR`. -/
def Obligations.IllegalDescriptorsDoNotDecode : Prop :=
  ∀ (h : Word) (ext : List Word),
    ((∀ o : Opcode, o.code ≠ opcField h) → ∀ i, decode (h :: ext) ≠ .ok i) ∧
    (∀ o : Opcode, o.code = opcField h → h &&& o.mask ≠ o.pattern → ∀ i, decode (h :: ext) ≠ .ok i) ∧
    ((h :: ext).length ≠ descriptorLength h (ext.headD 0) → ∀ i, decode (h :: ext) ≠ .ok i) ∧
    (∀ o : Opcode, o.code = opcField h → o.format = .hx → o ≠ .updateReg →
      (ext.headD 0).extractLsb' 16 16 ≠ 0 → ∀ i, decode (h :: ext) ≠ .ok i) ∧
    (opcField h = 0x35 → (ext.getD 1 0).extractLsb' 16 16 ≠ 0 → ∀ i, decode (h :: ext) ≠ .ok i) ∧
    (opcField h = 0x03 → (ext.headD 0).extractLsb' 8 24 ≠ 0 → ∀ i, decode (h :: ext) ≠ .ok i) ∧
    (opcField h = 0x03 → (bField h = 0 ∨ aField h = 0 ∨ (ext.headD 0).extractLsb' 0 8 = 0) →
      ∀ i, decode (h :: ext) ≠ .ok i) ∧
    (opcField h = 0x02 → bField h = 0 → ∀ i, decode (h :: ext) ≠ .ok i) ∧
    (opcField h = 0x01 → ((ext.flatMap wordBytes).drop (bField h).toNat).any (· != 0) = true →
      ∀ i, decode (h :: ext) ≠ .ok i) ∧
    (∀ len1 : Nat, opcField h = 0x03 → len1 = (aField h).toNat →
      ((((ext.drop 3).take (wordsFor len1)).flatMap wordBytes).drop len1).any (· != 0) = true →
      ∀ i, decode (h :: ext) ≠ .ok i) ∧
    (∀ len1 len2 : Nat, opcField h = 0x03 → len1 = (aField h).toNat →
      len2 = ((ext.headD 0).extractLsb' 0 8).toNat →
      (((ext.drop (3 + wordsFor len1)).flatMap wordBytes).drop len2).any (· != 0) = true →
      ∀ i, decode (h :: ext) ≠ .ok i)

/-- A descriptor carried as bytes, least significant byte of each word first, is read as its words
(30_encoding.md R90). -/
def Obligations.BytesCarryTheDescriptor : Prop :=
  ∀ ws : List Word, decodeBytes (ws.flatMap wordBytes) = decode ws

/-- The seven STATUS values, and the words of a response: STATUS, zeros and DLEN in `R0`, RESULT in `R1`, then the data
packed with zero padding (30_encoding.md R93, R100, R101, R103). -/
def Obligations.ResponseWordsLayout : Prop :=
  (Status.ok.code = 0x00 ∧ Status.errBusTransport.code = 0x01 ∧ Status.errShortTransfer.code = 0x02 ∧
    Status.errConfigUnavailable.code = 0x03 ∧ Status.errInvalidSession.code = 0x04 ∧
    Status.errIllegalCommand.code = 0x10 ∧ Status.faultContract.code = 0xFF) ∧
  ∀ r : Response, r.data.length < 65536 →
    ∃ r0 ws, r.words = r0 :: r.result :: ws ∧
      r0.extractLsb' 0 8 = r.status.code ∧ r0.extractLsb' 8 8 = 0 ∧
      (r0.extractLsb' 16 16).toNat = r.data.length ∧
      ws.length = wordsFor r.data.length ∧ unpackBytes r.data.length ws = .ok r.data

/-! ## The converter -/

/-- 42_fuel_gauge.md R172: `soc_decode`, its range, and that it is not clamped to 100 %. -/
def Obligations.SocDecodeIsTenthsOfPercent : Prop :=
  ∀ raw : Half,
    socDecode raw =
      ((raw.extractLsb' 8 8).toNat : Int) * 10 + (((raw.extractLsb' 0 8).toNat : Int) * 10) / 256 ∧
    0 ≤ socDecode raw ∧ socDecode raw ≤ 2559 ∧
    (100 < (raw.extractLsb' 8 8).toNat → 1000 < socDecode raw)

/-- 42_fuel_gauge.md R173: `ocv_decode`, its range, and that bits 15 and 14 do not enter; the fallback branch is
off (R178). -/
def Obligations.OcvDecodeIsMillivolts : Prop :=
  ∀ raw : Half,
    ocvDecode false raw =
      ((raw.extractLsb' 11 3).toNat : Int) * 1000 + (((raw.extractLsb' 0 11).toNat : Int) * 1000) / 2048 ∧
    0 ≤ ocvDecode false raw ∧ ocvDecode false raw ≤ 7999 ∧
    ∀ top : BitVec 2, ocvDecode false (top ++ raw.extractLsb' 0 14) = ocvDecode false raw

/-- 42_fuel_gauge.md R174: `current_decode`, signed magnitude, its range, and that bits 14 and 13 do not enter. -/
def Obligations.CurrentDecodeIsSignedMagnitude : Prop :=
  ∀ (free : BitVec 32) (raw : Half),
    (currentDecode false free raw =
      (if raw.getLsbD 15 then -1 else 1) *
        (((raw.extractLsb' 11 2).toNat : Int) * 1000 + (((raw.extractLsb' 0 11).toNat : Int) * 1000) / 2048)) ∧
    -3999 ≤ currentDecode false free raw ∧ currentDecode false free raw ≤ 3999 ∧
    currentDecode false free 0x8000 = 0 ∧
    ∀ raw' : Half, raw'.getLsbD 15 = raw.getLsbD 15 → raw'.extractLsb' 0 13 = raw.extractLsb' 0 13 →
      currentDecode false free raw' = currentDecode false free raw

/-- 42_fuel_gauge.md R175: `temp_decode` truncates toward zero, so it is the whole degrees of the magnitude with the
sign of bit 15, and lies in [-127, 127]; the fraction term is at most 9. -/
def Obligations.TempDecodeTruncatesTowardZero : Prop :=
  ∀ raw : Half,
    tempDecode false raw =
      ((if raw.getLsbD 15 then -1 else 1) *
        (((raw.extractLsb' 8 7).toNat : Int) * 10 + (((raw &&& 0x00F0).toNat : Int) * 10) / 256)).tdiv 10 ∧
    tempDecode false raw = (if raw.getLsbD 15 then -1 else 1) * ((raw.extractLsb' 8 7).toNat : Int) ∧
    -127 ≤ tempDecode false raw ∧ tempDecode false raw ≤ 127 ∧ (raw &&& 0x00F0).toNat * 10 / 256 ≤ 9

/-- 42_fuel_gauge.md R176: `cycle_decode` is the low byte. -/
def Obligations.CycleDecodeIsLowByte : Prop :=
  ∀ raw : Half, cycleDecode false raw = ((raw.extractLsb' 0 8).toNat : Int) ∧
    0 ≤ cycleDecode false raw ∧ cycleDecode false raw ≤ 255

/-- 42_fuel_gauge.md R178: with `QUIRK_SIGNED_FALLBACK = true` and bit 15 set, voltage gives 4000, temperature and
cycle count give 0, and current gives the free value; with bit 15 clear the parameter changes nothing. -/
def Obligations.SignedFallbackBranches : Prop :=
  ∀ (free : BitVec 32) (raw : Half),
    (raw.getLsbD 15 = true →
      ocvDecode true raw = 4000 ∧ tempDecode true raw = 0 ∧ cycleDecode true raw = 0 ∧
        quantityWord (currentDecode true free raw) = free) ∧
    (raw.getLsbD 15 = false → ∀ free',
      ocvDecode true raw = ocvDecode false raw ∧ tempDecode true raw = tempDecode false raw ∧
        cycleDecode true raw = cycleDecode false raw ∧
        currentDecode true free raw = currentDecode false free' raw)

/-- Every decoded quantity lies in [-3999, 7999], so its 32-bit RESULT read as two's complement is the quantity
(30_encoding.md R102, 42_fuel_gauge.md R190), whatever the quirk; the quirk's free current apart. -/
def Obligations.DecodedQuantityFitsResult : Prop :=
  ∀ (quirk : Bool) (free : BitVec 32) (raw : Half) (q : Int),
    (q = socDecode raw ∨ q = ocvDecode quirk raw ∨ q = currentDecode false free raw ∨
      q = tempDecode quirk raw ∨ q = cycleDecode quirk raw) →
    -3999 ≤ q ∧ q ≤ 7999 ∧ (quantityWord q).toInt = q

/-- 43_charger.md R211: `icl_encode`, with its wrap at 3300 mA (70_reset_and_hazards.md R318). -/
def Obligations.IclEncodeWraps : Prop :=
  ∀ mA : Half,
    (mA.toNat < 100 → iclEncode mA = 0) ∧
    (100 ≤ mA.toNat → (iclEncode mA).toNat = ((mA.toNat - 100) / 25) % 128) ∧
    (3275 ≤ mA.toNat → mA.toNat ≤ 3299 → iclEncode mA = 127) ∧
    iclEncode 3300 = 0 ∧ iclEncode 3325 = 1

/-- 43_charger.md R212: `cc_encode`, its clamps and its range, the bounds in µA. -/
def Obligations.CcEncodeClamps : Prop :=
  ∀ mA : Half,
    (mA.toNat * 1000 < 109375 → ccEncode mA = 0x07) ∧
    (3500000 < mA.toNat * 1000 → ccEncode mA = 0xE0) ∧
    (109375 ≤ mA.toNat * 1000 → mA.toNat * 1000 ≤ 3500000 →
      (ccEncode mA).toNat = 7 + (mA.toNat * 1000 - 109375) / 15625) ∧
    (mA.toNat ≤ 124 → ccEncode mA = 0x07) ∧
    0x07 ≤ (ccEncode mA).toNat ∧ (ccEncode mA).toNat ≤ 0xE0

/-- 43_charger.md R213: `topoff_encode`, and that it is non-decreasing. -/
def Obligations.TopoffEncodeIsMonotone : Prop :=
  (∀ mA : Half,
    (mA.toNat < 100 → topoffEncode mA = 0) ∧
    (100 ≤ mA.toNat → mA.toNat < 800 → (topoffEncode mA).toNat = (mA.toNat - 100) / 25) ∧
    (800 ≤ mA.toNat → topoffEncode mA = 0x1C) ∧
    (topoffEncode mA).toNat ≤ 28) ∧
  (∀ mA mA' : Half, mA.toNat ≤ mA'.toNat → (topoffEncode mA).toNat ≤ (topoffEncode mA').toNat)

/-- 41_register_codec.md R154: the merge as a formula, and each of its bits: the value's under the mask and the
register's outside it. -/
def Obligations.MergeTakesMaskedBits : Prop :=
  ∀ cur mask value : Half,
    merge cur mask value = (cur &&& (0xFFFF ^^^ mask)) ||| (value &&& mask) ∧
    ∀ k < 16, (merge cur mask value).getLsbD k = if mask.getLsbD k then value.getLsbD k else cur.getLsbD k

/-- 41_register_codec.md R155: the merged value is the value read exactly when they agree under the mask. -/
def Obligations.MergeUnchangedIffEqualUnderMask : Prop :=
  ∀ cur mask value : Half, merge cur mask value = cur ↔ (value ^^^ cur) &&& mask = 0

/-- 43_charger.md R210: each field's code lies under its mask, so that an update of it changes no other bit of the
register, and writes the code. -/
def Obligations.SetpointCodesFitTheirMasks : Prop :=
  ∀ (cur mA : Half) (b : Bool),
    (merge cur 0x007F (iclEncode mA) &&& 0x007F = iclEncode mA ∧
      merge cur 0x007F (iclEncode mA) &&& 0xFF80 = cur &&& 0xFF80) ∧
    (merge cur 0x00FF (ccEncode mA) &&& 0x00FF = ccEncode mA ∧
      merge cur 0x00FF (ccEncode mA) &&& 0xFF00 = cur &&& 0xFF00) ∧
    (merge cur 0x001F (topoffEncode mA) &&& 0x001F = topoffEncode mA ∧
      merge cur 0x001F (topoffEncode mA) &&& 0xFFE0 = cur &&& 0xFFE0) ∧
    (merge cur 0x0040 (autostopValue b)).getLsbD 6 = b ∧
    (merge cur 0x0008 (chgenValue b)).getLsbD 3 = b

/-! ## Commands without bus activity -/

/-- The five decoders answer `OK` and the transform of their operand, whatever the quirk, and change nothing but
their client (42_fuel_gauge.md R185 to R189). The current decoder draws one free value where the quirk leaves its
result open (R178). -/
def Obligations.DecoderCommandsAnswerTheirTransform : Prop :=
  ∀ s c n rest cmd (raw : Half), AtDecode s c (n + 2) rest cmd →
    exec (.cvtSoc raw) s = .next (({ s with inputs := rest } : State).setClient c
      (.answered ⟨.ok, BitVec.ofInt 32 (socDecode raw), []⟩)) ∧
    exec (.cvtOcv raw) s = .next (({ s with inputs := rest } : State).setClient c
      (.answered ⟨.ok, BitVec.ofInt 32 (ocvDecode s.params.quirkSignedFallback raw), []⟩)) ∧
    exec (.cvtTemp raw) s = .next (({ s with inputs := rest } : State).setClient c
      (.answered ⟨.ok, BitVec.ofInt 32 (tempDecode s.params.quirkSignedFallback raw), []⟩)) ∧
    exec (.cvtCycle raw) s = .next (({ s with inputs := rest } : State).setClient c
      (.answered ⟨.ok, BitVec.ofInt 32 (cycleDecode s.params.quirkSignedFallback raw), []⟩)) ∧
    exec (.cvtCurrent raw) s = .next (({ s with
        inputs := rest
        draws := s.draws + if s.params.quirkSignedFallback && raw.getLsbD 15 then 1 else 0 } : State).setClient c
      (.answered ⟨.ok, BitVec.ofInt 32
        (currentDecode s.params.quirkSignedFallback (Config.freeCurrent s.draws) raw), []⟩))

/-- The three encoders answer `OK` and the code of their operand, zero-extended, and change nothing but their client
(43_charger.md R223 to R225). -/
def Obligations.EncoderCommandsAnswerTheirCode : Prop :=
  ∀ s c n rest cmd (mA : Half), AtDecode s c (n + 2) rest cmd →
    exec (.cvtIcl mA) s = .next (({ s with inputs := rest } : State).setClient c
      (.answered ⟨.ok, (iclEncode mA).setWidth 32, []⟩)) ∧
    exec (.cvtCc mA) s = .next (({ s with inputs := rest } : State).setClient c
      (.answered ⟨.ok, (ccEncode mA).setWidth 32, []⟩)) ∧
    exec (.cvtTopoff mA) s = .next (({ s with inputs := rest } : State).setClient c
      (.answered ⟨.ok, (topoffEncode mA).setWidth 32, []⟩))

/-- `CTX_OPEN` and `CTX_CLOSE` set and clear `OPEN` of their context, whatever it was, answer `OK`, and change
nothing else: no bus event, and the guard is free again (44_session.md R252, R253). -/
def Obligations.OpenAndCloseChangeOnlyOpen : Prop :=
  ∀ s c n rest cmd (b : BusIndex) x, AtDecode s c (n + 4) rest cmd →
    s.contexts[b.toNat]? = some x → x.lock = .free →
    exec (.ctxOpen b) s = .next
      ((({ s with inputs := rest } : State).setContext b.toNat { x with isOpen := true }).setClient c
        (.answered ⟨.ok, 0, []⟩)) ∧
    exec (.ctxClose b) s = .next
      ((({ s with inputs := rest } : State).setContext b.toNat { x with isOpen := false }).setClient c
        (.answered ⟨.ok, 0, []⟩))

/-! ## Bus commands

How many steps a turn must have for a command to end is the model's choice (entry 10): each statement holds for every
longer turn. -/

/-- `WRITE_SYNC` sends the address and the payload as one frame. It answers `OK` whatever the count of the bus's
answer, and `ERR_BUS_TRANSPORT` when the bus answers `Err` (40_bus_primitive.md R121, R122). -/
def Obligations.WriteSyncSendsOneFrame : Prop :=
  ∀ s c n rest cmd b x tape (addr : Byte) (payload : List Byte), Ready s c (n + 5) rest cmd b x →
    (∀ count data, x.answers = .ok count data :: tape →
      ∃ t, exec (.writeSync b addr payload) s = .next t ∧ t.draws = s.draws ∧
        EndedWith s t c b rest x tape ⟨.ok, 0, []⟩
          [⟨b.toNat, c, .write ([addr] ++ payload), .okWrite count⟩]) ∧
    (x.answers = .err :: tape →
      ∃ t, exec (.writeSync b addr payload) s = .next t ∧ t.draws = s.draws ∧
        EndedWith s t c b rest x tape ⟨.errBusTransport, 0, []⟩
          [⟨b.toNat, c, .write ([addr] ++ payload), .err⟩])

/-- `WRITE_REG` sends the address and the value's bytes, low byte first, as one 3-byte frame
(41_register_codec.md R152, 20_memory.md R55). -/
def Obligations.WriteRegSendsLittleEndianValue : Prop :=
  ∀ s c n rest cmd b x tape (addr : Byte) (value : Half), Ready s c (n + 5) rest cmd b x →
    (∀ count data, x.answers = .ok count data :: tape →
      ∃ t, exec (.writeReg b addr value) s = .next t ∧ t.draws = s.draws ∧
        EndedWith s t c b rest x tape ⟨.ok, 0, []⟩
          [⟨b.toNat, c, .write [addr, value.extractLsb' 0 8, value.extractLsb' 8 8], .okWrite count⟩]) ∧
    (x.answers = .err :: tape →
      ∃ t, exec (.writeReg b addr value) s = .next t ∧ t.draws = s.draws ∧
        EndedWith s t c b rest x tape ⟨.errBusTransport, 0, []⟩
          [⟨b.toNat, c, .write [addr, value.extractLsb' 0 8, value.extractLsb' 8 8], .err⟩])

/-- `READ_SYNC` writes the address pointer, reads, and answers the bytes read (40_bus_primitive.md R124, R125). -/
def Obligations.ReadSyncAnswersTheBytesRead : Prop :=
  ∀ s c n rest cmd b x tape (addr len : Byte) count junk (data : List Byte),
    Ready s c (n + 6) rest cmd b x → data.length = len.toNat →
    x.answers = .ok count junk :: .ok len.toNat data :: tape →
    ∃ t, exec (.readSync b addr len) s = .next t ∧ t.draws = s.draws ∧
      EndedWith s t c b rest x tape ⟨.ok, 0, data⟩
        [⟨b.toNat, c, .write [addr], .okWrite count⟩, ⟨b.toNat, c, .read len.toNat, .okRead len.toNat data⟩]

/-- `READ_REG` writes the address pointer, reads 2 bytes, and answers them as a little-endian value
(41_register_codec.md R150, R151). -/
def Obligations.ReadRegAnswersLittleEndianValue : Prop :=
  ∀ s c n rest cmd b x tape (addr b0 b1 : Byte) count junk,
    Ready s c (n + 6) rest cmd b x →
    x.answers = .ok count junk :: .ok 2 [b0, b1] :: tape →
    ∃ t, exec (.readReg b addr) s = .next t ∧ t.draws = s.draws ∧
      EndedWith s t c b rest x tape ⟨.ok, (b1 ++ b0).setWidth 32, []⟩
        [⟨b.toNat, c, .write [addr], .okWrite count⟩, ⟨b.toNat, c, .read 2, .okRead 2 [b0, b1]⟩]

/-- `READ_SYNC` and `READ_REG` fail with `ERR_BUS_TRANSPORT` and give no data when the pointer write fails, and then
issue no read; when the read fails; and when its count differs from the length (40_bus_primitive.md R124, R126). -/
def Obligations.ReadFailuresAreTransportErrors : Prop :=
  ∀ s c n rest cmd b x tape (addr len : Byte) count junk,
    Ready s c (n + 6) rest cmd b x →
    ∀ (i : Instr) (m : Nat), (i = .readSync b addr len ∧ m = len.toNat ∨ i = .readReg b addr ∧ m = 2) →
    (x.answers = .err :: tape →
      ∃ t, exec i s = .next t ∧
        EndedWith s t c b rest x tape ⟨.errBusTransport, 0, []⟩ [⟨b.toNat, c, .write [addr], .err⟩]) ∧
    (x.answers = .ok count junk :: .err :: tape →
      ∃ t, exec i s = .next t ∧
        EndedWith s t c b rest x tape ⟨.errBusTransport, 0, []⟩
          [⟨b.toNat, c, .write [addr], .okWrite count⟩, ⟨b.toNat, c, .read m, .err⟩]) ∧
    (∀ got (data : List Byte), got ≠ m → data.length = m →
      x.answers = .ok count junk :: .ok got data :: tape →
      ∃ t, exec i s = .next t ∧
        EndedWith s t c b rest x tape ⟨.errBusTransport, 0, []⟩
          [⟨b.toNat, c, .write [addr], .okWrite count⟩, ⟨b.toNat, c, .read m, .okRead got data⟩])

/-- `SEQ_WWR` makes one transaction of three transfers. It answers the bytes read when the bus moved all of them,
`ERR_SHORT_TRANSFER` when the count is below `len1 + readLength`, and `ERR_BUS_TRANSPORT` on `Err`
(40_bus_primitive.md R127 to R129). -/
def Obligations.SeqWwrStatusFollowsTheCount : Prop :=
  ∀ s c n rest cmd b x tape noLimit (f1 f2 : List Byte) (len : Byte) delay timeout,
    Ready s c (n + 5) rest cmd b x →
    (∀ count data, data.length = len.toNat → x.answers = .ok count data :: tape →
      f1.length + f2.length + len.toNat ≤ count →
      ∃ t, exec (.seqWwr b noLimit f1 f2 len delay timeout) s = .next t ∧ t.draws = s.draws ∧
        EndedWith s t c b rest x tape ⟨.ok, 0, data⟩
          [⟨b.toNat, c, .sequence f1 f2 len.toNat delay, .okRead count data⟩]) ∧
    (∀ count data, data.length = len.toNat → x.answers = .ok count data :: tape →
      count < f1.length + len.toNat →
      ∃ t, exec (.seqWwr b noLimit f1 f2 len delay timeout) s = .next t ∧
        EndedWith s t c b rest x tape ⟨.errShortTransfer, 0, []⟩
          [⟨b.toNat, c, .sequence f1 f2 len.toNat delay, .okRead count data⟩]) ∧
    (x.answers = .err :: tape →
      ∃ t, exec (.seqWwr b noLimit f1 f2 len delay timeout) s = .next t ∧
        EndedWith s t c b rest x tape ⟨.errBusTransport, 0, []⟩
          [⟨b.toNat, c, .sequence f1 f2 len.toNat delay, .err⟩])

/-- An accepted sequence that moved fewer bytes than `len1 + len2 + readLength` answers `OK` with `readLength` data
bytes, each the next free value, whatever the bus put in its answer (40_bus_primitive.md R130,
70_reset_and_hazards.md R311). -/
def Obligations.AcceptedShortSequenceDataIsFree : Prop :=
  ∀ s c n rest cmd b x tape noLimit (f1 f2 : List Byte) (len : Byte) delay timeout count (data : List Byte),
    Ready s c (n + 5) rest cmd b x → data.length = len.toNat → x.answers = .ok count data :: tape →
    f1.length + len.toNat ≤ count → count < f1.length + f2.length + len.toNat →
    ∃ t, exec (.seqWwr b noLimit f1 f2 len delay timeout) s = .next t ∧ t.draws = s.draws + len.toNat ∧
      EndedWith s t c b rest x tape
        ⟨.ok, 0, (List.range len.toNat).map fun k => Config.freeByte (s.draws + k)⟩
        [⟨b.toNat, c, .sequence f1 f2 len.toNat delay, .okRead count data⟩]

/-- The five fuel-gauge reads, each with its sub-address and its transform (42_fuel_gauge.md R170, R178 to R184).
Where the fallback leaves the current open, the result is the next free value. The free values are the model's form
of the bytes and the result that the spec leaves open (entries 2 and 6). At a count of 5 both bytes of the raw value
are free: 40_bus_primitive.md R130 makes each byte a draw and R180 only the second, and that both are is the model's
choice (entry 13). -/
def Obligations.FuelGaugeReadsDecodeTheirLocation : Prop :=
  FgReadMeaning .fgReadSoc 0x00 (fun _ _ raw => (socDecode raw, 0)) ∧
  FgReadMeaning .fgReadOcv 0x01 (fun p _ raw => (ocvDecode p.quirkSignedFallback raw, 0)) ∧
  FgReadMeaning .fgReadCurrent 0x05 (fun p d raw =>
    (currentDecode p.quirkSignedFallback (Config.freeCurrent d) raw,
      if p.quirkSignedFallback && raw.getLsbD 15 then 1 else 0)) ∧
  FgReadMeaning .fgReadTemp 0x07 (fun p _ raw => (tempDecode p.quirkSignedFallback raw, 0)) ∧
  FgReadMeaning .fgReadCycle 0x87 (fun p _ raw => (cycleDecode p.quirkSignedFallback raw, 0))

/-! ## Updates -/

/-- `UPDATE_REG` reads the register, merges under the mask, and writes only where the merged value differs; a failed
read writes nothing (41_register_codec.md R153, R155, R158). -/
def Obligations.UpdateRegReadsMergesAndWrites : Prop :=
  ∀ (addr : Byte) (mask value : Half),
    UpdateMeaning (.updateReg · addr mask value) (fun _ => ⟨addr, mask, value⟩)

/-- An update whose write is due waits for the guard a second time, with the value read and the merged value in its
locals, and between its two spans the guard is free and no request is with the bus (41_register_codec.md R156,
20_memory.md R73, 10_state.md R30). The turn is the model's form (entry 1), that the first span takes six steps is the
model's choice (entry 10), and so is `STEP = 0` in a command other than `CHG_PROBE`, which 10_state.md R31 leaves
unspecified (entry 18). -/
def Obligations.UpdateFreesTheGuardBetweenItsSpans : Prop :=
  ∀ s c rest cmd b x tape (addr : Byte) (mask value v : Half) count,
    Ready s c 6 rest cmd b x → x.answers = [.ok count [], .ok 2 (bytes16 v)] ++ tape →
    merge v mask value ≠ v →
    ∃ t x', exec (.updateReg b addr mask value) s = .next t ∧
      t.client c = .pending cmd (.acq 2 ⟨b.toNat, .write (addr :: bytes16 (merge v mask value))⟩)
        ⟨some v, some (merge v mask value), 0⟩ ∧
      t.contexts[b.toNat]? = some x' ∧ x'.lock = .free ∧ x'.onBus = none ∧ x'.answers = tape ∧
      t.hist = s.hist ++
        [⟨b.toNat, c, .write [addr], .okWrite count⟩, ⟨b.toNat, c, .read 2, .okRead 2 (bytes16 v)⟩]

/-- Two clients that update the same register, each reading before the other writes: both are answered `OK`, and the
second write is computed from the value read before the first (70_reset_and_hazards.md R310, 41_register_codec.md
R156). The turns are the model's form of the interleaving (entry 1), and their numbers of steps its choice
(entry 10). -/
def Obligations.ConcurrentUpdatesLoseTheFirstWrite : Prop :=
  ∀ s c c' (b : BusIndex) x rest tape (addr : Byte) (mask value mask' value' v : Half),
    c ≠ c' → s.faulted = false →
    s.inputs = [.turn c 6, .turn c' 6, .turn c 4, .turn c' 4] ++ rest →
    s.client c = .pending (encode (.updateReg b addr mask value)) .decode Locals.start →
    s.client c' = .pending (encode (.updateReg b addr mask' value')) .decode Locals.start →
    s.contexts[b.toNat]? = some x → x.isOpen = true → x.lock = .free →
    x.answers = [.ok 1 [], .ok 2 (bytes16 v), .ok 1 [], .ok 2 (bytes16 v), .ok 3 [], .ok 3 []] ++ tape →
    merge v mask value ≠ v → merge v mask' value' ≠ v →
    ∃ t1 t2 t3 t4, step s = .next t1 ∧ step t1 = .next t2 ∧ step t2 = .next t3 ∧ step t3 = .next t4 ∧
      t4.client c = .answered ⟨.ok, 0, []⟩ ∧ t4.client c' = .answered ⟨.ok, 0, []⟩ ∧
      t4.hist = s.hist ++
        [⟨b.toNat, c, .write [addr], .okWrite 1⟩, ⟨b.toNat, c, .read 2, .okRead 2 (bytes16 v)⟩,
         ⟨b.toNat, c', .write [addr], .okWrite 1⟩, ⟨b.toNat, c', .read 2, .okRead 2 (bytes16 v)⟩,
         ⟨b.toNat, c, .write (addr :: bytes16 (merge v mask value)), .okWrite 3⟩,
         ⟨b.toNat, c', .write (addr :: bytes16 (merge v mask' value')), .okWrite 3⟩]

/-- Each setter is one masked update of its field's register, under its field's mask, with its operand's code
(43_charger.md R210, R217 to R222). -/
def Obligations.SettersUpdateTheirField : Prop :=
  (∀ mA : Half, UpdateMeaning (.chgSetIcl · mA) (fun p => ⟨p.regIcl, 0x007F, iclEncode mA⟩)) ∧
  (∀ mA : Half, UpdateMeaning (.chgSetCc · mA) (fun p => ⟨p.regCc, 0x00FF, ccEncode mA⟩)) ∧
  (∀ mA : Half, UpdateMeaning (.chgSetTopoff · mA) (fun p => ⟨p.regTopoff, 0x001F, topoffEncode mA⟩)) ∧
  (∀ e : Bool, UpdateMeaning (.chgSetAutostop · e)
    (fun p => ⟨p.regAutostop, 0x0040, if e then 0x0040 else 0x0000⟩)) ∧
  (∀ e : Bool, UpdateMeaning (.chgSetEnable · e)
    (fun p => ⟨p.regChgen, 0x0008, if e then 0x0008 else 0x0000⟩))

/-- `CHG_PROBE` updates autostop, input current limit, charging current and topoff, in that order, whatever registers
hold them, and answers `OK` when every update succeeds; it makes no other update (43_charger.md R230, R232). -/
def Obligations.ProbeAppliesFourFieldsInOrder : Prop :=
  ∀ s c n rest cmd b x tape (e : Bool) (icl cc top : Half) v count1 count2,
    Ready s c (n + 37) rest cmd b x →
    ∀ fields : List FieldUpdate,
      fields = [⟨s.params.regAutostop, 0x0040, if e then 0x0040 else 0x0000⟩,
        ⟨s.params.regIcl, 0x007F, iclEncode icl⟩, ⟨s.params.regCc, 0x00FF, ccEncode cc⟩,
        ⟨s.params.regTopoff, 0x001F, topoffEncode top⟩] →
    x.answers = updatesAnswers v count1 count2 fields ++ tape →
    ∃ t, exec (.chgProbe b e icl cc top) s = .next t ∧ t.draws = s.draws ∧
      EndedWith s t c b rest x tape ⟨.ok, 0, []⟩ (updatesEvents b.toNat c v count1 count2 fields)

/-- `CHG_PROBE` stops at the first update that fails, by its pointer write, by its read (`Err`, or a count other
than 2), or by its write: it answers that failure, and no later field is touched (43_charger.md R233,
60_exceptions.md R278). -/
def Obligations.ProbeStopsAtFirstFailure : Prop :=
  ∀ s c n rest cmd b x tape (e : Bool) (icl cc top : Half) v count1 count2 (j : Nat) f answers events,
    Ready s c (n + 37) rest cmd b x →
    ∀ fields : List FieldUpdate,
      fields = [⟨s.params.regAutostop, 0x0040, if e then 0x0040 else 0x0000⟩,
        ⟨s.params.regIcl, 0x007F, iclEncode icl⟩, ⟨s.params.regCc, 0x00FF, ccEncode cc⟩,
        ⟨s.params.regTopoff, 0x001F, topoffEncode top⟩] →
    fields[j]? = some f →
    FailedUpdate b.toNat c f answers events →
    x.answers = updatesAnswers v count1 count2 (fields.take j) ++ answers ++ tape →
    ∃ t, exec (.chgProbe b e icl cc top) s = .next t ∧
      EndedWith s t c b rest x tape ⟨.errBusTransport, 0, []⟩
        (updatesEvents b.toNat c v count1 count2 (fields.take j) ++ events)

/-! ## The guard, the bus and the scratch buffers -/

/-- Two steps into a command its first transaction is with the bus, for the context's endpoint, under the guard. A
write, a pointer write and a fuel-gauge read carry the default timeout, and `SEQ_WWR` its own: `TIMEOUT` milliseconds,
or no limit where `F = 1` (20_memory.md R54, 40_bus_primitive.md R123, R128, 42_fuel_gauge.md R170). That this takes two
steps, the guard, the checks and the first hand-over being one, is the model's choice (entry 10). -/
def Obligations.HandOverCarriesEndpointAndTimeout : Prop :=
  ∀ s c rest cmd b x, Ready s c 2 rest cmd b x →
    ∀ (i : Instr) (span : Span) (request : Request),
      ((∃ (addr : Byte) (payload : List Byte), i = .writeSync b addr payload ∧ span = .write (addr :: payload) ∧
          request = ⟨x.endpoint, .write (addr :: payload), .milliseconds s.params.defaultTimeoutMs⟩) ∨
        (∃ (addr : Byte) (value : Half), i = .writeReg b addr value ∧ span = .write (addr :: bytes16 value) ∧
          request = ⟨x.endpoint, .write (addr :: bytes16 value), .milliseconds s.params.defaultTimeoutMs⟩) ∨
        (∃ (addr len : Byte), i = .readSync b addr len ∧ span = .read addr len.toNat ∧
          request = ⟨x.endpoint, .write [addr], .milliseconds s.params.defaultTimeoutMs⟩) ∨
        (∃ (addr : Byte), i = .readReg b addr ∧ span = .read addr 2 ∧
          request = ⟨x.endpoint, .write [addr], .milliseconds s.params.defaultTimeoutMs⟩) ∨
        (∃ (sub : Byte), (i, sub) ∈ [(.fgReadSoc b, 0x00), (.fgReadOcv b, 0x01), (.fgReadCurrent b, 0x05),
            (.fgReadTemp b, 0x07), (.fgReadCycle b, 0x87)] ∧
          span = .sequence [0x8C, sub, 0x00] [0x8D] 2 s.params.fgReadDelay (.milliseconds s.params.defaultTimeoutMs) ∧
          request = ⟨x.endpoint, .sequence [0x8C, sub, 0x00] [0x8D] 2 s.params.fgReadDelay,
            .milliseconds s.params.defaultTimeoutMs⟩) ∨
        (∃ (f1 f2 : List Byte) (len : Byte) (delay timeout : Word),
          i = .seqWwr b false f1 f2 len delay timeout ∧
          span = .sequence f1 f2 len.toNat delay (.milliseconds timeout) ∧
          request = ⟨x.endpoint, .sequence f1 f2 len.toNat delay, .milliseconds timeout⟩) ∨
        (∃ (f1 f2 : List Byte) (len : Byte) (delay timeout : Word),
          i = .seqWwr b true f1 f2 len delay timeout ∧
          span = .sequence f1 f2 len.toNat delay .noLimit ∧
          request = ⟨x.endpoint, .sequence f1 f2 len.toNat delay, .noLimit⟩)) →
      ∃ t x', exec i s = .next t ∧ t.contexts[b.toNat]? = some x' ∧
        x'.lock = .held c ∧ x'.onBus = some request ∧ t.hist = s.hist ∧
        t.client c = .pending cmd (.bus 1 1 ⟨b.toNat, span⟩) Locals.start

/-- What a write and a read leave in the scratch buffers of their context: a frame of at most `SCRATCH_SIZE` bytes at
the start of `WSCRATCH`, a read of at most `SCRATCH_SIZE` bytes at the start of `RSCRATCH`, the rest of the buffer as
it was; a longer one leaves the buffer as it was (10_state.md R26). That a frame starts at the buffer's first byte is
the model's choice (entry 7). -/
def Obligations.ScratchBuffersHoldSmallTransfers : Prop :=
  ∀ s c n rest cmd b x tape, Ready s c (n + 6) rest cmd b x →
    (∀ (addr : Byte) (payload : List Byte) a, x.answers = a :: tape →
      ∃ t x', exec (.writeSync b addr payload) s = .next t ∧ t.contexts[b.toNat]? = some x' ∧
        x'.rscratch = x.rscratch ∧
        x'.wscratch = if payload.length + 1 ≤ s.params.scratchSize
          then addr :: payload ++ x.wscratch.drop (payload.length + 1) else x.wscratch) ∧
    (∀ (addr len : Byte) count junk (data : List Byte), data.length = len.toNat →
      x.answers = .ok count junk :: .ok len.toNat data :: tape →
      ∃ t x', exec (.readSync b addr len) s = .next t ∧ t.contexts[b.toNat]? = some x' ∧
        (x'.rscratch = if len.toNat ≤ s.params.scratchSize
          then data ++ x.rscratch.drop len.toNat else x.rscratch) ∧
        x'.wscratch = if 1 ≤ s.params.scratchSize then addr :: x.wscratch.drop 1 else x.wscratch)

/-- A command that waits for a guard another client holds makes no step, and neither does one whose transaction the
bus has not answered, however long its turn (10_state.md R24, 70_reset_and_hazards.md R312). -/
def Obligations.WaitingCommandsMakeNoStep : Prop :=
  ∀ (i : Instr) s c n rest cmd l x call, s.inputs = .turn c n :: rest → s.contexts[call.ctx]? = some x →
    (∀ k h, s.faulted = false → s.client c = .pending cmd (.acq k call) l → x.lock = .held h →
      exec i s = .next { s with inputs := rest }) ∧
    (∀ k t, s.client c = .pending cmd (.bus k t call) l → x.answers = [] →
      exec i s = .next { s with inputs := rest })

/-- While a context's guard is held, a turn of any other client leaves that context as it is and adds no event on it
to the history (20_memory.md R65, R67, 40_bus_primitive.md R137). -/
def Obligations.GuardKeepsOtherClientsOut : Prop :=
  ∀ s t c n rest h i x, GuardInv s → s.inputs = .turn c n :: rest → c ≠ h →
    s.contexts[i]? = some x → x.lock = .held h → step s = .next t →
    t.contexts[i]? = some x ∧ ∃ events, t.hist = s.hist ++ events ∧ ∀ e ∈ events, e.ctx ≠ i

/-! ## Faults and errors -/

/-- While `FAULTED = 1`, a command in `DECODE` and a command that reaches an `Acquire` are answered `FAULT_CONTRACT`,
with no other effect. A command in a guard span finishes it: a step that waits for the bus is as without the fault, and
the span's end frees the guard; the command is then answered as without the fault where that span was its last, and
with `FAULT_CONTRACT` at its next `Acquire` where it was not (60_exceptions.md R276, 30_encoding.md R106). That a command
which waits at `Acquire` is answered while another client still holds the guard is the model's choice (entry 12), as are
a read's second transaction, handed over under the fault (entry 9), and the two steps of a span's end (entry 10). -/
def Obligations.FaultedBlockAnswersFaultContract : Prop :=
  ∀ (i : Instr) s c n rest cmd l, s.faulted = true →
    (∀ ph, s.inputs = .turn c (n + 1) :: rest → s.client c = .pending cmd ph l →
      (ph = .decode ∨ ∃ k call, ph = .acq k call) →
      exec i s = .next (({ s with inputs := rest } : State).setClient c (.answered ⟨.faultContract, 0, []⟩))) ∧
    (∀ k t call u, s.inputs = .turn c 1 :: rest → s.client c = .pending cmd (.bus k t call) l →
      exec i { s with faulted := false } = .next u → exec i s = .next { u with faulted := true }) ∧
    (∀ k call r x u, s.inputs = .turn c (n + 3) :: rest → s.client c = .pending cmd (.rel k call r) l →
      s.contexts[call.ctx]? = some x → x.lock = .held c →
      exec i { s with faulted := false, inputs := .turn c 2 :: rest } = .next u →
      u.contexts[call.ctx]? = some { x with lock := .free } ∧ u.hist = s.hist ∧
      ((∃ response, u.client c = .answered response) ∧ exec i s = .next { u with faulted := true } ∨
        (∃ k' call' l', u.client c = .pending cmd (.acq k' call') l') ∧
          exec i s = .next
            (({ u with faulted := true } : State).setClient c (.answered ⟨.faultContract, 0, []⟩))))

/-- A command that uses `BUS` with `BUS >= N_CTX` raises the contract fault at decode: `FAULTED` is set, the command
is answered `FAULT_CONTRACT`, and every other piece of state is left (60_exceptions.md R275, R276, 44_session.md
R251). -/
def Obligations.BadIndexRaisesContractFault : Prop :=
  ∀ (i : Instr) s c n rest cmd b, i.bus? = some b → AtDecode s c (n + 1) rest cmd →
    s.contexts.length ≤ b.toNat →
    exec i s = .next { ({ s with inputs := rest } : State).setClient c (.answered ⟨.faultContract, 0, []⟩) with
      faulted := true }

/-- A bus command on a closed context raises the contract fault: it takes the guard, finds the context closed, frees
the guard, and nothing is sent, from its first span and from any later one, before which another client's `CTX_CLOSE`
may have closed the context (60_exceptions.md R275, R276, 44_session.md R253, R254). `CTX_OPEN` and `CTX_CLOSE` are the
commands that use a context without this check. -/
def Obligations.ClosedContextRaisesContractFault : Prop :=
  (∀ (i : Instr) s c n rest cmd b x, i.bus? = some b → i ≠ .ctxOpen b → i ≠ .ctxClose b →
    AtDecode s c (n + 2) rest cmd → s.contexts[b.toNat]? = some x → x.lock = .free → x.isOpen = false →
    exec i s = .next { ({ s with inputs := rest } : State).setClient c (.answered ⟨.faultContract, 0, []⟩) with
      faulted := true }) ∧
  (∀ (i : Instr) s c n rest cmd k call l x, s.inputs = .turn c (n + 1) :: rest → s.faulted = false →
    s.client c = .pending cmd (.acq k call) l → (∀ b, call.span ≠ .setOpen b) →
    s.contexts[call.ctx]? = some x → x.lock = .free → x.isOpen = false →
    exec i s = .next { ({ s with inputs := rest } : State).setClient c (.answered ⟨.faultContract, 0, []⟩) with
      faulted := true })

/-- The fault stands until reset, and while it stands no step takes a guard or changes an `OPEN` bit
(10_state.md R22, 60_exceptions.md R276). -/
def Obligations.FaultIsStickyAndStopsNewSpans : Prop :=
  ∀ s t : State, s.faulted = true → (∀ rest, s.inputs ≠ .reset :: rest) → step s = .next t →
    t.faulted = true ∧
    ∀ (i : Nat) (x' : Context), t.contexts[i]? = some x' →
      ∃ x : Context, s.contexts[i]? = some x ∧ x'.isOpen = x.isOpen ∧
      ∀ c, x'.lock = .held c → x.lock = .held c

/-- An illegal descriptor is answered `ERR_ILLEGAL_COMMAND`, or `FAULT_CONTRACT` while the fault stands, and nothing
else changes (30_encoding.md R97, R106, 60_exceptions.md R274). That a delivery of no words at all counts as illegal is the
model's choice (entry 21). -/
def Obligations.IllegalDescriptorChangesOnlyItsClient : Prop :=
  ∀ s c n rest cmd l e, s.inputs = .turn c (n + 1) :: rest → s.client c = .pending cmd .decode l →
    decode cmd = .error e →
    step s = .next (({ s with inputs := rest } : State).setClient c
      (.answered ⟨if s.faulted then .faultContract else .errIllegalCommand, 0, []⟩))

/-- The statuses a command may answer: a turn of a legal command ends, if it ends, with one of them, and a command
without a context answers `FAULT_CONTRACT` only when the fault already stood (60_exceptions.md R293). -/
def Obligations.CommandsAnswerOnlyTheirStatuses : Prop :=
  ∀ s t c n rest cmd ph l i r, CommandInv s → s.inputs = .turn c n :: rest →
    s.client c = .pending cmd ph l → decode cmd = .ok i → exec i s = .next t → t.client c = .answered r →
    mayAnswer i r.status = true ∧ (i.bus? = none → r.status = .faultContract → s.faulted = true)

/-! ## The step -/

/-- A step whose event is a turn of a client with a legal command is the meaning of that command; the step adds
nothing around it (00_scope.md R8, 30_encoding.md R106). -/
def Obligations.StepRunsDecodedCommand : Prop :=
  ∀ s c n rest cmd ph l i, s.inputs = .turn c n :: rest → s.client c = .pending cmd ph l →
    decode cmd = .ok i → step s = exec i s

/-- A client in `Idle` or `Answered` that submits becomes `Pending` in `DECODE` with fresh locals; a client that is
`Pending` submits nothing, and a number from `N_CLIENTS` on is no client (10_state.md R21, R28, R31, 00_scope.md R10). The
event `submit` is the model's form of it (entry 1), and that one by no client has no effect its choice (entry 3). -/
def Obligations.SubmitStartsACommandInDecode : Prop :=
  ∀ s c descriptor rest, s.inputs = .submit c descriptor :: rest →
    (c < s.params.nClients → (∀ cmd ph l, s.client c ≠ .pending cmd ph l) →
      step s = .next (({ s with inputs := rest } : State).setClient c
        (.pending descriptor .decode ⟨none, none, 0⟩))) ∧
    (∀ cmd ph l, s.client c = .pending cmd ph l → step s = .next { s with inputs := rest }) ∧
    (s.params.nClients ≤ c → step s = .next { s with inputs := rest })

/-- Right after reset: not faulted, `N_CTX = 2` contexts, each closed with a free guard and scratch buffers of
`SCRATCH_SIZE` bytes, every client idle, so that no command's locals are present, and no bus event
(10_state.md R38). Which bytes the scratch buffers hold is open, and not stated. -/
def Obligations.ResetValuesOfR38 : Prop :=
  State.reset.faulted = false ∧ State.reset.contexts.length = 2 ∧
  (∀ (i : Nat) (x : Context), State.reset.contexts[i]? = some x →
    x.isOpen = false ∧ x.lock = .free ∧
      x.rscratch.length = State.reset.params.scratchSize ∧ x.wscratch.length = State.reset.params.scratchSize) ∧
  (∀ c, State.reset.client c = .idle) ∧ State.reset.hist = []

/-- The reset event: `FAULTED` cleared, every context closed with a free guard and nothing with the bus, every client
idle, the history empty; the contexts keep their endpoints and the block its parameters
(70_reset_and_hazards.md R300, 10_state.md R37). The event `reset` is the model's form of it (entry 1); that nothing is
with the bus after it and that the events to come stay is the model's choice (entry 11). -/
def Obligations.ResetEventRestoresResetValues : Prop :=
  ∀ (s : State) rest, s.inputs = .reset :: rest →
    ∃ t, step s = .next t ∧ t.faulted = false ∧ t.hist = [] ∧ (∀ c, t.client c = .idle) ∧
      t.params = s.params ∧ t.inputs = rest ∧ t.contexts.length = s.contexts.length ∧
      ∀ (i : Nat) (x' : Context), t.contexts[i]? = some x' →
        x'.isOpen = false ∧ x'.lock = .free ∧ x'.onBus = none ∧
        ∃ x : Context, s.contexts[i]? = some x ∧ x'.endpoint = x.endpoint

/-! ## Invariants of every step -/

/-- Every step keeps the guard discipline: a guard is held by exactly the client in a span of its context, a request
is with the bus exactly while a client waits for it, the scratch buffers keep their size, and only a client below
`N_CLIENTS` is not idle (10_state.md R21, R24 to R26, R29). -/
def Obligations.StepKeepsGuardDiscipline : Prop :=
  ∀ s t, GuardInv s → step s = .next t → GuardInv t

/-- Every step keeps that a command past `DECODE` is legal, works on its own context only, and makes only the spans
of its pseudocode (30_encoding.md R106, 44_session.md R255). -/
def Obligations.StepKeepsCommandsInTheirContext : Prop :=
  ∀ s t, CommandInv s → step s = .next t → CommandInv t

/-- Every step keeps that the responses held are of the statuses the block produces, without result and data where
they report a failure (30_encoding.md R100, R102, 40_bus_primitive.md R134, 60_exceptions.md R273). -/
def Obligations.StepKeepsResponsesLegal : Prop :=
  ∀ s t, CommandInv s → ResponsesLegal s → step s = .next t → ResponsesLegal t

/-- Every step keeps the numbering of spans and transactions and the count of `CHG_PROBE`; a legal command that waits
for a guard waits for one of at most 8 spans, and the bus for one of at most 2 transactions of a span
(10_state.md R29, R31). -/
def Obligations.StepKeepsSpanNumbers : Prop :=
  (∀ s t, NumbersInv s → step s = .next t → NumbersInv t) ∧
  ∀ s, NumbersInv s → ∀ c cmd l i k call, decode cmd = .ok i →
    (s.client c = .pending cmd (.acq k call) l → 1 ≤ k ∧ k ≤ 8) ∧
    ∀ t, s.client c = .pending cmd (.bus k t call) l → 1 ≤ k ∧ k ≤ 8 ∧ 1 ≤ t ∧ t ≤ 2

/-- The invariants hold right after reset, and there is a client (00_scope.md R10). -/
def Obligations.ResetMeetsTheInvariants : Prop :=
  GuardInv State.reset ∧ CommandInv State.reset ∧ ResponsesLegal State.reset ∧ NumbersInv State.reset ∧
    1 ≤ State.reset.params.nClients

/-- A turn of a legal command leaves every context but its own as it was, and adds events on its own context only; a
command without a context leaves all of them (44_session.md R255, 20_memory.md R68). -/
def Obligations.CommandsTouchOnlyTheirContext : Prop :=
  ∀ s t c n rest cmd ph l i, CommandInv s → s.inputs = .turn c n :: rest →
    s.client c = .pending cmd ph l → decode cmd = .ok i → exec i s = .next t →
    (∀ j, (∀ b, i.bus? = some b → j ≠ b.toNat) → t.contexts[j]? = s.contexts[j]?) ∧
    ∃ events, t.hist = s.hist ++ events ∧ ∀ e ∈ events, ∃ b, i.bus? = some b ∧ e.ctx = b.toNat

/-- But for reset, the history only grows, and a step adds to it only events of the client whose turn it is
(10_state.md R35). -/
def Obligations.HistoryOnlyGrows : Prop :=
  ∀ s t : State, (∀ rest, s.inputs ≠ .reset :: rest) → step s = .next t →
    ∃ events, t.hist = s.hist ++ events ∧ ∀ e ∈ events, ∃ n rest, s.inputs = .turn e.client n :: rest

/-- No step changes the parameters, the number of contexts or an endpoint (10_state.md R37, 44_session.md R250). -/
def Obligations.ParametersAreFixed : Prop :=
  ∀ s t, step s = .next t →
    t.params = s.params ∧ t.contexts.map Context.endpoint = s.contexts.map Context.endpoint
end

