-- ==== Sys2Proof/Laws/Converter.lean ====
section
/-! SUPPORT. The converter's formulas without masks and shifts: each transform and each encoder as division and
remainder of its operand (spec/42_fuel_gauge.md R172 to R176, spec/43_charger.md R211 to R213). -/

namespace Sys2Proof.Machine

/-- A field of a raw value as division and remainder. -/
theorem toNat_extract (raw : Half) (start len : Nat) :
    (raw.extractLsb' start len).toNat = raw.toNat / 2 ^ start % 2 ^ len := by
  simp [Nat.shiftRight_eq_div_pow]

theorem msb_eq_bit15 (raw : Half) : raw.msb = raw.getLsbD 15 := by simp [BitVec.msb_eq_getLsbD_last]

theorem shifted_field {n : Nat} (r k mask : Nat) (h : mask >>> k = 2 ^ n - 1) : (r &&& mask) >>> k = r / 2 ^ k % 2 ^ n := by
  rw [Nat.shiftRight_and_distrib, Nat.shiftRight_eq_div_pow r, h, Nat.and_two_pow_sub_one_eq_mod]

theorem and_07FF (r : Nat) : r &&& 0x07FF = r % 2048 := Nat.and_two_pow_sub_one_eq_mod r 11

/-- The magnitude of a voltage (R173). -/
theorem milliValue_3800 (raw : Half) :
    milliValue 0x3800 raw = ((raw.toNat / 2048 % 8 * 1000 + raw.toNat % 2048 * 1000 / 2048 : Nat) : Int) := by
  simp only [milliValue, and_07FF, shifted_field (n := 3) raw.toNat 11 0x3800 rfl]
  rfl

/-- The magnitude of a current (R174). -/
theorem milliValue_1800 (raw : Half) :
    milliValue 0x1800 raw = ((raw.toNat / 2048 % 4 * 1000 + raw.toNat % 2048 * 1000 / 2048 : Nat) : Int) := by
  simp only [milliValue, and_07FF, shifted_field (n := 2) raw.toNat 11 0x1800 rfl]
  rfl

/-- The tenths of a temperature (R175). -/
theorem tempTenths_eq (raw : Half) :
    tempTenths raw = ((raw.toNat / 256 % 128 * 10 + (raw &&& 0x00F0).toNat * 10 / 256 : Nat) : Int) := by
  simp only [tempTenths, shifted_field (n := 7) raw.toNat 8 0x7FFF rfl]
  simp

/-- A cycle count (R176). -/
theorem cycleDecode_eq (raw : Half) : cycleDecode false raw = ((raw.toNat % 256 : Nat) : Int) := by
  simp only [cycleDecode, Bool.false_and, Nat.and_two_pow_sub_one_eq_mod raw.toNat 8]
  rfl

/-- `icl_encode` (R211). -/
theorem toNat_iclEncode (mA : Half) :
    (iclEncode mA).toNat = if mA.toNat < 100 then 0 else (mA.toNat - 100) / 25 % 128 := by
  have := Nat.and_two_pow_sub_one_eq_mod ((mA.toNat - 100) / 25) 7
  simp at this
  simp only [iclEncode]
  split_ifs
  · rfl
  · simp [this]
    omega

/-- `cc_encode` (R212). -/
theorem toNat_ccEncode (mA : Half) :
    (ccEncode mA).toNat = if mA.toNat * 1000 < 109375 then 7 else if 3500000 < mA.toNat * 1000 then 224
      else 7 + (mA.toNat * 1000 - 109375) / 15625 := by
  have := Nat.and_two_pow_sub_one_eq_mod (7 + (mA.toNat * 1000 - 109375) / 15625) 8
  simp at this
  simp only [ccEncode]
  split_ifs
  · rfl
  · rfl
  · simp [this]
    omega

/-- `topoff_encode` (R213). -/
theorem toNat_topoffEncode (mA : Half) :
    (topoffEncode mA).toNat = if mA.toNat < 100 then 0 else if mA.toNat < 800 then (mA.toNat - 100) / 25 else 28 := by
  simp only [topoffEncode]
  split_ifs <;> simp
  omega

end Sys2Proof.Machine
end

