-- ==== Sys2Proof/Laws/Decode.lean ====
section
/-! SUPPORT. Headers, halves and packed bytes, each with what reading it back gives (spec/30_encoding.md R91 to
R97). -/

namespace Sys2Proof

/-! ## Headers -/

section header
variable (opc : Byte) (bus : BusIndex) (f : Bool) (a b : Byte)

theorem getLsbD_headerWord (i : Nat) :
    (headerWord opc bus f a b).getLsbD i =
      if i < 8 then b.getLsbD i else if i < 16 then a.getLsbD (i - 8) else if i = 16 then f
      else if i < 20 then false else if i < 24 then bus.getLsbD (i - 20) else opc.getLsbD (i - 24) := by
  have h : (headerWord opc bus f a b).getLsbD i =
      BitVec.getLsbD (w := 8 + 4 + 3 + 1 + 8 + 8)
        (((((opc ++ bus) ++ (0 : BitVec 3)) ++ BitVec.ofBool f) ++ a) ++ b) i := rfl
  rw [h]
  simp only [BitVec.getLsbD_append]
  simp
  grind

@[simp] theorem opcField_headerWord : opcField (headerWord opc bus f a b) = opc := by
  ext i hi
  rw [opcField, BitVec.getElem_extractLsb', getLsbD_headerWord]
  grind

@[simp] theorem busField_headerWord : busField (headerWord opc bus f a b) = bus := by
  ext i hi
  rw [busField, BitVec.getElem_extractLsb', getLsbD_headerWord]
  grind

@[simp] theorem fField_headerWord : fField (headerWord opc bus f a b) = f := by
  rw [fField, getLsbD_headerWord]
  simp

@[simp] theorem aField_headerWord : aField (headerWord opc bus f a b) = a := by
  ext i hi
  rw [aField, BitVec.getElem_extractLsb', getLsbD_headerWord]
  grind

@[simp] theorem bField_headerWord : bField (headerWord opc bus f a b) = b := by
  ext i hi
  rw [bField, BitVec.getElem_extractLsb', getLsbD_headerWord]
  grind

end header

/-- A reserved bit of a header whose `RSV` is 0. -/
theorem getLsbD_of_reserved_zero {h : Word} (hr : h.extractLsb' 17 3 = 0) (j : Nat) (h1 : 17 ≤ j) (h2 : j < 20) :
    h.getLsbD j = false := by
  have := congrArg (BitVec.getLsbD · (j - 17)) hr
  simp [BitVec.getLsbD_extractLsb'] at this
  grind

/-- A header with `RSV = 0` is the header of its fields (R91). -/
theorem headerWord_fields (h : Word) (hr : h.extractLsb' 17 3 = 0) :
    headerWord (opcField h) (busField h) (fField h) (aField h) (bField h) = h := by
  ext i hi
  have key := getLsbD_of_reserved_zero hr
  rw [← BitVec.getLsbD_eq_getElem, getLsbD_headerWord]
  simp [opcField, busField, fField, aField, bField, BitVec.getLsbD_extractLsb']
  grind

/-- A legal count is in `lo .. 255` (R98). -/
theorem legalCount_iff {lo n : Nat} : legalCount lo n = true ↔ lo ≤ n ∧ n ≤ 255 := by
  rw [legalCount, Bool.and_eq_true, decide_eq_true_eq, decide_eq_true_eq, Config.maxXfer]

/-! ## Opcodes -/

@[simp] theorem ofCode_code (o : Opcode) : Opcode.ofCode o.code = some o := by cases o <;> decide

theorem code_of_ofCode {code : Byte} {o : Opcode} (h : Opcode.ofCode code = some o) : o.code = code := by
  have := List.find?_some h
  simpa using this

theorem ofCode_eq_none {code : Byte} (h : ∀ o : Opcode, o.code ≠ code) : Opcode.ofCode code = none := by
  unfold Opcode.ofCode
  rw [List.find?_eq_none]
  intro o _
  simpa using h o

/-- The opcode is in every mask, with the opcode's own code (R96). -/
theorem opcField_of_selects {o : Opcode} {h : Word} (hs : o.selects h = true) : opcField h = o.code := by
  have hs : h &&& o.mask = o.pattern := by simpa [Opcode.selects] using hs
  have h2 : opcField h &&& o.mask.extractLsb' 24 8 = o.pattern.extractLsb' 24 8 := by
    rw [← hs, opcField, BitVec.extractLsb'_and]
  have h3 : o.mask.extractLsb' 24 8 = BitVec.allOnes 8 := by cases o <;> decide
  have h4 : o.pattern.extractLsb' 24 8 = o.code := by cases o <;> decide
  rw [h3, h4, BitVec.and_allOnes] at h2
  exact h2

/-- The reserved bits are in every mask, as zeros (R96). -/
theorem reserved_of_selects {o : Opcode} {h : Word} (hs : o.selects h = true) : h.extractLsb' 17 3 = 0 := by
  have hs : h &&& o.mask = o.pattern := by simpa [Opcode.selects] using hs
  have h2 : h.extractLsb' 17 3 &&& o.mask.extractLsb' 17 3 = o.pattern.extractLsb' 17 3 := by
    rw [← hs, BitVec.extractLsb'_and]
  have h3 : o.mask.extractLsb' 17 3 = BitVec.allOnes 3 := by cases o <;> decide
  have h4 : o.pattern.extractLsb' 17 3 = 0 := by cases o <;> decide
  rw [h3, h4, BitVec.and_allOnes] at h2
  exact h2

/-- A field that the mask covers with zeros in the pattern is zero in a selected header. -/
theorem field_of_selects {o : Opcode} {h : Word} (hs : o.selects h = true) (start len : Nat)
    (h3 : o.mask.extractLsb' start len = BitVec.allOnes len) (h4 : o.pattern.extractLsb' start len = 0) :
    h.extractLsb' start len = 0 := by
  have hs : h &&& o.mask = o.pattern := by simpa [Opcode.selects] using hs
  have h2 : h.extractLsb' start len &&& o.mask.extractLsb' start len = o.pattern.extractLsb' start len := by
    rw [← hs, BitVec.extractLsb'_and]
  rw [h3, h4, BitVec.and_allOnes] at h2
  exact h2

/-- Which of the four operand fields an opcode uses: `BUS`, `F`, `A` and `B` (R95). -/
def Opcode.uses : Opcode → Bool × Bool × Bool × Bool
  | .writeSync | .readSync => (true, false, true, true)
  | .seqWwr => (true, true, true, true)
  | .readReg | .writeReg | .updateReg => (true, false, true, false)
  | .chgSetAutostop | .chgSetEnable | .chgProbe => (true, true, false, false)
  | .cvtSoc | .cvtOcv | .cvtCurrent | .cvtTemp | .cvtCycle | .cvtIcl | .cvtCc | .cvtTopoff =>
      (false, false, false, false)
  | _ => (true, false, false, false)

/-- The mask of an opcode is the mask of the fields it does not use (R96). -/
theorem mask_eq (o : Opcode) :
    o.mask = headerWord 0xFF (if o.uses.1 then 0 else 0xF) (!o.uses.2.1) (if o.uses.2.2.1 then 0 else 0xFF)
      (if o.uses.2.2.2 then 0 else 0xFF) ||| 0x000E0000 := by
  cases o <;> decide

theorem pattern_eq (o : Opcode) : o.pattern = headerWord o.code 0 false 0 0 := by cases o <;> decide

theorem headerWord_and (opc opc' : Byte) (bus bus' : BusIndex) (f f' : Bool) (a a' b b' : Byte) :
    headerWord opc bus f a b &&& headerWord opc' bus' f' a' b' =
      headerWord (opc &&& opc') (bus &&& bus') (f && f') (a &&& a') (b &&& b') := by
  apply BitVec.eq_of_getLsbD_eq
  intro i hi
  rw [BitVec.getLsbD_and, getLsbD_headerWord, getLsbD_headerWord, getLsbD_headerWord]
  simp only [BitVec.getLsbD_and]
  split_ifs <;> simp

theorem headerWord_and_reserved (opc : Byte) (bus : BusIndex) (f : Bool) (a b : Byte) :
    headerWord opc bus f a b &&& 0x000E0000 = 0 := by
  have hz : ∀ i < 32, (0x000E0000 : Word).getLsbD i = decide (17 ≤ i ∧ i < 20) := by decide
  apply BitVec.eq_of_getLsbD_eq
  intro i hi
  rw [BitVec.getLsbD_and, getLsbD_headerWord, hz i hi]
  simp
  grind

/-- A header whose unused fields are zero is selected (R96, R97). -/
theorem selects_headerFor (o : Opcode) {bus : BusIndex} {f : Bool} {a b : Byte}
    (h1 : o.uses.1 = false → bus = 0) (h2 : o.uses.2.1 = false → f = false)
    (h3 : o.uses.2.2.1 = false → a = 0) (h4 : o.uses.2.2.2 = false → b = 0) :
    o.selects (headerFor o bus f a b) = true := by
  simp only [Opcode.selects, beq_iff_eq, headerFor]
  rw [pattern_eq, mask_eq, BitVec.and_or_distrib_left, headerWord_and_reserved, headerWord_and,
    show ∀ x : Word, x ||| 0 = x from fun x => BitVec.or_zero]
  have e : ∀ (x : Byte), x &&& 0xFF = x := fun x => BitVec.and_allOnes
  have e4 : ∀ (x : BusIndex), x &&& 0xF = x := fun x => BitVec.and_allOnes
  congr 1
  · exact e _
  · cases h : o.uses.1
    · simp [h1 h]
    · simp
  · cases h : o.uses.2.1
    · simp [h2 h]
    · simp
  · cases h : o.uses.2.2.1
    · simp [h3 h]
    · simp
  · cases h : o.uses.2.2.2
    · simp [h4 h]
    · simp

@[simp] theorem opcField_headerFor (o : Opcode) (bus : BusIndex) (f : Bool) (a b : Byte) :
    opcField (headerFor o bus f a b) = o.code := opcField_headerWord _ _ _ _ _
@[simp] theorem busField_headerFor (o : Opcode) (bus : BusIndex) (f : Bool) (a b : Byte) :
    busField (headerFor o bus f a b) = bus := busField_headerWord _ _ _ _ _
@[simp] theorem fField_headerFor (o : Opcode) (bus : BusIndex) (f : Bool) (a b : Byte) :
    fField (headerFor o bus f a b) = f := fField_headerWord _ _ _ _ _
@[simp] theorem aField_headerFor (o : Opcode) (bus : BusIndex) (f : Bool) (a b : Byte) :
    aField (headerFor o bus f a b) = a := aField_headerWord _ _ _ _ _
@[simp] theorem bField_headerFor (o : Opcode) (bus : BusIndex) (f : Bool) (a b : Byte) :
    bField (headerFor o bus f a b) = b := bField_headerWord _ _ _ _ _

/-- A descriptor whose header is an opcode's own is decoded by the body of that opcode. -/
theorem decode_headerFor (o : Opcode) {bus : BusIndex} {f : Bool} {a b : Byte} (ext : List Word)
    (h1 : o.uses.1 = false → bus = 0) (h2 : o.uses.2.1 = false → f = false)
    (h3 : o.uses.2.2.1 = false → a = 0) (h4 : o.uses.2.2.2 = false → b = 0) :
    decode (headerFor o bus f a b :: ext) = decodeBody o (headerFor o bus f a b) ext := by
  simp [decode, selects_headerFor o h1 h2 h3 h4]

/-- What a descriptor that decodes is made of. -/
theorem decode_ok {ws : List Word} {i : Instr} (h : decode ws = .ok i) :
    ∃ hd ext o, ws = hd :: ext ∧ opcField hd = o.code ∧ o.selects hd = true ∧ decodeBody o hd ext = .ok i := by
  cases ws with
  | nil => cases h
  | cons hd ext =>
    simp only [decode] at h
    split at h
    · cases h
    · rename_i o ho
      split at h
      · rename_i hs
        exact ⟨hd, ext, o, rfl, (code_of_ofCode ho).symm, hs, h⟩
      · cases h

/-! ## Halves -/

theorem getLsbD_append_half (x y : Half) (i : Nat) :
    BitVec.getLsbD (w := 32) (x ++ y) i = if i < 16 then y.getLsbD i else x.getLsbD (i - 16) := by
  have h : BitVec.getLsbD (w := 32) (x ++ y) i = BitVec.getLsbD (w := 16 + 16) (x ++ y) i := rfl
  rw [h, BitVec.getLsbD_append]

@[simp] theorem lowHalf_append (x y : Half) : lowHalf (x ++ y) = y := by
  ext i hi
  rw [lowHalf, BitVec.getElem_extractLsb', getLsbD_append_half]
  grind

@[simp] theorem highHalf_append (x y : Half) : highHalf (x ++ y) = x := by
  ext i hi
  rw [highHalf, BitVec.getElem_extractLsb', getLsbD_append_half]
  grind

@[simp] theorem append_halves (w : Word) : (highHalf w ++ lowHalf w : BitVec 32) = w := by
  apply BitVec.eq_of_getLsbD_eq
  intro i hi
  rw [getLsbD_append_half]
  simp [lowHalf, highHalf, BitVec.getLsbD_extractLsb']
  grind

@[simp] theorem lowHalf_halfWord (x : Half) : lowHalf (halfWord x) = x := lowHalf_append _ _
@[simp] theorem highHalf_halfWord (x : Half) : highHalf (halfWord x) = 0 := highHalf_append _ _

/-- A word whose high half is 0 is the word of its low half. -/
theorem halfWord_lowHalf {w : Word} (h : highHalf w = 0) : halfWord (lowHalf w) = w := by
  rw [halfWord, ← h, append_halves]

/-! ## Packed bytes -/

theorem getLsbD_wordOf (b0 b1 b2 b3 : Byte) (i : Nat) :
    (wordOf b0 b1 b2 b3).getLsbD i =
      if i < 8 then b0.getLsbD i else if i < 16 then b1.getLsbD (i - 8)
      else if i < 24 then b2.getLsbD (i - 16) else b3.getLsbD (i - 24) := by
  have h : (wordOf b0 b1 b2 b3).getLsbD i = BitVec.getLsbD (w := 8 + 8 + 8 + 8) (((b3 ++ b2) ++ b1) ++ b0) i := rfl
  rw [h]
  simp only [BitVec.getLsbD_append]
  grind

@[simp] theorem wordBytes_wordOf (b0 b1 b2 b3 : Byte) : wordBytes (wordOf b0 b1 b2 b3) = [b0, b1, b2, b3] := by
  simp only [wordBytes, List.cons.injEq, and_true]
  refine ⟨?_, ?_, ?_, ?_⟩ <;>
  · ext i hi
    rw [BitVec.getElem_extractLsb', getLsbD_wordOf]
    grind

theorem wordOf_wordBytes (w : Word) :
    wordOf (w.extractLsb' 0 8) (w.extractLsb' 8 8) (w.extractLsb' 16 8) (w.extractLsb' 24 8) = w := by
  apply BitVec.eq_of_getLsbD_eq
  intro i hi
  rw [getLsbD_wordOf]
  simp [BitVec.getLsbD_extractLsb']
  grind

@[simp] theorem length_wordBytes (w : Word) : (wordBytes w).length = 4 := rfl

/-- Words sent as bytes are read as the words (R90). -/
@[simp] theorem wordsOfBytes_flatMap (ws : List Word) : wordsOfBytes (ws.flatMap wordBytes) = some ws := by
  induction ws with
  | nil => rfl
  | cons w ws ih => simp [wordBytes, wordsOfBytes, wordOf_wordBytes, ih]

@[simp] theorem length_flatMap_wordBytes (ws : List Word) : (ws.flatMap wordBytes).length = 4 * ws.length := by
  induction ws with
  | nil => rfl
  | cons w ws ih => simp [ih]; omega

@[simp] theorem length_packBytes (bs : List Byte) : (packBytes bs).length = wordsFor bs.length := by
  induction bs using packBytes.induct with
  | case1 => simp [packBytes, wordsFor]
  | case2 => simp [packBytes, wordsFor]
  | case3 => simp [packBytes, wordsFor]
  | case4 => simp [packBytes, wordsFor]
  | case5 b0 b1 b2 b3 rest ih => simp [packBytes, ih, wordsFor]; omega

/-- The bytes of packed words are the bytes and the zero padding (R93). -/
theorem flatMap_packBytes (bs : List Byte) :
    (packBytes bs).flatMap wordBytes = bs ++ List.replicate (4 * wordsFor bs.length - bs.length) 0 := by
  induction bs using packBytes.induct with
  | case1 => rfl
  | case2 => simp [packBytes, wordsFor]
  | case3 => simp [packBytes, wordsFor]
  | case4 => simp [packBytes, wordsFor]
  | case5 b0 b1 b2 b3 rest ih =>
    simp only [packBytes, List.flatMap_cons, wordBytes_wordOf, ih, List.length_cons]
    have : 4 * wordsFor (rest.length + 1 + 1 + 1 + 1) - (rest.length + 1 + 1 + 1 + 1) =
        4 * wordsFor rest.length - rest.length := by simp [wordsFor]; omega
    rw [this]
    rfl

/-- Packed bytes are read back (R93). -/
theorem unpackBytes_packBytes {n : Nat} (bs : List Byte) (h : bs.length = n) :
    unpackBytes n (packBytes bs) = .ok bs := by
  subst h
  simp [unpackBytes, flatMap_packBytes]

/-- Words that carry `n` bytes are the packing of these bytes (R93, R97). -/
theorem packBytes_of_unpackBytes {n : Nat} {ws : List Word} {bs : List Byte} (h : unpackBytes n ws = .ok bs) :
    packBytes bs = ws ∧ bs.length = n := by
  unfold unpackBytes at h
  split at h
  · cases h
  · rename_i hl
    simp only [ne_eq, not_not] at hl
    simp only at h
    split at h
    · rename_i hz
      cases h
      have hn : n ≤ (ws.flatMap wordBytes).length := by simp [hl, wordsFor]; omega
      have hlen : ((ws.flatMap wordBytes).take n).length = n := by simp [List.length_take]; simpa using hn
      refine ⟨?_, hlen⟩
      have e1 : ((packBytes ((ws.flatMap wordBytes).take n)).flatMap wordBytes) = ws.flatMap wordBytes := by
        rw [flatMap_packBytes, hlen]
        conv_rhs => rw [← List.take_append_drop n (ws.flatMap wordBytes)]
        congr 1
        symm
        rw [List.eq_replicate_iff]
        refine ⟨by simp [hl, Nat.mul_comm], ?_⟩
        intro b hb
        have := (List.all_eq_true.mp hz) b hb
        simpa using this
      have := congrArg wordsOfBytes e1
      simpa using this
    · cases h

end Sys2Proof
end

