-- ==== Sys2Proof/Laws/State.lean ====
section
/-! SUPPORT. The small lemmas of the state operations: every field after every update, reading a client
after a write, and the canonical form of the client list. -/

namespace Sys2Proof.Machine

/-! ## setClient -/

@[simp] theorem setClient_params (s : State) (c : Nat) (x : Client) : (s.setClient c x).params = s.params := rfl
@[simp] theorem setClient_faulted (s : State) (c : Nat) (x : Client) : (s.setClient c x).faulted = s.faulted := rfl
@[simp] theorem setClient_contexts (s : State) (c : Nat) (x : Client) : (s.setClient c x).contexts = s.contexts := rfl
@[simp] theorem setClient_clients (s : State) (c : Nat) (x : Client) :
    (s.setClient c x).clients = putClient s.clients c x := rfl
@[simp] theorem setClient_hist (s : State) (c : Nat) (x : Client) : (s.setClient c x).hist = s.hist := rfl
@[simp] theorem setClient_inputs (s : State) (c : Nat) (x : Client) : (s.setClient c x).inputs = s.inputs := rfl
@[simp] theorem setClient_draws (s : State) (c : Nat) (x : Client) : (s.setClient c x).draws = s.draws := rfl

/-! ## setContext -/

@[simp] theorem setContext_params (s : State) (i : Nat) (x : Context) : (s.setContext i x).params = s.params := rfl
@[simp] theorem setContext_faulted (s : State) (i : Nat) (x : Context) : (s.setContext i x).faulted = s.faulted := rfl
@[simp] theorem setContext_contexts (s : State) (i : Nat) (x : Context) :
    (s.setContext i x).contexts = s.contexts.set i x := rfl
@[simp] theorem setContext_clients (s : State) (i : Nat) (x : Context) : (s.setContext i x).clients = s.clients := rfl
@[simp] theorem setContext_hist (s : State) (i : Nat) (x : Context) : (s.setContext i x).hist = s.hist := rfl
@[simp] theorem setContext_inputs (s : State) (i : Nat) (x : Context) : (s.setContext i x).inputs = s.inputs := rfl
@[simp] theorem setContext_draws (s : State) (i : Nat) (x : Context) : (s.setContext i x).draws = s.draws := rfl
@[simp] theorem setContext_client (s : State) (i : Nat) (x : Context) (c : Nat) :
    (s.setContext i x).client c = s.client c := rfl

/-- The last write to a context is the one that stands. -/
@[simp] theorem setContext_setContext (s : State) (i : Nat) (x y : Context) :
    (s.setContext i x).setContext i y = s.setContext i y := by
  simp [State.setContext]

/-- Clients and contexts are separate. -/
theorem setContext_setClient (s : State) (i : Nat) (x : Context) (c : Nat) (y : Client) :
    (s.setClient c y).setContext i x = (s.setContext i x).setClient c y := rfl

/-! ## Updates of the other fields -/

@[simp] theorem client_with_inputs (s : State) (r : List Input) (c : Nat) :
    State.client { s with inputs := r } c = s.client c := rfl
@[simp] theorem client_with_draws (s : State) (d : Nat) (c : Nat) :
    State.client { s with draws := d } c = s.client c := rfl
@[simp] theorem client_with_faulted (s : State) (b : Bool) (c : Nat) :
    State.client { s with faulted := b } c = s.client c := rfl
@[simp] theorem client_with_hist_draws (s : State) (h : List BusEvent) (d : Nat) (c : Nat) :
    State.client { s with hist := h, draws := d } c = s.client c := rfl
@[simp] theorem client_with_contexts (s : State) (xs : List Context) (c : Nat) :
    State.client { s with contexts := xs } c = s.client c := rfl
@[simp] theorem contexts_with_inputs (s : State) (r : List Input) : ({ s with inputs := r } : State).contexts = s.contexts := rfl
@[simp] theorem contexts_with_draws (s : State) (d : Nat) : ({ s with draws := d } : State).contexts = s.contexts := rfl

/-! ## Clients -/

/-- A client that was written reads as written. -/
theorem clientAt_putClient_self (l : List (Nat × Client)) (c : Nat) (x : Client) (hx : x ≠ .idle) :
    clientAt (putClient l c x) c = x := by
  induction l with
  | nil => simp [putClient, hx, clientAt]
  | cons p rest ih =>
    obtain ⟨k, y⟩ := p
    by_cases h1 : c < k
    · simp [putClient, h1, hx, clientAt]
    · by_cases h2 : c = k
      · simp [putClient, h2, hx, clientAt]
      · simp [putClient, h1, h2, clientAt, Ne.symm h2, ih]

/-- Writing one client leaves every other as it was. -/
theorem clientAt_putClient_ne (l : List (Nat × Client)) {c c' : Nat} (x : Client) (h : c' ≠ c) :
    clientAt (putClient l c x) c' = clientAt l c' := by
  induction l with
  | nil => by_cases hx : x = .idle <;> simp [putClient, hx, clientAt, Ne.symm h]
  | cons p rest ih =>
    obtain ⟨k, y⟩ := p
    by_cases h1 : c < k
    · by_cases hx : x = .idle <;> simp [putClient, h1, hx, clientAt, Ne.symm h]
    · by_cases h2 : c = k
      · subst h2
        by_cases hx : x = .idle <;> simp [putClient, hx, clientAt, Ne.symm h]
      · simp only [putClient, h1, h2, if_false, clientAt, ih]

/-- The last write to a client is the one that stands. -/
theorem putClient_putClient (l : List (Nat × Client)) (c : Nat) (x y : Client) (hx : x ≠ .idle)
    (hy : y ≠ .idle) : putClient (putClient l c x) c y = putClient l c y := by
  induction l with
  | nil => simp [putClient, hx, hy]
  | cons p rest ih =>
    obtain ⟨k, z⟩ := p
    by_cases h1 : c < k
    · simp [putClient, h1, hx, hy]
    · by_cases h2 : c = k
      · simp [putClient, h2, hx, hy]
      · simp [putClient, h1, h2, ih]

@[simp] theorem client_setClient_pending (s : State) (c : Nat) (cmd : List Word) (ph : Phase) (l : Locals) :
    (s.setClient c (.pending cmd ph l)).client c = .pending cmd ph l :=
  clientAt_putClient_self _ _ _ (by simp)

@[simp] theorem client_setClient_answered (s : State) (c : Nat) (r : Response) :
    (s.setClient c (.answered r)).client c = .answered r :=
  clientAt_putClient_self _ _ _ (by simp)

theorem client_setClient_ne (s : State) {c c' : Nat} (x : Client) (h : c' ≠ c) :
    (s.setClient c x).client c' = s.client c' :=
  clientAt_putClient_ne _ _ h

/-- Client `c'` after client `c` was written with something other than `Idle`. -/
theorem client_setClient (s : State) (c c' : Nat) (x : Client) (hx : x ≠ .idle) :
    (s.setClient c x).client c' = if c' = c then x else s.client c' := by
  by_cases h : c' = c
  · subst h; simp only [if_true]; exact clientAt_putClient_self _ _ _ hx
  · simp only [h, if_false]; exact client_setClient_ne s x h

@[simp] theorem setClient_setClient (s : State) (c : Nat) (cmd : List Word) (ph : Phase) (l : Locals)
    (y : Client) (hy : y ≠ .idle) :
    (s.setClient c (.pending cmd ph l)).setClient c y = s.setClient c y := by
  simp [State.setClient, putClient_putClient _ _ _ _ (by simp : Client.pending cmd ph l ≠ .idle) hy]

/-! ## The canonical form of the client list -/

theorem clientAt_of_lt (l : List (Nat × Client)) (c : Nat) (h : ∀ p ∈ l, c < p.1) : clientAt l c = .idle := by
  induction l with
  | nil => rfl
  | cons p rest ih =>
    obtain ⟨k, y⟩ := p
    have hk : c < k := h (k, y) (by simp)
    simp [clientAt, Nat.ne_of_gt hk, ih fun q hq => h q (by simp [hq])]

/-- The numbers of the list after a write are the numbers before it and the one written. -/
theorem mem_putClient (l : List (Nat × Client)) (c : Nat) (x : Client) (q : Nat × Client)
    (h : q ∈ putClient l c x) : q = (c, x) ∨ q ∈ l := by
  induction l with
  | nil => by_cases hx : x = .idle <;> simp_all [putClient]
  | cons p rest ih =>
    obtain ⟨k, y⟩ := p
    unfold putClient at h
    split_ifs at h <;> simp_all <;> tauto

end Sys2Proof.Machine
end

