-- ==== Sys2Proof/Laws/Flags.lean ====
section
/-! SUPPORT. The outcome and status computations, form by form (spec/20_memory.md R53,
spec/40_bus_primitive.md R121 to R130), and the scratch buffers (spec/10_state.md R26). -/

namespace Sys2Proof.Machine

/-! ## Outcomes -/

@[simp] theorem fitAnswer_err (t : Transaction) (d : Nat) : fitAnswer t .err d = .err := rfl
@[simp] theorem fitAnswer_write (f : List Byte) (count : Nat) (data : List Byte) (d : Nat) :
    fitAnswer (.write f) (.ok count data) d = .okWrite count := rfl

@[simp] theorem length_freeBytes (d n : Nat) : (freeBytes d n).length = n := by simp [freeBytes]
@[simp] theorem freeBytes_zero (d : Nat) : freeBytes d 0 = [] := rfl

/-- An answer with all its bytes is taken as it is. -/
theorem fitAnswer_read {n : Nat} {data : List Byte} (h : data.length = n) (count d : Nat) :
    fitAnswer (.read n) (.ok count data) d = .okRead count data := by
  subst h; simp [fitAnswer]

theorem fitAnswer_sequence {n : Nat} {data : List Byte} (h : data.length = n) (f1 f2 : List Byte)
    (delay : Word) (count d : Nat) :
    fitAnswer (.sequence f1 f2 n delay) (.ok count data) d = .okRead count data := by
  subst h; simp [fitAnswer]

@[simp] theorem fitDraws_write (f : List Byte) (a : BusAnswer) : fitDraws (.write f) a = 0 := rfl
@[simp] theorem fitDraws_err (t : Transaction) : fitDraws t .err = 0 := by cases t <;> rfl

theorem fitDraws_read {n : Nat} {data : List Byte} (h : data.length = n) (count : Nat) :
    fitDraws (.read n) (.ok count data) = 0 := by
  simp [fitDraws, missingBytes, h]

theorem fitDraws_sequence {n : Nat} {data : List Byte} (h : data.length = n) (f1 f2 : List Byte)
    (delay : Word) (count : Nat) : fitDraws (.sequence f1 f2 n delay) (.ok count data) = 0 := by
  simp [fitDraws, missingBytes, h]

/-! ## Read buffers -/

@[simp] theorem readBuffer_write (f : List Byte) (o : BusOutcome) (d : Nat) : readBuffer (.write f) o d = [] := rfl
@[simp] theorem bufferDraws_write (f : List Byte) (o : BusOutcome) : bufferDraws (.write f) o = 0 := rfl
@[simp] theorem readBuffer_read (n : Nat) (data : List Byte) (d : Nat) :
    readBuffer (.read n) (.okRead n data) d = data := by simp [readBuffer, deliveredBytes]
@[simp] theorem bufferDraws_read (n : Nat) (data : List Byte) :
    bufferDraws (.read n) (.okRead n data) = 0 := by simp [bufferDraws, deliveredBytes]

/-- A read whose count is not its length leaves free values (entry 7). -/
theorem readBuffer_read_count {n count : Nat} (data : List Byte) (d : Nat) (h : count ≠ n) :
    readBuffer (.read n) (.okRead count data) d = freeBytes d n := by
  simp [readBuffer, deliveredBytes, h, Transaction.readLength]

/-- A sequence that moved every byte delivers the bytes the bus read (R130). -/
theorem readBuffer_sequence_full {f1 f2 : List Byte} {n count : Nat} (delay : Word) (data : List Byte) (d : Nat)
    (h : f1.length + f2.length + n ≤ count) :
    readBuffer (.sequence f1 f2 n delay) (.okRead count data) d = data := by
  simp [readBuffer, deliveredBytes, Nat.not_lt.mpr h]

/-- A sequence that moved too few for all its bytes delivers free values (R130). -/
theorem readBuffer_sequence_short {f1 f2 : List Byte} {n count : Nat} (delay : Word) (data : List Byte) (d : Nat)
    (h : count < f1.length + f2.length + n) :
    readBuffer (.sequence f1 f2 n delay) (.okRead count data) d = freeBytes d n := by
  simp [readBuffer, deliveredBytes, h, Transaction.readLength]

theorem bufferDraws_sequence_full {f1 f2 : List Byte} {n count : Nat} (delay : Word) (data : List Byte)
    (h : f1.length + f2.length + n ≤ count) :
    bufferDraws (.sequence f1 f2 n delay) (.okRead count data) = 0 := by
  simp [bufferDraws, deliveredBytes, Nat.not_lt.mpr h]

theorem bufferDraws_sequence_short {f1 f2 : List Byte} {n count : Nat} (delay : Word) (data : List Byte)
    (h : count < f1.length + f2.length + n) :
    bufferDraws (.sequence f1 f2 n delay) (.okRead count data) = n := by
  simp [bufferDraws, deliveredBytes, h, Transaction.readLength]

/-! ## Scratch buffers -/

@[simp] theorem overlay_nil (size : Nat) (buffer : List Byte) : overlay size buffer [] = buffer := by
  simp [overlay]

/-- A scratch buffer keeps its size (R26). -/
theorem length_overlay {size : Nat} {buffer : List Byte} (bytes : List Byte) (h : buffer.length = size) :
    (overlay size buffer bytes).length = size := by
  unfold overlay
  split_ifs <;> simp_all

theorem length_assembleFrames {size : Nat} {buffer : List Byte} (t : Transaction) (h : buffer.length = size) :
    (assembleFrames size buffer t).length = size := by
  cases t <;> simp [assembleFrames, Transaction.frames, length_overlay, h]

end Sys2Proof.Machine
end

