-- ==== Sys2Proof/Laws/Ops.lean ====
section
/-! SUPPORT. What the shared operations can do, one lemma each: the steps of a turn, the phases of a command,
and the guard spans as a whole (spec/10_state.md R25, R29). -/

namespace Sys2Proof.Machine

/-! ## The client list -/

/-- A write keeps the client list canonical. -/
theorem putClient_canonical {l : List (Nat × Client)} (h : ClientsCanonical l) (c : Nat) (x : Client) :
    ClientsCanonical (putClient l c x) := by
  simp only [ClientsCanonical, List.pairwise_map] at h ⊢
  induction l with
  | nil => by_cases hx : x = .idle <;> simp [putClient, hx]
  | cons p rest ih =>
    obtain ⟨k, y⟩ := p
    obtain ⟨h1, h2⟩ := h
    rw [List.pairwise_cons] at h1
    have hy : y ≠ .idle := h2 (k, y) (by simp)
    have hrest : ∀ q ∈ rest, q.2 ≠ Client.idle := fun q hq => h2 q (by simp [hq])
    obtain ⟨i1, i2⟩ := ih ⟨h1.2, hrest⟩
    unfold putClient
    split_ifs with h3 h4 h5 h6
    · exact ⟨List.pairwise_cons.mpr h1, h2⟩
    · refine ⟨List.pairwise_cons.mpr ⟨fun q hq => ?_, List.pairwise_cons.mpr h1⟩, fun q hq => ?_⟩
      · rcases List.mem_cons.mp hq with rfl | hq
        · exact h3
        · exact Nat.lt_trans h3 (h1.1 q hq)
      · rcases List.mem_cons.mp hq with rfl | hq
        · exact h4
        · exact h2 q hq
    · exact ⟨h1.2, hrest⟩
    · subst h5
      refine ⟨List.pairwise_cons.mpr h1, fun q hq => ?_⟩
      rcases List.mem_cons.mp hq with rfl | hq
      · exact h6
      · exact hrest q hq
    · refine ⟨List.pairwise_cons.mpr ⟨fun q hq => ?_, i1⟩, fun q hq => ?_⟩
      · rcases mem_putClient rest c x q hq with rfl | hq
        · show k < c; omega
        · exact h1.1 q hq
      · rcases List.mem_cons.mp hq with rfl | hq
        · exact hy
        · exact i2 q hq

/-! ## Turns -/

/-- A client that is not pending has no steps. -/
theorem advance_of_not_pending (p : Program) (c : Nat) (s : State)
    (h : ∀ cmd ph l, s.client c ≠ .pending cmd ph l) : advance p c s = s := by
  unfold advance
  split
  · rfl
  · rfl
  · exact absurd ‹_› (h _ _ _)

theorem turnSteps_of_not_pending (p : Program) (c n : Nat) (s : State)
    (h : ∀ cmd ph l, s.client c ≠ .pending cmd ph l) : turnSteps p c n s = s := by
  cases n with
  | zero => rfl
  | succ n =>
    unfold turnSteps
    split
    · exact absurd ‹_› (h _ _ _)
    · rfl

@[simp] theorem turnSteps_zero (p : Program) (c : Nat) (s : State) : turnSteps p c 0 s = s := rfl

/-- One step more is one step first. -/
theorem turnSteps_succ (p : Program) (c n : Nat) (s : State) :
    turnSteps p c (n + 1) s = turnSteps p c n (advance p c s) := by
  by_cases h : ∃ cmd ph l, s.client c = .pending cmd ph l
  · obtain ⟨cmd, ph, l, h⟩ := h
    conv_lhs => unfold turnSteps
    simp [h]
  · push Not at h
    rw [turnSteps_of_not_pending p c _ s h, advance_of_not_pending p c s h,
      turnSteps_of_not_pending p c _ s h]

/-- `m + n` steps are `m` steps and then `n`. -/
theorem turnSteps_add (p : Program) (c m n : Nat) (s : State) :
    turnSteps p c (m + n) s = turnSteps p c n (turnSteps p c m s) := by
  induction m generalizing s with
  | zero => simp
  | succ m ih => rw [Nat.add_right_comm, turnSteps_succ, ih, turnSteps_succ]

/-- A turn ends once the command has answered. -/
theorem turnSteps_answered (p : Program) (c n : Nat) (s : State) (r : Response)
    (h : s.client c = .answered r) : turnSteps p c n s = s :=
  turnSteps_of_not_pending p c n s (by simp [h])

/-- What a meaning is: the steps of the turn that is next. -/
theorem run_turn (p : Program) (s : State) (c n : Nat) (rest : List Input)
    (h : s.inputs = .turn c n :: rest) :
    run p s = .next (turnSteps p c n { s with inputs := rest }) := by
  simp [run, h]

/-- A property every step of a command keeps is kept by a turn. -/
theorem turnSteps_induction (p : Program) (c : Nat) (P : State → Prop)
    (hstep : ∀ s, P s → P (advance p c s)) : ∀ n s, P s → P (turnSteps p c n s) := by
  intro n
  induction n with
  | zero => intro s h; exact h
  | succ n ih => intro s h; rw [turnSteps_succ]; exact ih _ (hstep s h)

/-! ## Phases -/

section phases
variable {p : Program} {c : Nat} {s : State} {cmd : List Word} {l : Locals}

theorem advance_decode (h : s.client c = .pending cmd .decode l) : advance p c s = decodePhase p c cmd l s := by
  simp [advance, h]

theorem advance_acq {k : Nat} {call : Call} (h : s.client c = .pending cmd (.acq k call) l) :
    advance p c s = acquirePhase c cmd k call l s := by
  simp [advance, h]

theorem advance_bus {k t : Nat} {call : Call} (h : s.client c = .pending cmd (.bus k t call) l) :
    advance p c s = busPhase c cmd k t call l s := by
  simp [advance, h]

theorem advance_rel {k : Nat} {call : Call} {r : SpanResult} (h : s.client c = .pending cmd (.rel k call r) l) :
    advance p c s = releasePhase c cmd k call r l s := by
  simp [advance, h]

theorem advance_compute {k : Nat} {last : Option (Span × SpanResult)}
    (h : s.client c = .pending cmd (.compute k last) l) :
    advance p c s = follow c cmd k (p.next s.draws l last) s := by
  simp [advance, h]

/-- `DECODE` of a command on an existing context, with no fault: on to its first decision (R106 step 4). -/
theorem decodePhase_bus {b : BusIndex} (hp : p.bus = some b) (hf : s.faulted = false)
    (hb : b.toNat < s.contexts.length) :
    decodePhase p c cmd l s = follow c cmd 0 (p.next s.draws l none) s := by
  simp [decodePhase, hp, hf, Nat.not_le.mpr hb]

/-- `DECODE` of a command without a context, with no fault. -/
theorem decodePhase_pure (hp : p.bus = none) (hf : s.faulted = false) :
    decodePhase p c cmd l s = s.setClient c (.pending cmd (.compute 0 none) l) := by
  simp [decodePhase, hp, hf]

/-- `DECODE` while the fault stands (R106 step 1). -/
theorem decodePhase_faulted (hf : s.faulted = true) :
    decodePhase p c cmd l s = respond c (plain .faultContract) s := by
  simp [decodePhase, hf]

/-- `Acquire` while the fault stands (R276). -/
theorem acquirePhase_faulted {k : Nat} {call : Call} (hf : s.faulted = true) :
    acquirePhase c cmd k call l s = respond c (plain .faultContract) s := by
  simp [acquirePhase, hf]

/-- A bus procedure that finds its context closed, in whichever span (R254, R275). -/
theorem acquirePhase_closed {k : Nat} {call : Call} {x : Context} (hf : s.faulted = false)
    (hs : ∀ b, call.span ≠ .setOpen b) (hx : s.contexts[call.ctx]? = some x) (hl : x.lock = .free)
    (ho : x.isOpen = false) : acquirePhase c cmd k call l s = raiseFault c s := by
  obtain ⟨i, span⟩ := call
  cases span with
  | setOpen b => exact absurd rfl (hs b)
  | _ => simp_all [acquirePhase, Span.transaction]

/-- A step that waits for the bus does not look at the fault (R276). -/
theorem busPhase_with_faulted {k t : Nat} {call : Call} (v : Bool) :
    busPhase c cmd k t call l { s with faulted := v } = { busPhase c cmd k t call l s with faulted := v } := by
  simp only [busPhase]
  split
  · split
    · rfl
    · split <;> rfl
  · rfl

/-- The end of a span does not look at the fault (R276). -/
theorem releasePhase_with_faulted {k : Nat} {call : Call} {r : SpanResult} (v : Bool) :
    releasePhase c cmd k call r l { s with faulted := v } = { releasePhase c cmd k call r l s with faulted := v } := by
  simp only [releasePhase]
  split <;> rfl

/-- A computation does not look at the fault. -/
theorem follow_with_faulted {k : Nat} {d : Decision} (v : Bool) :
    follow c cmd k d { s with faulted := v } = { follow c cmd k d s with faulted := v } := by
  simp only [follow]
  split <;> rfl

end phases

/-! ## Guard spans -/

/-- The state after guard span `k` of client `c` on context `i`: the events recorded, the free values drawn, the
context as left, and the client computing with the result. -/
def afterSpan (s : State) (c : Nat) (cmd : List Word) (l : Locals) (k i : Nat) (span : Span) (r : SpanResult)
    (x : Context) (events : List BusEvent) (draws : Nat) : State :=
  (({ s with hist := s.hist ++ events, draws := draws } : State).setContext i x).setClient c
    (.pending cmd (.compute k (some (span, r))) l)

section spans
variable {p : Program} {c n : Nat} {s : State} {cmd : List Word} {l : Locals} {k i : Nat} {x : Context}

@[simp] theorem afterSpan_client (span : Span) (r : SpanResult) (events : List BusEvent) (d : Nat) :
    (afterSpan s c cmd l k i span r x events d).client c = .pending cmd (.compute k (some (span, r))) l := by
  simp [afterSpan]

@[simp] theorem afterSpan_params (span : Span) (r : SpanResult) (events : List BusEvent) (d : Nat) :
    (afterSpan s c cmd l k i span r x events d).params = s.params := rfl

@[simp] theorem afterSpan_faulted (span : Span) (r : SpanResult) (events : List BusEvent) (d : Nat) :
    (afterSpan s c cmd l k i span r x events d).faulted = s.faulted := rfl

@[simp] theorem afterSpan_contexts (span : Span) (r : SpanResult) (events : List BusEvent) (d : Nat) :
    (afterSpan s c cmd l k i span r x events d).contexts = s.contexts.set i x := rfl

@[simp] theorem afterSpan_hist (span : Span) (r : SpanResult) (events : List BusEvent) (d : Nat) :
    (afterSpan s c cmd l k i span r x events d).hist = s.hist ++ events := rfl

@[simp] theorem afterSpan_inputs (span : Span) (r : SpanResult) (events : List BusEvent) (d : Nat) :
    (afterSpan s c cmd l k i span r x events d).inputs = s.inputs := rfl

@[simp] theorem afterSpan_draws (span : Span) (r : SpanResult) (events : List BusEvent) (d : Nat) :
    (afterSpan s c cmd l k i span r x events d).draws = d := rfl

theorem afterSpan_client_ne (span : Span) (r : SpanResult) (events : List BusEvent) (d : Nat) {c' : Nat}
    (h : c' ≠ c) : (afterSpan s c cmd l k i span r x events d).client c' = s.client c' :=
  client_setClient_ne _ _ h

theorem set_getElem?_self {α : Type} {xs : List α} {j : Nat} {y z : α} (h : xs[j]? = some y) :
    (xs.set j z)[j]? = some z := by
  have hj := (List.getElem?_eq_some_iff.mp h).1
  simp [hj]

/-- A span of one transaction `t` that is not a lifecycle change: the guard is taken, the transaction handed over
and answered, the guard freed (R121, R127). -/
theorem steps_single {span : Span} {t : Transaction} {a : BusAnswer} {tape : List BusAnswer}
    (hc : s.client c = .pending cmd (.acq k ⟨i, span⟩) l) (hf : s.faulted = false)
    (hx : s.contexts[i]? = some x) (hl : x.lock = .free) (ho : x.isOpen = true) (ha : x.answers = a :: tape)
    (h0 : ∀ b, span ≠ .setOpen b) (h1 : span.transaction 1 = some t) (h2 : span.transaction 2 = none) :
    turnSteps p c (n + 3) s =
      turnSteps p c n (afterSpan s c cmd l k i span
        (spanResult span (fitAnswer t a s.draws)
          (readBuffer t (fitAnswer t a s.draws) (s.draws + fitDraws t a)))
        { x with
          lock := .free, onBus := none, answers := tape
          wscratch := assembleFrames s.params.scratchSize x.wscratch t
          rscratch := overlay s.params.scratchSize x.rscratch
            (readBuffer t (fitAnswer t a s.draws) (s.draws + fitDraws t a)) }
        [⟨i, c, t, fitAnswer t a s.draws⟩]
        (s.draws + fitDraws t a + bufferDraws t (fitAnswer t a s.draws))) := by
  have hacq : acquirePhase c cmd k ⟨i, span⟩ l s =
      (s.setContext i (handOver s.params span t { x with lock := .held c })).setClient c
        (.pending cmd (.bus k 1 ⟨i, span⟩) l) := by
    cases span with
    | setOpen b => exact absurd rfl (h0 b)
    | _ => simp [acquirePhase, hf, hx, hl, h1, ho]
  rw [turnSteps_succ, advance_acq hc, hacq, turnSteps_succ, advance_bus (client_setClient_pending _ _ _ _ _)]
  simp only [busPhase, setClient_contexts, setContext_contexts, set_getElem?_self hx, h1, h2, handOver, ha]
  rw [turnSteps_succ, advance_rel (client_setClient_pending _ _ _ _ _)]
  simp only [releasePhase, setClient_contexts, setContext_contexts]
  rw [List.set_set, set_getElem?_self hx]
  simp [releaseLock, takeAnswer, afterSpan, State.setContext, State.setClient, putClient_putClient]

/-- A read span whose pointer write is answered: the read follows under the same guard (R124). -/
theorem steps_read {addr : Byte} {m count : Nat} {junk : List Byte} {a : BusAnswer} {tape : List BusAnswer}
    (hc : s.client c = .pending cmd (.acq k ⟨i, .read addr m⟩) l) (hf : s.faulted = false)
    (hx : s.contexts[i]? = some x) (hl : x.lock = .free) (ho : x.isOpen = true)
    (ha : x.answers = .ok count junk :: a :: tape) :
    turnSteps p c (n + 4) s =
      turnSteps p c n (afterSpan s c cmd l k i (.read addr m)
        (spanResult (.read addr m) (fitAnswer (.read m) a s.draws)
          (readBuffer (.read m) (fitAnswer (.read m) a s.draws) (s.draws + fitDraws (.read m) a)))
        { x with
          lock := .free, onBus := none, answers := tape
          wscratch := assembleFrames s.params.scratchSize x.wscratch (.write [addr])
          rscratch := overlay s.params.scratchSize x.rscratch
            (readBuffer (.read m) (fitAnswer (.read m) a s.draws) (s.draws + fitDraws (.read m) a)) }
        [⟨i, c, .write [addr], .okWrite count⟩, ⟨i, c, .read m, fitAnswer (.read m) a s.draws⟩]
        (s.draws + fitDraws (.read m) a + bufferDraws (.read m) (fitAnswer (.read m) a s.draws))) := by
  have hacq : acquirePhase c cmd k ⟨i, .read addr m⟩ l s =
      (s.setContext i (handOver s.params (.read addr m) (.write [addr]) { x with lock := .held c })).setClient c
        (.pending cmd (.bus k 1 ⟨i, .read addr m⟩) l) := by
    simp [acquirePhase, hf, hx, hl, ho, Span.transaction, pointerFrame, writeFrame]
  rw [turnSteps_succ, advance_acq hc, hacq, turnSteps_succ, advance_bus (client_setClient_pending _ _ _ _ _)]
  simp only [busPhase, setClient_contexts, setContext_contexts, set_getElem?_self hx, Span.transaction,
    handOver, ha, fitAnswer_write, pointerFrame, writeFrame]
  rw [turnSteps_succ, advance_bus (client_setClient_pending _ _ _ _ _)]
  simp only [busPhase, setClient_contexts, setContext_contexts]
  rw [List.set_set, set_getElem?_self hx]
  simp only [Span.transaction, takeAnswer]
  rw [turnSteps_succ, advance_rel (client_setClient_pending _ _ _ _ _)]
  simp only [releasePhase, setClient_contexts, setContext_contexts]
  simp only [List.set_set, set_getElem?_self hx]
  simp [releaseLock, afterSpan, State.setContext, State.setClient, putClient_putClient, assembleFrames,
    Transaction.frames]

/-- A read span whose pointer write fails: no read is issued (R124). -/
theorem steps_read_pointer_fails {addr : Byte} {m : Nat} {tape : List BusAnswer}
    (hc : s.client c = .pending cmd (.acq k ⟨i, .read addr m⟩) l) (hf : s.faulted = false)
    (hx : s.contexts[i]? = some x) (hl : x.lock = .free) (ho : x.isOpen = true)
    (ha : x.answers = .err :: tape) :
    turnSteps p c (n + 3) s =
      turnSteps p c n (afterSpan s c cmd l k i (.read addr m) ⟨.errBusTransport, []⟩
        { x with
          lock := .free, onBus := none, answers := tape
          wscratch := assembleFrames s.params.scratchSize x.wscratch (.write [addr]) }
        [⟨i, c, .write [addr], .err⟩] s.draws) := by
  have hacq : acquirePhase c cmd k ⟨i, .read addr m⟩ l s =
      (s.setContext i (handOver s.params (.read addr m) (.write [addr]) { x with lock := .held c })).setClient c
        (.pending cmd (.bus k 1 ⟨i, .read addr m⟩) l) := by
    simp [acquirePhase, hf, hx, hl, ho, Span.transaction, pointerFrame, writeFrame]
  rw [turnSteps_succ, advance_acq hc, hacq, turnSteps_succ, advance_bus (client_setClient_pending _ _ _ _ _)]
  simp only [busPhase, setClient_contexts, setContext_contexts, set_getElem?_self hx, Span.transaction,
    handOver, ha, fitAnswer_err, pointerFrame, writeFrame]
  rw [turnSteps_succ, advance_rel (client_setClient_pending _ _ _ _ _)]
  simp only [releasePhase, setClient_contexts, setContext_contexts]
  rw [List.set_set, set_getElem?_self hx]
  simp [releaseLock, takeAnswer, afterSpan, State.setContext, State.setClient, putClient_putClient, assembleFrames,
    Transaction.frames, spanResult, readStatus]

/-- The span of `CTX_OPEN` and `CTX_CLOSE`: the change is made under the guard, with no bus activity (R252, R253). -/
theorem steps_setOpen {b : Bool}
    (hc : s.client c = .pending cmd (.acq k ⟨i, .setOpen b⟩) l) (hf : s.faulted = false)
    (hx : s.contexts[i]? = some x) (hl : x.lock = .free) :
    turnSteps p c (n + 2) s =
      turnSteps p c n (afterSpan s c cmd l k i (.setOpen b) ⟨.ok, []⟩ { x with isOpen := b } [] s.draws) := by
  have hacq : acquirePhase c cmd k ⟨i, .setOpen b⟩ l s =
      (s.setContext i { x with lock := .held c, isOpen := b }).setClient c
        (.pending cmd (.rel k ⟨i, .setOpen b⟩ ⟨.ok, []⟩) l) := by
    simp [acquirePhase, hf, hx, hl]
  rw [turnSteps_succ, advance_acq hc, hacq, turnSteps_succ, advance_rel (client_setClient_pending _ _ _ _ _)]
  simp only [releasePhase, setClient_contexts, setContext_contexts, set_getElem?_self hx]
  simp [releaseLock, afterSpan, State.setContext, State.setClient, putClient_putClient, ← hl]

end spans

end Sys2Proof.Machine
end

