-- ==== Sys2Proof/Laws/Programs.lean ====
section
/-! SUPPORT. What each program shape does from `DECODE` to its response, when the bus answers: the pure commands,
the commands of one guard span, and one masked update (spec/10_state.md R25, R29). -/

namespace Sys2Proof.Machine

/-- The state in which client `c`'s command has ended with `r`: the events recorded, the free values drawn, the
context as left, and the event taken. -/
def finished (s : State) (c i : Nat) (x : Context) (events : List BusEvent) (draws : Nat) (r : Response)
    (rest : List Input) : State :=
  (({ s with inputs := rest, hist := s.hist ++ events, draws := draws } : State).setContext i x).setClient c
    (.answered r)

section finished
variable {s : State} {c i d : Nat} {x : Context} {events : List BusEvent} {r : Response} {rest : List Input}

@[simp] theorem finished_client : (finished s c i x events d r rest).client c = .answered r := by
  simp [finished]
@[simp] theorem finished_hist : (finished s c i x events d r rest).hist = s.hist ++ events := rfl
@[simp] theorem finished_draws : (finished s c i x events d r rest).draws = d := rfl
@[simp] theorem finished_contexts : (finished s c i x events d r rest).contexts = s.contexts.set i x := rfl

/-- An ended command touched its client and its context only. -/
theorem finished_ended {b : BusIndex} {x0 : Context} {tape : List BusAnswer} (hx : s.contexts[b.toNat]? = some x0)
    (hs : Settled x0 x tape) : EndedWith s (finished s c b.toNat x events d r rest) c b rest x0 tape r events where
  response := finished_client
  hist := rfl
  frame := {
    params := rfl
    faulted := rfl
    inputs := rfl
    clients := fun c' hc => client_setClient_ne _ _ hc
    nCtx := by simp
    contexts := fun j hj => by simp [List.getElem?_set_ne (Ne.symm hj)] }
  context := ⟨x, by simpa using set_getElem?_self hx, hs⟩

end finished

/-! ## The start and the end of a command -/

section start
variable {p : Program} {c n k : Nat} {s : State} {cmd : List Word} {l : Locals} {rest : List Input} {b : BusIndex}
  {x : Context}

/-- `DECODE` of a command that calls a procedure first. -/
theorem run_decode {call : Call} (hd : AtDecode s c (n + 1) rest cmd) (hp : p.bus = some b)
    (hb : b.toNat < s.contexts.length) (hn : p.next s.draws Locals.start none = ⟨l, .call call, 0⟩) :
    run p s = .next (turnSteps p c n
      (({ s with inputs := rest } : State).setClient c (.pending cmd (.acq 1 call) l))) := by
  rw [run_turn p s c (n + 1) rest hd.inputs, turnSteps_succ, advance_decode (l := Locals.start) (cmd := cmd)
    (by simpa using hd.client), decodePhase_bus hp (by simpa using hd.notFaulted) (by simpa using hb)]
  simp [follow, hn]

/-- The last computation of a command. -/
theorem steps_respond {last : Option (Span × SpanResult)} {r : Response} {l' : Locals} {d : Nat}
    (hc : s.client c = .pending cmd (.compute k last) l) (hn : p.next s.draws l last = ⟨l', .respond r, d⟩) :
    turnSteps p c (n + 1) s = ({ s with draws := s.draws + d } : State).setClient c (.answered r) := by
  rw [turnSteps_succ, advance_compute hc]
  simp only [follow, hn, respond]
  exact turnSteps_answered p c n _ r (client_setClient_answered _ _ _)

/-- A computation that goes on to another span. -/
theorem steps_call {last : Option (Span × SpanResult)} {call : Call} {l' : Locals}
    (hc : s.client c = .pending cmd (.compute k last) l) (hn : p.next s.draws l last = ⟨l', .call call, 0⟩) :
    turnSteps p c (n + 1) s = turnSteps p c n (s.setClient c (.pending cmd (.acq (k + 1) call) l')) := by
  rw [turnSteps_succ, advance_compute hc]
  simp [follow, hn]

/-- A command without bus activity answers its result and draws its free values (42_fuel_gauge.md R185 to R189,
43_charger.md R223 to R225). -/
theorem run_pureProgram {result : Nat → Word × Nat} (hd : AtDecode s c (n + 2) rest cmd) :
    run (pureProgram result) s =
      .next (({ s with inputs := rest, draws := s.draws + (result s.draws).2 } : State).setClient c
        (.answered ⟨.ok, (result s.draws).1, []⟩)) := by
  rw [run_turn _ s c (n + 2) rest hd.inputs, turnSteps_succ, advance_decode (l := Locals.start) (cmd := cmd)
    (by simpa using hd.client), decodePhase_pure rfl (by simpa using hd.notFaulted),
    steps_respond (client_setClient_pending _ _ _ _ _) rfl]
  simp [State.setClient, putClient_putClient]

end start

/-! ## Commands of one guard span -/

section single
variable {c n : Nat} {s : State} {cmd : List Word} {rest : List Input} {b : BusIndex} {x : Context}
  {fin : SpanResult → Response} {tape : List BusAnswer}

theorem lt_of_context {xs : List Context} {j : Nat} (h : xs[j]? = some x) : j < xs.length :=
  (List.getElem?_eq_some_iff.mp h).1

/-- A command whose span makes one transaction and whose answer may draw free values (40_bus_primitive.md R121,
R127, 42_fuel_gauge.md R170). -/
theorem run_drawing {span : Span} {t : Transaction} {a : BusAnswer} {finish : Nat → SpanResult → Response × Nat}
    (hr : Ready s c (n + 5) rest cmd b x) (ha : x.answers = a :: tape) (h0 : ∀ b, span ≠ .setOpen b)
    (h1 : span.transaction 1 = some t) (h2 : span.transaction 2 = none) {o : BusOutcome} {buffer : List Byte}
    {d : Nat} (ho : fitAnswer t a s.draws = o) (hb : readBuffer t o (s.draws + fitDraws t a) = buffer)
    (hd : s.draws + fitDraws t a + bufferDraws t o = d) :
    run (drawingProgram b span finish) s = .next (finished s c b.toNat
      { x with
        lock := .free, onBus := none, answers := tape
        wscratch := assembleFrames s.params.scratchSize x.wscratch t
        rscratch := overlay s.params.scratchSize x.rscratch buffer }
      [⟨b.toNat, c, t, o⟩] (d + (finish d (spanResult span o buffer)).2)
      (finish d (spanResult span o buffer)).1 rest) := by
  subst ho hb hd
  rw [run_decode (p := drawingProgram b span finish) hr.toAtDecode rfl (lt_of_context hr.context) rfl]
  rw [show n + 4 = (n + 1) + 3 from rfl,
    steps_single (x := x) (client_setClient_pending _ _ _ _ _) (by simpa using hr.notFaulted)
      (by simpa using hr.context) hr.free hr.isOpen ha h0 h1 h2, steps_respond (afterSpan_client ..) rfl]
  simp [afterSpan, finished, State.setClient, State.setContext, putClient_putClient]

/-- A command whose span makes one transaction (40_bus_primitive.md R121, R127). -/
theorem run_single {span : Span} {t : Transaction} {a : BusAnswer} (hr : Ready s c (n + 5) rest cmd b x)
    (ha : x.answers = a :: tape) (h0 : ∀ b, span ≠ .setOpen b) (h1 : span.transaction 1 = some t)
    (h2 : span.transaction 2 = none) {o : BusOutcome} {buffer : List Byte} {d : Nat}
    (ho : fitAnswer t a s.draws = o) (hb : readBuffer t o (s.draws + fitDraws t a) = buffer)
    (hd : s.draws + fitDraws t a + bufferDraws t o = d) :
    run (spanProgram b span fin) s = .next (finished s c b.toNat
      { x with
        lock := .free, onBus := none, answers := tape
        wscratch := assembleFrames s.params.scratchSize x.wscratch t
        rscratch := overlay s.params.scratchSize x.rscratch buffer }
      [⟨b.toNat, c, t, o⟩] d (fin (spanResult span o buffer)) rest) :=
  run_drawing (finish := fun _ r => (fin r, 0)) hr ha h0 h1 h2 ho hb hd

/-- A command of one read span whose pointer write is answered (40_bus_primitive.md R124). -/
theorem run_read {addr : Byte} {m count : Nat} {junk : List Byte} {a : BusAnswer}
    (hr : Ready s c (n + 6) rest cmd b x) (ha : x.answers = .ok count junk :: a :: tape) {o : BusOutcome}
    {buffer : List Byte} {d : Nat} (ho : fitAnswer (.read m) a s.draws = o)
    (hb : readBuffer (.read m) o (s.draws + fitDraws (.read m) a) = buffer)
    (hd : s.draws + fitDraws (.read m) a + bufferDraws (.read m) o = d) :
    run (spanProgram b (.read addr m) fin) s = .next (finished s c b.toNat
      { x with
        lock := .free, onBus := none, answers := tape
        wscratch := assembleFrames s.params.scratchSize x.wscratch (.write [addr])
        rscratch := overlay s.params.scratchSize x.rscratch buffer }
      [⟨b.toNat, c, .write [addr], .okWrite count⟩, ⟨b.toNat, c, .read m, o⟩] d
      (fin (spanResult (.read addr m) o buffer)) rest) := by
  subst ho hb hd
  rw [run_decode (p := spanProgram b (.read addr m) fin) hr.toAtDecode rfl (lt_of_context hr.context) rfl]
  rw [show n + 5 = (n + 1) + 4 from rfl,
    steps_read (x := x) (client_setClient_pending _ _ _ _ _) (by simpa using hr.notFaulted)
      (by simpa using hr.context) hr.free hr.isOpen ha, steps_respond (afterSpan_client ..) rfl]
  simp [afterSpan, finished, State.setClient, State.setContext, putClient_putClient]

/-- A command of one read span whose pointer write fails (40_bus_primitive.md R124). -/
theorem run_read_pointer_fails {addr : Byte} {m : Nat} (hr : Ready s c (n + 6) rest cmd b x)
    (ha : x.answers = .err :: tape) :
    run (spanProgram b (.read addr m) fin) s = .next (finished s c b.toNat
      { x with
        lock := .free, onBus := none, answers := tape
        wscratch := assembleFrames s.params.scratchSize x.wscratch (.write [addr]) }
      [⟨b.toNat, c, .write [addr], .err⟩] s.draws (fin ⟨.errBusTransport, []⟩) rest) := by
  rw [run_decode (p := spanProgram b (.read addr m) fin) hr.toAtDecode rfl (lt_of_context hr.context) rfl]
  rw [show n + 5 = (n + 2) + 3 from rfl,
    steps_read_pointer_fails (x := x) (client_setClient_pending _ _ _ _ _) (by simpa using hr.notFaulted)
      (by simpa using hr.context) hr.free hr.isOpen ha, steps_respond (afterSpan_client ..) rfl]
  simp [afterSpan, finished, State.setClient, State.setContext, putClient_putClient]

/-- The settled context of a span that ended. -/
theorem settled_after_span (w r : List Byte) :
    Settled x { x with lock := .free, onBus := none, answers := tape, wscratch := w, rscratch := r } tape :=
  ⟨rfl, rfl, rfl, rfl, rfl⟩

end single

/-! ## Masked updates -/

@[simp] theorem valueOf_bytes16 (v : Half) : valueOf (bytes16 v) = v := by
  apply BitVec.eq_of_getLsbD_eq
  intro j hj
  have h : (le16 (v.extractLsb' 0 8) (v.extractLsb' 8 8)).getLsbD j =
      BitVec.getLsbD (w := 8 + 8) (v.extractLsb' 8 8 ++ v.extractLsb' 0 8) j := rfl
  simp only [valueOf, bytes16]
  rw [h, BitVec.getLsbD_append]
  simp [BitVec.getLsbD_extractLsb']
  grind

/-- An update after a read that succeeded: it ends, or it writes the merged value (41_register_codec.md R153, R155). -/
theorem updateStep_read (f : FieldUpdate) (l : Locals) (v : Half) (addr : Byte) (m : Nat) :
    updateStep f l (some (.read addr m, ⟨.ok, bytes16 v⟩)) =
      ({ l with cur := some v, new := some (merge v f.mask f.value) },
        if merge v f.mask f.value = v then .done .ok
        else .call (.write (registerFrame f.reg (merge v f.mask f.value)))) := by
  simp [updateStep]

/-- An update after its write ends with the write's status (41_register_codec.md R158). -/
theorem updateStep_write (f : FieldUpdate) (l : Locals) (frame : List Byte) (r : SpanResult) :
    updateStep f l (some (.write frame, r)) = (l, .done r.status) := rfl

/-- An update after a procedure that failed reports the failure, and makes no further span (41_register_codec.md R153,
R158). -/
@[simp] theorem updateStep_fails (f : FieldUpdate) (l : Locals) (span : Span) :
    updateStep f l (some (span, ⟨.errBusTransport, []⟩)) = (l, .done .errBusTransport) := by
  cases span <;> rfl

/-- An update counts nothing: `STEP` is the probe's (10_state.md R31). -/
theorem updateStep_step (f : FieldUpdate) (l : Locals) (last : Option (Span × SpanResult)) :
    (updateStep f l last).1.step = l.step := by
  unfold updateStep
  split
  · rfl
  · split <;> rfl
  · rfl

/-- A decision sets the client, whatever it was. -/
theorem follow_setClient (c : Nat) (cmd cmd' : List Word) (k : Nat) (d : Decision) (s : State) (ph : Phase)
    (l : Locals) : follow c cmd k d (s.setClient c (.pending cmd' ph l)) = follow c cmd k d s := by
  unfold follow
  cases d.action <;> simp [respond, State.setClient, putClient_putClient]

/-- Two spans one after the other are one change of the state. -/
theorem afterSpan_afterSpan (s : State) (c : Nat) (cmd : List Word) (l l' l'' : Locals) (k k' i : Nat)
    (span span' : Span) (r r' : SpanResult) (x x' : Context) (events events' : List BusEvent) (d d' : Nat)
    (ph : Phase) :
    afterSpan ((afterSpan s c cmd l k i span r x events d).setClient c (.pending cmd ph l'')) c cmd l' k' i span' r' x'
      events' d' = afterSpan s c cmd l' k' i span' r' x' (events ++ events') d' := by
  simp [afterSpan, State.setClient, State.setContext, putClient_putClient]

/-- A command that is answered after a span, and may draw free values for its answer. -/
theorem afterSpan_answered (s : State) (c : Nat) (cmd : List Word) (l : Locals) (k i : Nat) (span : Span)
    (r : SpanResult) (x : Context) (events : List BusEvent) (d d' : Nat) (w : Response) :
    ({ afterSpan s c cmd l k i span r x events d with draws := d' } : State).setClient c (.answered w) =
      (({ s with hist := s.hist ++ events, draws := d' } : State).setContext i x).setClient c (.answered w) := by
  simp [afterSpan, State.setClient, State.setContext, putClient_putClient]

section update
variable {p : Program} {c n k i : Nat} {s : State} {cmd : List Word} {l : Locals} {x : Context}
  {tape : List BusAnswer} {f : FieldUpdate} {v : Half} {count1 count2 : Nat}

/-- One masked update of a field, from the wait for its read's guard, when the bus reports no error: its bus events,
and then the decision `done` that follows an update in this program (41_register_codec.md R153, R155). -/
theorem steps_update {done : Locals → Decision}
    (hc : s.client c = .pending cmd (.acq k ⟨i, .read f.reg 2⟩) l) (hf : s.faulted = false)
    (hx : s.contexts[i]? = some x) (hl : x.lock = .free) (ho : x.isOpen = true)
    (ha : x.answers = updateAnswers f v count1 count2 ++ tape)
    (hread : p.next s.draws l (some (.read f.reg 2, ⟨.ok, bytes16 v⟩)) =
      if merge v f.mask f.value = v then done { l with cur := some v, new := some (merge v f.mask f.value) }
      else ⟨{ l with cur := some v, new := some (merge v f.mask f.value) },
        .call ⟨i, .write (registerFrame f.reg (merge v f.mask f.value))⟩, 0⟩)
    (hwrite : p.next s.draws { l with cur := some v, new := some (merge v f.mask f.value) }
        (some (.write (registerFrame f.reg (merge v f.mask f.value)), ⟨.ok, []⟩)) =
      done { l with cur := some v, new := some (merge v f.mask f.value) }) :
    ∃ m k' x', n ≤ m ∧ Settled x x' tape ∧ turnSteps p c (n + 9) s = turnSteps p c m (follow c cmd k'
      (done { l with cur := some v, new := some (merge v f.mask f.value) })
      (({ s with hist := s.hist ++ updateEvents i c f v count1 count2 } : State).setContext i x')) := by
  have hb : (bytes16 v).length = 2 := rfl
  by_cases hm : merge v f.mask f.value = v
  · have ha' : x.answers = .ok count1 [] :: .ok 2 (bytes16 v) :: tape := by
      simpa [updateAnswers, hm] using ha
    refine ⟨n + 4, k, ?x', by omega, ?settled, ?steps⟩
    case steps =>
      rw [show n + 9 = (n + 4 + 1) + 4 from rfl, steps_read hc hf hx hl ho ha', fitAnswer_read hb, fitDraws_read hb,
        turnSteps_succ, advance_compute (afterSpan_client ..)]
      simp only [readBuffer_read, bufferDraws_read, spanResult, readStatus, afterSpan_draws, Nat.add_zero, if_true]
      rw [hread, if_pos hm, afterSpan, follow_setClient]
      simp only [updateEvents, hm, if_true, List.append_nil]
      rfl
    case settled => exact settled_after_span _ _
  · have ha' : x.answers = .ok count1 [] :: .ok 2 (bytes16 v) :: .ok count2 [] :: tape := by
      simpa [updateAnswers, hm] using ha
    refine ⟨n, k + 1, ?y, le_refl _, ?settledY, ?stepsY⟩
    case stepsY =>
      rw [show n + 9 = (n + 4 + 1) + 4 from rfl, steps_read hc hf hx hl ho ha', fitAnswer_read hb, fitDraws_read hb,
        steps_call (afterSpan_client ..) (l' := { l with cur := some v, new := some (merge v f.mask f.value) })
          (call := ⟨i, .write (registerFrame f.reg (merge v f.mask f.value))⟩)
          (by simp only [readBuffer_read, bufferDraws_read, spanResult, readStatus, afterSpan_draws, Nat.add_zero, if_true]
              rw [hread, if_neg hm]),
        show n + 4 = (n + 1) + 3 from rfl,
        steps_single (a := .ok count2 []) (tape := tape) (client_setClient_pending _ _ _ _ _) (by simpa using hf)
          (by simp only [setClient_contexts, afterSpan_contexts]; exact set_getElem?_self hx) rfl (by exact ho) rfl
          (by simp) rfl rfl,
        turnSteps_succ, advance_compute (afterSpan_client ..)]
      simp only [setClient_draws, afterSpan_draws, fitAnswer_write, readBuffer_write, fitDraws_write,
        bufferDraws_write, bufferDraws_read, Nat.add_zero, spanResult, writeStatus]
      rw [hwrite, afterSpan_afterSpan, afterSpan, follow_setClient]
      simp only [updateEvents, hm, if_false]
      rfl
    case settledY => exact ⟨rfl, rfl, rfl, rfl, rfl⟩

/-- A masked update that fails, from the wait for its read's guard: the command is answered `ERR_BUS_TRANSPORT`, its bus
events are those of the failure, and its context is settled (41_register_codec.md R153, R158). -/
theorem steps_update_fails {answers : List BusAnswer} {events : List BusEvent}
    (hc : s.client c = .pending cmd (.acq k ⟨i, .read f.reg 2⟩) l) (hf : s.faulted = false)
    (hx : s.contexts[i]? = some x) (hl : x.lock = .free) (ho : x.isOpen = true)
    (hu : FailedUpdate i c f answers events) (ha : x.answers = answers ++ tape)
    (hread : ∀ d v, merge v f.mask f.value ≠ v → p.next d l (some (.read f.reg 2, ⟨.ok, bytes16 v⟩)) =
      ⟨{ l with cur := some v, new := some (merge v f.mask f.value) },
        .call ⟨i, .write (registerFrame f.reg (merge v f.mask f.value))⟩, 0⟩)
    (hfail : ∀ d l' span, l'.step = l.step → p.next d l' (some (span, ⟨.errBusTransport, []⟩)) =
      ⟨l', .respond (plain .errBusTransport), 0⟩) :
    ∃ x' d, Settled x x' tape ∧ turnSteps p c (n + 9) s =
      (({ s with hist := s.hist ++ events, draws := d } : State).setContext i x').setClient c
        (.answered (plain .errBusTransport)) := by
  cases hu with
  | pointer =>
    refine ⟨?x1, s.draws, ?settled1, ?steps1⟩
    case steps1 =>
      rw [show n + 9 = (n + 5 + 1) + 3 from rfl, steps_read_pointer_fails hc hf hx hl ho ha,
        steps_respond (afterSpan_client ..) (hfail _ _ _ rfl)]
      exact afterSpan_answered ..
    case settled1 => exact settled_after_span _ _
  | read count a o hr =>
    have hb : fitAnswer (.read 2) a s.draws = o := by
      cases hr with
      | err => rfl
      | count got b0 b1 hg => exact fitAnswer_read (data := [b0, b1]) rfl _ _
    have hs : ∀ buffer, spanResult (.read f.reg 2) o buffer = ⟨.errBusTransport, []⟩ := by
      cases hr with
      | err => exact fun _ => rfl
      | count got b0 b1 hg => simp [spanResult, readStatus, hg]
    refine ⟨?x2, s.draws + fitDraws (.read 2) a + bufferDraws (.read 2) o, ?settled2, ?steps2⟩
    case steps2 =>
      rw [show n + 9 = (n + 4 + 1) + 4 from rfl, steps_read hc hf hx hl ho ha, hb, hs,
        steps_respond (afterSpan_client ..) (hfail _ _ _ rfl)]
      exact afterSpan_answered ..
    case settled2 => exact settled_after_span _ _
  | write count v hm =>
    have hb : (bytes16 v).length = 2 := rfl
    refine ⟨?x3, s.draws, ?settled3, ?steps3⟩
    case steps3 =>
      rw [show n + 9 = (n + 4 + 1) + 4 from rfl, steps_read hc hf hx hl ho ha, fitAnswer_read hb, fitDraws_read hb,
        steps_call (afterSpan_client ..) (l' := { l with cur := some v, new := some (merge v f.mask f.value) })
          (call := ⟨i, .write (registerFrame f.reg (merge v f.mask f.value))⟩)
          (by simp only [readBuffer_read, bufferDraws_read, spanResult, readStatus, afterSpan_draws, Nat.add_zero, if_true]
              exact hread _ v hm),
        show n + 4 = (n + 1) + 3 from rfl,
        steps_single (a := .err) (tape := tape) (client_setClient_pending _ _ _ _ _) (by simpa using hf)
          (by simp only [setClient_contexts, afterSpan_contexts]; exact set_getElem?_self hx) rfl (by exact ho) rfl
          (by simp) rfl rfl, afterSpan_afterSpan, fitAnswer_err]
      simp only [spanResult, writeStatus, readBuffer_read, bufferDraws_read, readBuffer_write, bufferDraws_write,
        fitDraws_write, setClient_draws, afterSpan_draws, Nat.add_zero]
      rw [steps_respond (afterSpan_client ..)
        (hfail _ { l with cur := some v, new := some (merge v f.mask f.value) } _ rfl)]
      exact afterSpan_answered ..
    case settled3 => exact ⟨rfl, rfl, rfl, rfl, rfl⟩

end update

end Sys2Proof.Machine
end

