-- ==== Sys2Proof/Laws/Step.lean ====
section
/-! SUPPORT. What a step can do, said once: the program of each command, the two kinds of step, and the moves one
step of a command can make (spec/10_state.md R28, R29). -/

namespace Sys2Proof.Machine

/-! ## Programs of commands -/

/-- The pseudocode of each command, under the parameters. -/
def programOf (p : Params) : Instr → Program
  | .writeSync b a data => spanProgram b (.write (writeFrame a data)) fun r => plain r.status
  | .readSync b a len => spanProgram b (.read a len.toNat) fun r => withData r.status r.data
  | .seqWwr b nl f1 f2 len delay timeout =>
      spanProgram b (.sequence f1 f2 len.toNat delay (sequenceTimeout nl timeout)) fun r => withData r.status r.data
  | .readReg b a => spanProgram b (.read a 2) fun r => withResult r.status (halfResult (valueOf r.data))
  | .writeReg b a v => spanProgram b (.write (registerFrame a v)) fun r => plain r.status
  | .updateReg b a m v => updateProgram b ⟨a, m, v⟩
  | .fgReadSoc b => fgProgram p b .soc (socTransform p)
  | .fgReadOcv b => fgProgram p b .ocv (ocvTransform p)
  | .fgReadCurrent b => fgProgram p b .current (currentTransform p)
  | .fgReadTemp b => fgProgram p b .temperature (tempTransform p)
  | .fgReadCycle b => fgProgram p b .socCycle (cycleTransform p)
  | .cvtSoc raw => decoderProgram (socTransform p) raw
  | .cvtOcv raw => decoderProgram (ocvTransform p) raw
  | .cvtCurrent raw => decoderProgram (currentTransform p) raw
  | .cvtTemp raw => decoderProgram (tempTransform p) raw
  | .cvtCycle raw => decoderProgram (cycleTransform p) raw
  | .chgSetIcl b mA => updateProgram b (iclField p mA)
  | .chgSetCc b mA => updateProgram b (ccField p mA)
  | .chgSetTopoff b mA => updateProgram b (topoffField p mA)
  | .chgSetAutostop b e => updateProgram b (autostopField p e)
  | .chgSetEnable b e => updateProgram b (chgenField p e)
  | .chgProbe b e icl cc top => updatesProgram b (probeFields p e icl cc top)
  | .cvtIcl mA => encoderProgram (iclEncode mA)
  | .cvtCc mA => encoderProgram (ccEncode mA)
  | .cvtTopoff mA => encoderProgram (topoffEncode mA)
  | .ctxOpen b => spanProgram b (.setOpen true) fun r => plain r.status
  | .ctxClose b => spanProgram b (.setOpen false) fun r => plain r.status

theorem exec_eq_run (i : Instr) (s : State) : exec i s = run (programOf s.params i) s := by cases i <;> rfl

@[simp] theorem programOf_bus (p : Params) (i : Instr) : (programOf p i).bus = i.bus? := by cases i <;> rfl

/-! ## The two kinds of step -/

/-- What an event from outside does. -/
inductive OutsideMove (s : State) : State → Prop where
  /-- Nothing is to come. -/
  | quiet : s.inputs = [] → OutsideMove s s
  /-- An event with no effect: a delivery by a client that is pending or does not exist, an answer for no context, an empty turn, or a
  turn of a client that is idle or has answered, or of one past `DECODE` with an illegal descriptor. -/
  | lost (e : Input) (rest : List Input) : s.inputs = e :: rest → e ≠ .reset → OutsideMove s { s with inputs := rest }
  /-- A client that is not pending submits. -/
  | submit (c : Nat) (descriptor : List Word) (rest : List Input) : s.inputs = .submit c descriptor :: rest →
      c < s.params.nClients → (∀ cmd ph l, s.client c ≠ .pending cmd ph l) →
      OutsideMove s (({ s with inputs := rest } : State).setClient c (.pending descriptor .decode Locals.start))
  /-- The bus gives an answer. -/
  | answer (i : Nat) (a : BusAnswer) (rest : List Input) (x : Context) : s.inputs = .answer i a :: rest →
      s.contexts[i]? = some x →
      OutsideMove s (({ s with inputs := rest } : State).setContext i { x with answers := x.answers ++ [a] })
  /-- Reset. -/
  | reset (rest : List Input) : s.inputs = .reset :: rest → OutsideMove s (resetBlock { s with inputs := rest })
  /-- An illegal descriptor is refused. -/
  | refuse (c n : Nat) (rest : List Input) (cmd : List Word) (l : Locals) : s.inputs = .turn c n :: rest →
      s.client c = .pending cmd .decode l →
      OutsideMove s (respond c (plain (if s.faulted then .faultContract else .errIllegalCommand))
        { s with inputs := rest })

theorem outside_move (s : State) : OutsideMove s (outside s) := by
  unfold outside
  split
  · exact .quiet ‹_›
  · rename_i c d rest hi
    unfold submit
    split_ifs with hn
    · split
      · exact .lost _ _ hi (by simp)
      · rename_i h
        exact .submit c d rest hi hn (fun cmd ph l hc => h cmd ph l (by simpa using hc))
    · exact .lost _ _ hi (by simp)
  · rename_i i a rest hi
    unfold busAnswer
    split
    · exact .lost _ _ hi (by simp)
    · rename_i x hx
      exact .answer i a rest x hi hx
  · exact .reset _ ‹_›
  · exact .lost _ _ ‹_› (by simp)
  · rename_i c n rest _ hi
    unfold refuse
    split
    · rename_i cmd l hc
      exact .refuse c _ rest cmd l hi (by simpa using hc)
    · exact .lost _ _ hi (by simp)

/-- A step is a turn of a legal command, or an event from outside. -/
theorem step_cases {s t : State} (h : step s = .next t) :
    (∃ i c n rest cmd ph l, s.inputs = .turn c n :: rest ∧ s.client c = .pending cmd ph l ∧ decode cmd = .ok i ∧
      t = turnSteps (programOf s.params i) c n { s with inputs := rest }) ∨
    (fetch s = none ∧ OutsideMove s t) := by
  unfold step at h
  split at h
  · rename_i i hf
    left
    unfold fetch at hf
    split at hf
    · rename_i c n rest hi
      split at hf
      · rename_i cmd ph l hc
        split at hf
        · rename_i j hd
          cases hf
          rw [exec_eq_run, run_turn _ s c n rest hi] at h
          cases h
          exact ⟨i, c, n, rest, cmd, ph, l, hi, hc, hd, rfl⟩
        · cases hf
      · cases hf
    · cases hf
  · rename_i hf
    cases h
    exact .inr ⟨hf, outside_move s⟩

/-! ## The moves of a command -/

/-- What one step of client `c`'s command can do. -/
inductive Move (p : Program) (c : Nat) (s : State) : State → Prop where
  /-- The command waits, or there is none. -/
  | wait : Move p c s s
  /-- The fault stands: answered in `DECODE` or at `Acquire` (R276). -/
  | stopped (cmd : List Word) (ph : Phase) (l : Locals) : s.client c = .pending cmd ph l → s.faulted = true →
      (ph = .decode ∨ ∃ k call, ph = .acq k call) → Move p c s (respond c (plain .faultContract) s)
  /-- A contract fault, for a bad index or a closed context, and so of a command with a context (R275). -/
  | fault (cmd : List Word) (ph : Phase) (l : Locals) : s.client c = .pending cmd ph l → s.faulted = false →
      (ph = .decode ∧ p.bus ≠ none ∨ ∃ k call, ph = .acq k call) → Move p c s (raiseFault c s)
  /-- `DECODE` of a command without a context. -/
  | compute (cmd : List Word) (l : Locals) : s.client c = .pending cmd .decode l → s.faulted = false →
      p.bus = none → Move p c s (s.setClient c (.pending cmd (.compute 0 none) l))
  /-- `DECODE` of a command on an existing context. -/
  | start (cmd : List Word) (l : Locals) (b : BusIndex) : s.client c = .pending cmd .decode l → s.faulted = false →
      p.bus = some b → b.toNat < s.contexts.length → Move p c s (follow c cmd 0 (p.next s.draws l none) s)
  /-- A computation. -/
  | next (cmd : List Word) (k : Nat) (last : Option (Span × SpanResult)) (l : Locals) :
      s.client c = .pending cmd (.compute k last) l → Move p c s (follow c cmd k (p.next s.draws l last) s)
  /-- `CTX_OPEN` or `CTX_CLOSE` takes the guard and makes its change. -/
  | setOpen (cmd : List Word) (k i : Nat) (b : Bool) (l : Locals) (x : Context) :
      s.client c = .pending cmd (.acq k ⟨i, .setOpen b⟩) l → s.faulted = false → s.contexts[i]? = some x →
      x.lock = .free →
      Move p c s ((s.setContext i { x with lock := .held c, isOpen := b }).setClient c
        (.pending cmd (.rel k ⟨i, .setOpen b⟩ ⟨.ok, []⟩) l))
  /-- The guard is taken and the first transaction handed to the bus. -/
  | handOver (cmd : List Word) (k : Nat) (call : Call) (l : Locals) (x : Context) (t : Transaction) :
      s.client c = .pending cmd (.acq k call) l → s.faulted = false → s.contexts[call.ctx]? = some x →
      x.lock = .free → x.isOpen = true → (∀ b, call.span ≠ .setOpen b) → call.span.transaction 1 = some t →
      Move p c s ((s.setContext call.ctx (Machine.handOver s.params call.span t { x with lock := .held c })).setClient c
        (.pending cmd (.bus k 1 call) l))
  /-- A pointer write was answered: the read of the same span is handed to the bus. -/
  | second (cmd : List Word) (k t : Nat) (call : Call) (l : Locals) (x : Context) (txn txn' : Transaction)
      (a : BusAnswer) (rest : List BusAnswer) (count : Nat) :
      s.client c = .pending cmd (.bus k t call) l → s.contexts[call.ctx]? = some x →
      call.span.transaction t = some txn → call.span.transaction (t + 1) = some txn' → x.answers = a :: rest →
      fitAnswer txn a s.draws = .okWrite count →
      Move p c s ((({ s with
          hist := s.hist ++ [⟨call.ctx, c, txn, .okWrite count⟩]
          draws := s.draws + fitDraws txn a + bufferDraws txn (.okWrite count) } : State).setContext call.ctx
        (Machine.handOver s.params call.span txn'
          (takeAnswer s.params rest (readBuffer txn (.okWrite count) (s.draws + fitDraws txn a)) x))).setClient c
        (.pending cmd (.bus k (t + 1) call) l))
  /-- The last transaction of the span was answered. -/
  | answered (cmd : List Word) (k t : Nat) (call : Call) (l : Locals) (x : Context) (txn : Transaction)
      (a : BusAnswer) (rest : List BusAnswer) (o : BusOutcome) (buffer : List Byte) :
      s.client c = .pending cmd (.bus k t call) l → s.contexts[call.ctx]? = some x →
      call.span.transaction t = some txn → x.answers = a :: rest → fitAnswer txn a s.draws = o →
      readBuffer txn o (s.draws + fitDraws txn a) = buffer →
      Move p c s ((({ s with
          hist := s.hist ++ [⟨call.ctx, c, txn, o⟩]
          draws := s.draws + fitDraws txn a + bufferDraws txn o } : State).setContext call.ctx
        (takeAnswer s.params rest buffer x)).setClient c
        (.pending cmd (.rel k call (spanResult call.span o buffer)) l))
  /-- The guard is freed. -/
  | release (cmd : List Word) (k : Nat) (call : Call) (r : SpanResult) (l : Locals) (x : Context) :
      s.client c = .pending cmd (.rel k call r) l → s.contexts[call.ctx]? = some x →
      Move p c s ((s.setContext call.ctx (releaseLock c x)).setClient c
        (.pending cmd (.compute k (some (call.span, r))) l))
  /-- There is no such context, and so no guard to free. -/
  | releaseNone (cmd : List Word) (k : Nat) (call : Call) (r : SpanResult) (l : Locals) :
      s.client c = .pending cmd (.rel k call r) l → s.contexts[call.ctx]? = none →
      Move p c s (s.setClient c (.pending cmd (.compute k (some (call.span, r))) l))

/-- Every step of a command is one of these moves. -/
theorem advance_move (p : Program) (c : Nat) (s : State) : Move p c s (advance p c s) := by
  unfold advance
  split
  · exact .wait
  · exact .wait
  · rename_i cmd ph l hc
    split
    · unfold decodePhase
      split
      · exact .stopped _ _ _ hc ‹_› (.inl rfl)
      · rename_i hf
        have hf : s.faulted = false := by simpa using hf
        split
        · exact .compute _ _ hc hf ‹_›
        · rename_i b hb
          split
          · exact .fault _ _ _ hc hf (.inl ⟨rfl, by simp [hb]⟩)
          · exact .start _ _ b hc hf hb (by omega)
    · rename_i k call
      unfold acquirePhase
      split
      · exact .stopped _ _ _ hc ‹_› (.inr ⟨_, _, rfl⟩)
      · rename_i hf
        have hf : s.faulted = false := by simpa using hf
        split
        · exact .fault _ _ _ hc hf (.inr ⟨_, _, rfl⟩)
        · rename_i x hx
          split
          · exact .wait
          · rename_i hl
            split
            · rename_i b _ hs
              obtain ⟨i, span⟩ := call
              simp only at hs
              subst hs
              exact .setOpen _ _ _ _ _ _ hc hf hx hl
            · exact .wait
            · rename_i ht hn
              split
              · exact .handOver _ _ _ _ _ _ hc hf hx hl ‹_› (fun b hb => hn b hb) ht
              · exact .fault _ _ _ hc hf (.inr ⟨_, _, rfl⟩)
    · rename_i k t call
      unfold busPhase
      split
      · rename_i x txn hx ht
        split
        · exact .wait
        · rename_i a rest ha
          simp only
          split
          · rename_i txn' count ht' ho
            rw [ho]
            exact .second _ _ _ _ _ _ _ _ _ _ _ hc hx ht ht' ha ho
          · exact .answered _ _ _ _ _ _ _ _ _ _ _ hc hx ht ha rfl rfl
      · exact .wait
    · rename_i k call r
      unfold releasePhase
      split
      · exact .releaseNone _ _ _ _ _ hc ‹_›
      · exact .release _ _ _ _ _ _ hc ‹_›
    · rename_i k last
      exact .next _ _ _ _ hc

/-- A property that every move of a command keeps is kept by its turn. -/
theorem turnSteps_moves (p : Program) (c : Nat) (P : State → Prop)
    (h : ∀ s t, P s → Move p c s t → P t) : ∀ n s, P s → P (turnSteps p c n s) :=
  turnSteps_induction p c P fun s hs => h s _ hs (advance_move p c s)

/-- What a decision leaves: the client waits for a guard, or has answered, and only the draws differ besides. -/
theorem follow_cases (c : Nat) (cmd : List Word) (k : Nat) (d : Decision) (s : State) :
    (∃ call, d.action = .call call ∧ follow c cmd k d s =
      ({ s with draws := s.draws + d.draws } : State).setClient c (.pending cmd (.acq (k + 1) call) d.locals)) ∨
    ∃ r, d.action = .respond r ∧ follow c cmd k d s =
      ({ s with draws := s.draws + d.draws } : State).setClient c (.answered r) := by
  unfold follow
  cases h : d.action with
  | call call => exact .inl ⟨call, rfl, rfl⟩
  | respond r => exact .inr ⟨r, rfl, rfl⟩

end Sys2Proof.Machine
end

