-- ==== Sys2Proof/Laws/Guard.lean ====
section
/-! SUPPORT. When the guard discipline stays (spec/10_state.md R24 to R26, R29): after a change of one client, and
after a change of one client with the context of its span. -/

namespace Sys2Proof.Machine

/-- A client changes outside the bus and keeps its span, and no context changes: the guard discipline stays. -/
theorem guard_client {s t : State} {c : Nat} {y : Client} (h : GuardInv s) (hn : c < s.params.nClients) (hy : y ≠ .idle)
    (hcl : t.clients = putClient s.clients c y) (hx : t.contexts = s.contexts) (hp : t.params = s.params)
    (h1 : ∀ i, i < s.contexts.length → (spanContext? y = some i ↔ spanContext? (s.client c) = some i))
    (h2 : busContext? y = none) (h2' : busContext? (s.client c) = none) : GuardInv t := by
  have hc : ∀ c', t.client c' = if c' = c then y else s.client c' := fun c' => by
    rw [← client_setClient s c c' y hy]; simp [State.client, State.setClient, hcl]
  refine ⟨hcl ▸ putClient_canonical h.canonical c y, fun c' g => ?_, ?_, ?_, ?_, by rw [hx, hp]; exact h.scratch⟩
  · rw [hc c'] at g
    rw [hp]
    split at g
    · subst c'; exact hn
    · exact h.exist c' g
  · intro i x hi c'
    rw [hx] at hi
    rw [h.guard i x hi c', hc c']
    split
    · subst c'; exact (h1 i (lt_of_context hi)).symm
    · rfl
  · intro i x hi
    rw [hx] at hi
    rw [h.port i x hi]
    constructor
    · intro g c'; rw [hc c']; split
      · rw [h2]; simp
      · exact g c'
    · intro g c'; have := g c'; rw [hc c'] at this; split at this
      · subst c'; rw [h2']; simp
      · exact this
  · intro c' cmd k tt call l hb
    rw [hx, hp]
    rw [hc c'] at hb
    split at hb
    · subst hb; simp [busContext?] at h2
    · exact h.request c' cmd k tt call l hb

/-- A client and the context of its span change together: the guard discipline stays, where the new context is held
exactly by the client if it is in the span, no other client is in a span of it, and its request is the client's. -/
theorem guard_context {s t : State} {c i : Nat} {y : Client} {x x' : Context} (h : GuardInv s)
    (hn : c < s.params.nClients) (hy : y ≠ .idle)
    (hcl : t.clients = putClient s.clients c y) (hi : s.contexts[i]? = some x)
    (hx : t.contexts = s.contexts.set i x') (hp : t.params = s.params)
    (hoth : spanContext? y = some i ∨ spanContext? y = none)
    (hoth' : spanContext? (s.client c) = some i ∨ spanContext? (s.client c) = none)
    (hbs : busContext? y = some i ∨ busContext? y = none)
    (hbs' : busContext? (s.client c) = some i ∨ busContext? (s.client c) = none)
    (he : x'.endpoint = x.endpoint) (hr : x'.rscratch.length = s.params.scratchSize)
    (hw : x'.wscratch.length = s.params.scratchSize)
    (hlock : ∀ c', x'.lock = .held c' ↔ c' = c ∧ spanContext? y = some i)
    (hexcl : ∀ c', c' ≠ c → spanContext? (s.client c') ≠ some i)
    (hport : x'.onBus = none ↔ busContext? y = none)
    (hreq : ∀ cmd k tt call l, y = .pending cmd (.bus k tt call) l → call.ctx = i ∧
      ∃ txn, call.span.transaction tt = some txn ∧ x'.onBus = some ⟨x.endpoint, txn, call.span.timeout s.params⟩) :
    GuardInv t := by
  have hc : ∀ c', t.client c' = if c' = c then y else s.client c' := fun c' => by
    rw [← client_setClient s c c' y hy]; simp [State.client, State.setClient, hcl]
  have hb : ∀ w j, busContext? w = some j → spanContext? w = some j := by
    intro w j; unfold busContext? spanContext?; split <;> simp_all
  have hget : ∀ j z, t.contexts[j]? = some z → (j = i ∧ z = x') ∨ (j ≠ i ∧ s.contexts[j]? = some z) := by
    intro j z hz
    rw [hx] at hz
    by_cases hj : j = i
    · subst hj; rw [set_getElem?_self hi] at hz; exact .inl ⟨rfl, (Option.some.inj hz).symm⟩
    · rw [List.getElem?_set_ne (Ne.symm hj)] at hz; exact .inr ⟨hj, hz⟩
  refine ⟨hcl ▸ putClient_canonical h.canonical c y, fun c' g => ?_, ?_, ?_, ?_, ?_⟩
  · rw [hc c'] at g
    rw [hp]
    split at g
    · subst c'; exact hn
    · exact h.exist c' g
  · intro j z hz c'
    rcases hget j z hz with ⟨rfl, rfl⟩ | ⟨hj, hz⟩
    · rw [hlock c', hc c']
      by_cases e : c' = c
      · simp [e]
      · simp [e, hexcl c' e]
    · rw [h.guard j z hz c', hc c']
      split
      · subst c'
        have : ∀ w, (w = some i ∨ w = none) → ¬w = some j := by rintro w (rfl | rfl) <;> simp [Ne.symm hj]
        simp [this _ hoth, this _ hoth']
      · rfl
  · intro j z hz
    rcases hget j z hz with ⟨rfl, rfl⟩ | ⟨hj, hz⟩
    · rw [hport]
      constructor
      · intro g c'; rw [hc c']; split
        · rw [g]; simp
        · rename_i e; intro hh; exact hexcl c' e (hb _ _ hh)
      · intro g
        have := g c
        rw [hc c, if_pos rfl] at this
        rcases hbs with hh | hh
        · exact absurd hh this
        · exact hh
    · rw [h.port j z hz]
      have : ∀ w, (w = some i ∨ w = none) → ¬ w = some j := by rintro w (rfl | rfl) <;> simp [Ne.symm hj]
      constructor
      · intro g c'; rw [hc c']; split
        · exact this _ hbs
        · exact g c'
      · intro g c'; have g := g c'; rw [hc c'] at g; split at g
        · subst c'; exact this _ hbs'
        · exact g
  · intro c' cmd k tt call l hbb
    rw [hc c'] at hbb
    split at hbb
    · obtain ⟨e, txn, h1, h2⟩ := hreq _ _ _ _ _ hbb
      rw [hx, hp, e]
      exact ⟨x', txn, set_getElem?_self hi, h1, by rw [h2, he]⟩
    · rename_i e
      obtain ⟨z, txn, h1, h2, h3⟩ := h.request c' cmd k tt call l hbb
      have : call.ctx ≠ i := by
        intro hh; apply hexcl c' e; rw [hbb, ← hh]; rfl
      rw [hx, hp, List.getElem?_set_ne (Ne.symm this)]
      exact ⟨z, txn, h1, h2, h3⟩
  · intro z hz
    rw [hp]
    rw [hx] at hz
    rcases List.mem_or_eq_of_mem_set hz with hz | rfl
    · exact h.scratch z hz
    · exact ⟨hr, hw⟩

end Sys2Proof.Machine
end

