-- ==== Sys2Proof/Laws/PerInstr.lean ====
section
/-! SUPPORT. A family over the commands as syntax: the descriptor of a command begins with a header that its row of
the opcode map selects, and that carries its context (spec/30_encoding.md R91, R96). -/

namespace Sys2Proof.Laws.HeaderMatches

/-- The first word of a command's descriptor meets `h & mask = match` of the command's own row, and its `BUS` field is
the command's context (R91, R96). -/
def Statement (i : Instr) : Prop :=
  ∃ h ext, encode i = h :: ext ∧ h &&& i.opcode.mask = i.opcode.pattern ∧ ∀ b, i.bus? = some b → busField h = b

/-- A descriptor whose header is built from the fields its opcode uses. -/
theorem of_header {i : Instr} {bus : BusIndex} {f : Bool} {a b : Byte} {ext : List Word}
    (he : encode i = headerFor i.opcode bus f a b :: ext) (hb : ∀ c, i.bus? = some c → c = bus)
    (h1 : i.opcode.uses.1 = false → bus = 0) (h2 : i.opcode.uses.2.1 = false → f = false)
    (h3 : i.opcode.uses.2.2.1 = false → a = 0) (h4 : i.opcode.uses.2.2.2 = false → b = 0) : Statement i :=
  ⟨_, ext, he, by simpa [Opcode.selects] using selects_headerFor i.opcode h1 h2 h3 h4,
    fun c hc => by rw [busField_headerFor, hb c hc]⟩

theorem writeSync (a b c) : Statement (.writeSync a b c) :=
  of_header rfl (by simp [Instr.bus?]) (by simp [Instr.opcode, Opcode.uses]) (by simp [Instr.opcode, Opcode.uses])
    (by simp [Instr.opcode, Opcode.uses]) (by simp [Instr.opcode, Opcode.uses])

theorem readSync (a b c) : Statement (.readSync a b c) :=
  of_header rfl (by simp [Instr.bus?]) (by simp [Instr.opcode, Opcode.uses]) (by simp [Instr.opcode, Opcode.uses])
    (by simp [Instr.opcode, Opcode.uses]) (by simp [Instr.opcode, Opcode.uses])

theorem seqWwr (a b c d e f g) : Statement (.seqWwr a b c d e f g) :=
  of_header rfl (by simp [Instr.bus?]) (by simp [Instr.opcode, Opcode.uses]) (by simp [Instr.opcode, Opcode.uses])
    (by simp [Instr.opcode, Opcode.uses]) (by simp [Instr.opcode, Opcode.uses])

theorem readReg (a b) : Statement (.readReg a b) :=
  of_header rfl (by simp [Instr.bus?]) (by simp [Instr.opcode, Opcode.uses]) (by simp [Instr.opcode, Opcode.uses])
    (by simp [Instr.opcode, Opcode.uses]) (by simp [Instr.opcode, Opcode.uses])

theorem writeReg (a b c) : Statement (.writeReg a b c) :=
  of_header rfl (by simp [Instr.bus?]) (by simp [Instr.opcode, Opcode.uses]) (by simp [Instr.opcode, Opcode.uses])
    (by simp [Instr.opcode, Opcode.uses]) (by simp [Instr.opcode, Opcode.uses])

theorem updateReg (a b c d) : Statement (.updateReg a b c d) :=
  of_header rfl (by simp [Instr.bus?]) (by simp [Instr.opcode, Opcode.uses]) (by simp [Instr.opcode, Opcode.uses])
    (by simp [Instr.opcode, Opcode.uses]) (by simp [Instr.opcode, Opcode.uses])

theorem fgReadSoc (a) : Statement (.fgReadSoc a) :=
  of_header rfl (by simp [Instr.bus?]) (by simp [Instr.opcode, Opcode.uses]) (by simp [Instr.opcode, Opcode.uses])
    (by simp [Instr.opcode, Opcode.uses]) (by simp [Instr.opcode, Opcode.uses])

theorem fgReadOcv (a) : Statement (.fgReadOcv a) :=
  of_header rfl (by simp [Instr.bus?]) (by simp [Instr.opcode, Opcode.uses]) (by simp [Instr.opcode, Opcode.uses])
    (by simp [Instr.opcode, Opcode.uses]) (by simp [Instr.opcode, Opcode.uses])

theorem fgReadCurrent (a) : Statement (.fgReadCurrent a) :=
  of_header rfl (by simp [Instr.bus?]) (by simp [Instr.opcode, Opcode.uses]) (by simp [Instr.opcode, Opcode.uses])
    (by simp [Instr.opcode, Opcode.uses]) (by simp [Instr.opcode, Opcode.uses])

theorem fgReadTemp (a) : Statement (.fgReadTemp a) :=
  of_header rfl (by simp [Instr.bus?]) (by simp [Instr.opcode, Opcode.uses]) (by simp [Instr.opcode, Opcode.uses])
    (by simp [Instr.opcode, Opcode.uses]) (by simp [Instr.opcode, Opcode.uses])

theorem fgReadCycle (a) : Statement (.fgReadCycle a) :=
  of_header rfl (by simp [Instr.bus?]) (by simp [Instr.opcode, Opcode.uses]) (by simp [Instr.opcode, Opcode.uses])
    (by simp [Instr.opcode, Opcode.uses]) (by simp [Instr.opcode, Opcode.uses])

theorem cvtSoc (a) : Statement (.cvtSoc a) :=
  of_header rfl (by simp [Instr.bus?]) (by simp [Instr.opcode, Opcode.uses]) (by simp [Instr.opcode, Opcode.uses])
    (by simp [Instr.opcode, Opcode.uses]) (by simp [Instr.opcode, Opcode.uses])

theorem cvtOcv (a) : Statement (.cvtOcv a) :=
  of_header rfl (by simp [Instr.bus?]) (by simp [Instr.opcode, Opcode.uses]) (by simp [Instr.opcode, Opcode.uses])
    (by simp [Instr.opcode, Opcode.uses]) (by simp [Instr.opcode, Opcode.uses])

theorem cvtCurrent (a) : Statement (.cvtCurrent a) :=
  of_header rfl (by simp [Instr.bus?]) (by simp [Instr.opcode, Opcode.uses]) (by simp [Instr.opcode, Opcode.uses])
    (by simp [Instr.opcode, Opcode.uses]) (by simp [Instr.opcode, Opcode.uses])

theorem cvtTemp (a) : Statement (.cvtTemp a) :=
  of_header rfl (by simp [Instr.bus?]) (by simp [Instr.opcode, Opcode.uses]) (by simp [Instr.opcode, Opcode.uses])
    (by simp [Instr.opcode, Opcode.uses]) (by simp [Instr.opcode, Opcode.uses])

theorem cvtCycle (a) : Statement (.cvtCycle a) :=
  of_header rfl (by simp [Instr.bus?]) (by simp [Instr.opcode, Opcode.uses]) (by simp [Instr.opcode, Opcode.uses])
    (by simp [Instr.opcode, Opcode.uses]) (by simp [Instr.opcode, Opcode.uses])

theorem chgSetIcl (a b) : Statement (.chgSetIcl a b) :=
  of_header rfl (by simp [Instr.bus?]) (by simp [Instr.opcode, Opcode.uses]) (by simp [Instr.opcode, Opcode.uses])
    (by simp [Instr.opcode, Opcode.uses]) (by simp [Instr.opcode, Opcode.uses])

theorem chgSetCc (a b) : Statement (.chgSetCc a b) :=
  of_header rfl (by simp [Instr.bus?]) (by simp [Instr.opcode, Opcode.uses]) (by simp [Instr.opcode, Opcode.uses])
    (by simp [Instr.opcode, Opcode.uses]) (by simp [Instr.opcode, Opcode.uses])

theorem chgSetTopoff (a b) : Statement (.chgSetTopoff a b) :=
  of_header rfl (by simp [Instr.bus?]) (by simp [Instr.opcode, Opcode.uses]) (by simp [Instr.opcode, Opcode.uses])
    (by simp [Instr.opcode, Opcode.uses]) (by simp [Instr.opcode, Opcode.uses])

theorem chgSetAutostop (a b) : Statement (.chgSetAutostop a b) :=
  of_header rfl (by simp [Instr.bus?]) (by simp [Instr.opcode, Opcode.uses]) (by simp [Instr.opcode, Opcode.uses])
    (by simp [Instr.opcode, Opcode.uses]) (by simp [Instr.opcode, Opcode.uses])

theorem chgSetEnable (a b) : Statement (.chgSetEnable a b) :=
  of_header rfl (by simp [Instr.bus?]) (by simp [Instr.opcode, Opcode.uses]) (by simp [Instr.opcode, Opcode.uses])
    (by simp [Instr.opcode, Opcode.uses]) (by simp [Instr.opcode, Opcode.uses])

theorem chgProbe (a b c d e) : Statement (.chgProbe a b c d e) :=
  of_header rfl (by simp [Instr.bus?]) (by simp [Instr.opcode, Opcode.uses]) (by simp [Instr.opcode, Opcode.uses])
    (by simp [Instr.opcode, Opcode.uses]) (by simp [Instr.opcode, Opcode.uses])

theorem cvtIcl (a) : Statement (.cvtIcl a) :=
  of_header rfl (by simp [Instr.bus?]) (by simp [Instr.opcode, Opcode.uses]) (by simp [Instr.opcode, Opcode.uses])
    (by simp [Instr.opcode, Opcode.uses]) (by simp [Instr.opcode, Opcode.uses])

theorem cvtCc (a) : Statement (.cvtCc a) :=
  of_header rfl (by simp [Instr.bus?]) (by simp [Instr.opcode, Opcode.uses]) (by simp [Instr.opcode, Opcode.uses])
    (by simp [Instr.opcode, Opcode.uses]) (by simp [Instr.opcode, Opcode.uses])

theorem cvtTopoff (a) : Statement (.cvtTopoff a) :=
  of_header rfl (by simp [Instr.bus?]) (by simp [Instr.opcode, Opcode.uses]) (by simp [Instr.opcode, Opcode.uses])
    (by simp [Instr.opcode, Opcode.uses]) (by simp [Instr.opcode, Opcode.uses])

theorem ctxOpen (a) : Statement (.ctxOpen a) :=
  of_header rfl (by simp [Instr.bus?]) (by simp [Instr.opcode, Opcode.uses]) (by simp [Instr.opcode, Opcode.uses])
    (by simp [Instr.opcode, Opcode.uses]) (by simp [Instr.opcode, Opcode.uses])

theorem ctxClose (a) : Statement (.ctxClose a) :=
  of_header rfl (by simp [Instr.bus?]) (by simp [Instr.opcode, Opcode.uses]) (by simp [Instr.opcode, Opcode.uses])
    (by simp [Instr.opcode, Opcode.uses]) (by simp [Instr.opcode, Opcode.uses])

end Sys2Proof.Laws.HeaderMatches
end

