-- ==== Sys2Proof/Tests/Slice0.lean ====
section
/-! SUPPORT. Tests. Expected values are those of spec/95_test_vectors.md and of the worked examples of
spec/30_encoding.md R107, or hand calculation from the rule a test names. Each obligation that has hypotheses has a
theorem `witness_<its name>` with a concrete state and operands that meet them. -/

namespace Sys2Proof.Machine.Tests

/-! ## Well-formedness: an ill-formed term for each check, and the bounds (30_encoding.md R98) -/

theorem test_payload_255_wellFormed : (Instr.writeSync 0 0 (List.replicate 255 7)).wellFormed = true := by decide +kernel
theorem test_payload_256_refused : (Instr.writeSync 0 0 (List.replicate 256 7)).wellFormed = false := by decide +kernel
theorem test_readSync_len_0_refused : (Instr.readSync 0 0 0).wellFormed = false := by decide
theorem test_readSync_len_255_wellFormed : (Instr.readSync 0 0 255).wellFormed = true := by decide
theorem test_frame1_empty_refused : (Instr.seqWwr 0 false [] [1] 1 0 0).wellFormed = false := by decide
theorem test_frame1_256_refused :
    (Instr.seqWwr 0 false (List.replicate 256 1) [1] 1 0 0).wellFormed = false := by decide +kernel
theorem test_frame2_empty_refused : (Instr.seqWwr 0 false [1] [] 1 0 0).wellFormed = false := by decide
theorem test_frame2_256_refused :
    (Instr.seqWwr 0 false [1] (List.replicate 256 1) 1 0 0).wellFormed = false := by decide +kernel
theorem test_readLength_0_refused : (Instr.seqWwr 0 false [1] [1] 0 0 0).wellFormed = false := by decide

/-! ## Decoding of words written out by hand: OPC 31:24, BUS 23:20, F 16, A 15:8, B 7:0 (R91, 95 section 3.1) -/

theorem test_decode_writeSync :
    decode [0x01002005, 0x04030201, 0x00000005] = .ok (.writeSync 0 0x20 [1, 2, 3, 4, 5]) := by decide
theorem test_decode_writeSync_pointer : decode [0x01000500] = .ok (.writeSync 0 0x05 []) := by decide
theorem test_decode_readSync : decode [0x02000102] = .ok (.readSync 0 0x01 2) := by decide
theorem test_decode_seqWwr :
    decode [0x03000302, 0x00000001, 0x00000000, 0x00000064, 0x0000078C, 0x0000008D] =
      .ok (.seqWwr 0 false [0x8C, 0x07, 0x00] [0x8D] 2 0 100) := by decide
theorem test_decode_seqWwr_noLimit :
    decode [0x03010302, 0x00000001, 0x00000000, 0x00000000, 0x0000878C, 0x0000008D] =
      .ok (.seqWwr 0 true [0x8C, 0x87, 0x00] [0x8D] 2 0 0) := by decide
theorem test_decode_readReg : decode [0x10000100] = .ok (.readReg 0 0x01) := by decide
theorem test_decode_writeReg : decode [0x11101300, 0x00001234] = .ok (.writeReg 1 0x13 0x1234) := by decide
theorem test_decode_updateReg : decode [0x12000100, 0x00F00A5A] = .ok (.updateReg 0 0x01 0x00F0 0x0A5A) := by decide
theorem test_decode_fgReadSoc : decode [0x20000000] = .ok (.fgReadSoc 0) := by decide
theorem test_decode_fgReadOcv : decode [0x21100000] = .ok (.fgReadOcv 1) := by decide
theorem test_decode_fgReadCurrent : decode [0x22F00000] = .ok (.fgReadCurrent 15) := by decide
theorem test_decode_fgReadTemp : decode [0x23000000] = .ok (.fgReadTemp 0) := by decide
theorem test_decode_fgReadCycle : decode [0x24000000] = .ok (.fgReadCycle 0) := by decide
theorem test_decode_cvtSoc : decode [0x28000000, 0x00001E00] = .ok (.cvtSoc 0x1E00) := by decide
theorem test_decode_cvtOcv : decode [0x29000000, 0x00001800] = .ok (.cvtOcv 0x1800) := by decide
theorem test_decode_cvtCurrent : decode [0x2A000000, 0x00008800] = .ok (.cvtCurrent 0x8800) := by decide
theorem test_decode_cvtTemp : decode [0x2B000000, 0x000099F0] = .ok (.cvtTemp 0x99F0) := by decide
theorem test_decode_cvtCycle : decode [0x2C000000, 0x0000012A] = .ok (.cvtCycle 0x012A) := by decide
theorem test_decode_chgSetIcl : decode [0x30100000, 0x000001F4] = .ok (.chgSetIcl 1 500) := by decide
theorem test_decode_chgSetCc : decode [0x31100000, 0x000003E8] = .ok (.chgSetCc 1 1000) := by decide
theorem test_decode_chgSetTopoff : decode [0x32100000, 0x000000C8] = .ok (.chgSetTopoff 1 200) := by decide
theorem test_decode_chgSetAutostop : decode [0x33110000] = .ok (.chgSetAutostop 1 true) := by decide
theorem test_decode_chgSetEnable : decode [0x34100000] = .ok (.chgSetEnable 1 false) := by decide
theorem test_decode_chgProbe :
    decode [0x35110000, 0x03E801F4, 0x000000C8] = .ok (.chgProbe 1 true 500 1000 200) := by decide
theorem test_decode_cvtIcl : decode [0x38000000, 0x00000CE4] = .ok (.cvtIcl 3300) := by decide
theorem test_decode_cvtCc : decode [0x39000000, 0x00000DAB] = .ok (.cvtCc 3499) := by decide
theorem test_decode_cvtTopoff : decode [0x3A000000, 0x0000031F] = .ok (.cvtTopoff 799) := by decide
theorem test_decode_ctxOpen : decode [0x40100000] = .ok (.ctxOpen 1) := by decide
theorem test_decode_ctxClose : decode [0x41100000] = .ok (.ctxClose 1) := by decide

/-! ## Illegal descriptors (95 section 3.1) -/

theorem test_illegal_opc_00 : decode [0x00000000] = .error .unassignedOpcode := by decide
theorem test_illegal_opc_FF : decode [0xFF000000] = .error .unassignedOpcode := by decide
theorem test_illegal_readSync_len_0 : decode [0x02000000] = .error .illegalLength := by decide
theorem test_illegal_cvt_bus : decode [0x28100000, 0x00001E00] = .error .unusedField := by decide
theorem test_illegal_readReg_b : decode [0x10000101] = .error .unusedField := by decide
theorem test_illegal_readReg_rsv : decode [0x10020100] = .error .unusedField := by decide
theorem test_illegal_writeReg_short : decode [0x11000100] = .error .wordCount := by decide
theorem test_illegal_writeReg_reserved : decode [0x11000100, 0x00011234] = .error .reservedBits := by decide
theorem test_illegal_padding : decode [0x01000502, 0x00FF1234] = .error .padding := by decide
theorem test_illegal_frame1_padding :
    decode [0x03000302, 0x00000001, 0x00000000, 0x00000064, 0x0100078C, 0x0000008D] = .error .padding := by decide
theorem test_illegal_frame2_padding :
    decode [0x03000302, 0x00000001, 0x00000000, 0x00000064, 0x0000078C, 0x0000018D] = .error .padding := by decide
theorem test_illegal_x1_reserved :
    decode [0x03000302, 0x00000101, 0x00000000, 0x00000064, 0x0000078C, 0x0000008D] = .error .reservedBits := by decide
theorem test_illegal_len2_0 :
    decode [0x03000302, 0x00000000, 0x00000000, 0x00000064, 0x0000078C] = .error .illegalLength := by decide
/-- This and the next are the model's choice, not the spec's (entry 21). -/
theorem test_illegal_empty : decode [] = .error .emptyDescriptor := by decide
theorem test_illegal_bytes : decodeBytes [0x00, 0x00, 0x00, 0x40, 0x00] = .error .notWholeWords := by decide

/-! ## Rows of the opcode table as the host numbers them -/

theorem test_table_writeReg : decodeTableWord 32 0x11000000 = some (.writeReg 0 0 0) := by decide
theorem test_table_probe_words : decodeTableWord 96 0x000000C803E801F435110000 =
    some (.chgProbe 1 true 500 1000 200) := by decide
/-! ## The converter (95 sections 2, 3.4 and 3.5) -/

theorem test_soc_decode :
    [0x0000, 0x001A, 0x1E80, 0x7FFF, 0x8000, 0xFFFF].map socDecode = [0, 1, 305, 1279, 1280, 2559] := by decide
theorem test_ocv_decode :
    [0x0003, 0x1F33, 0x3FFF, 0x6000, 0x8580, 0xFFFF].map (ocvDecode false) =
      [1, 3899, 7999, 4000, 687, 7999] := by decide
theorem test_current_decode :
    [0x0800, 0x8800, 0x6000, 0x8000, 0x9FFF, 0xFFFF].map (currentDecode false 0) =
      [1000, -1000, 0, 0, -3999, -3999] := by decide
theorem test_temp_decode :
    [0x19F0, 0x99F0, 0x8100, 0x8580, 0xC7FF, 0xFFFF].map (tempDecode false) = [25, -25, -1, -5, -71, -127] := by decide
theorem test_cycle_decode :
    [0x012A, 0x1E80, 0x8000, 0x9FFF].map (cycleDecode false) = [42, 128, 0, 255] := by decide
theorem test_fallback_decode :
    [0x8000, 0xC7FF, 0x1F33].map (ocvDecode true) = [4000, 4000, 3899] ∧
      [0x8580, 0xFFFF, 0x19F0].map (tempDecode true) = [0, 0, 25] ∧
      [0x8005, 0x0005].map (cycleDecode true) = [0, 5] := by decide
theorem test_icl_encode :
    [0, 99, 100, 124, 125, 500, 3275, 3299, 3300, 3325, 65535].map iclEncode =
      [0, 0, 0, 0, 1, 0x10, 127, 127, 0, 1, 57] := by decide
theorem test_cc_encode :
    [0, 109, 110, 124, 125, 500, 1000, 3499, 3500, 3501, 65535].map ccEncode =
      [0x07, 0x07, 0x07, 0x07, 0x08, 0x20, 0x40, 0xDF, 0xE0, 0xE0, 0xE0] := by decide
theorem test_topoff_encode :
    [0, 99, 100, 124, 125, 200, 799, 800, 65535].map topoffEncode = [0, 0, 0, 0, 1, 4, 27, 0x1C, 0x1C] := by decide
/-- 95 section 3.3. -/
theorem test_merge :
    merge 0x1234 0x00F0 0x0A5A = 0x1254 ∧ merge 0xFFFF 0x0000 0x0000 = 0xFFFF ∧ merge 0x00FF 0x0040 0x0000 = 0x00BF ∧
      merge 0xA5A5 0x0F0F 0xFFFF = 0xAFAF ∧ merge 0x5A5A 0x00FF 0x1234 = 0x5A34 := by decide
theorem test_response_words :
    (Response.mk .ok 0 [1, 2, 3, 4, 5]).words = [0x00050000, 0, 0x04030201, 0x00000005] ∧
      (Response.mk .faultContract 0 []).words = [0x000000FF, 0] := by decide

/-! ## One turn of one command -/

/-- The parameters of 95 section 4, program P2, with 8 clients. -/
def params : Params := ⟨8, 16, 100, 0, false, 0x40, 0x41, 0x42, 0x43, 0x44, .none⟩

/-- An open context with a free guard and these answers to come. -/
def context (answers : List BusAnswer) : Context :=
  { Context.reset 16 7 with isOpen := true, answers := answers }

/-- Client 3 has delivered command `i` and gets a turn of `n` steps; both contexts are open. -/
def ready (i : Instr) (n : Nat) (answers : List BusAnswer) : State where
  params := params
  faulted := false
  contexts := [context answers, context answers]
  clients := [(3, .pending (encode i) .decode Locals.start)]
  hist := []
  inputs := [.turn 3 n]
  draws := 0

/-- What a full turn of the command gives: its client, and the bus events. -/
def result (i : Instr) (answers : List BusAnswer) : Option (Client × List (Transaction × BusOutcome)) :=
  match step (ready i 40 answers) with
  | .next t => some (t.client 3, t.hist.map fun e => (e.transaction, e.outcome))
  | _ => none

theorem test_run_writeSync : result (.writeSync 0 0x13 [0x34, 0x12]) [.ok 1 []] =
    some (.answered ⟨.ok, 0, []⟩, [(.write [0x13, 0x34, 0x12], .okWrite 1)]) := by decide +kernel
theorem test_run_writeSync_err : result (.writeSync 0 0x05 []) [.err] =
    some (.answered ⟨.errBusTransport, 0, []⟩, [(.write [0x05], .err)]) := by decide +kernel
theorem test_run_readSync : result (.readSync 0 0x00 2) [.ok 1 [], .ok 2 [0x14, 0x00]] =
    some (.answered ⟨.ok, 0, [0x14, 0x00]⟩, [(.write [0x00], .okWrite 1), (.read 2, .okRead 2 [0x14, 0x00])]) := by
  decide +kernel
theorem test_run_readSync_count : result (.readSync 0 0x00 2) [.ok 1 [], .ok 3 [0x14, 0x00]] =
    some (.answered ⟨.errBusTransport, 0, []⟩, [(.write [0x00], .okWrite 1), (.read 2, .okRead 3 [0x14, 0x00])]) := by
  decide +kernel
theorem test_run_seqWwr : result (.seqWwr 0 false [0x8C, 0x07, 0x00] [0x8D] 2 0 100) [.ok 9 [0x80, 0x19]] =
    some (.answered ⟨.ok, 0, [0x80, 0x19]⟩,
      [(.sequence [0x8C, 0x07, 0x00] [0x8D] 2 0, .okRead 9 [0x80, 0x19])]) := by decide +kernel
theorem test_run_seqWwr_short : result (.seqWwr 0 false [0x8C, 0x07, 0x00] [0x8D] 2 0 100) [.ok 4 [0x80, 0x19]] =
    some (.answered ⟨.errShortTransfer, 0, []⟩,
      [(.sequence [0x8C, 0x07, 0x00] [0x8D] 2 0, .okRead 4 [0x80, 0x19])]) := by decide +kernel
theorem test_run_readReg : result (.readReg 0 0x01) [.ok 1 [], .ok 2 [0x34, 0x12]] =
    some (.answered ⟨.ok, 0x1234, []⟩, [(.write [0x01], .okWrite 1), (.read 2, .okRead 2 [0x34, 0x12])]) := by
  decide +kernel
theorem test_run_writeReg : result (.writeReg 0 0x01 0x1234) [.ok 3 []] =
    some (.answered ⟨.ok, 0, []⟩, [(.write [0x01, 0x34, 0x12], .okWrite 3)]) := by decide +kernel
theorem test_run_updateReg :
    result (.updateReg 0 0x01 0x00F0 0x0A5A) [.ok 1 [], .ok 2 [0x34, 0x12], .ok 3 []] =
      some (.answered ⟨.ok, 0, []⟩, [(.write [0x01], .okWrite 1), (.read 2, .okRead 2 [0x34, 0x12]),
        (.write [0x01, 0x54, 0x12], .okWrite 3)]) := by decide +kernel
theorem test_run_updateReg_no_write :
    result (.updateReg 0 0x01 0xFFFF 0x1234) [.ok 1 [], .ok 2 [0x34, 0x12], .ok 3 []] =
      some (.answered ⟨.ok, 0, []⟩, [(.write [0x01], .okWrite 1), (.read 2, .okRead 2 [0x34, 0x12])]) := by
  decide +kernel
/-- 95 program P1. -/
theorem test_run_fuel_gauge :
    result (.fgReadSoc 0) [.ok 6 [0x80, 0x1E]] = some (.answered ⟨.ok, 305, []⟩,
      [(.sequence [0x8C, 0x00, 0x00] [0x8D] 2 0, .okRead 6 [0x80, 0x1E])]) ∧
    result (.fgReadOcv 0) [.ok 6 [0x33, 0x1F]] = some (.answered ⟨.ok, 3899, []⟩,
      [(.sequence [0x8C, 0x01, 0x00] [0x8D] 2 0, .okRead 6 [0x33, 0x1F])]) ∧
    result (.fgReadCurrent 0) [.ok 6 [0x00, 0x8C]] = some (.answered ⟨.ok, 0xFFFFFA24, []⟩,
      [(.sequence [0x8C, 0x05, 0x00] [0x8D] 2 0, .okRead 6 [0x00, 0x8C])]) ∧
    result (.fgReadTemp 0) [.ok 6 [0xA0, 0x19]] = some (.answered ⟨.ok, 25, []⟩,
      [(.sequence [0x8C, 0x07, 0x00] [0x8D] 2 0, .okRead 6 [0xA0, 0x19])]) ∧
    result (.fgReadCycle 0) [.ok 6 [0x2A, 0x01]] = some (.answered ⟨.ok, 42, []⟩,
      [(.sequence [0x8C, 0x87, 0x00] [0x8D] 2 0, .okRead 6 [0x2A, 0x01])]) :=
  ⟨by decide +kernel, by decide +kernel, by decide +kernel, by decide +kernel, by decide +kernel⟩
theorem test_run_decoders :
    result (.cvtSoc 0x1E00) [] = some (.answered ⟨.ok, 300, []⟩, []) ∧
    result (.cvtOcv 0x1800) [] = some (.answered ⟨.ok, 3000, []⟩, []) ∧
    result (.cvtCurrent 0x8800) [] = some (.answered ⟨.ok, 0xFFFFFC18, []⟩, []) ∧
    result (.cvtTemp 0x99F0) [] = some (.answered ⟨.ok, 0xFFFFFFE7, []⟩, []) ∧
    result (.cvtCycle 0x8005) [] = some (.answered ⟨.ok, 5, []⟩, []) :=
  ⟨by decide +kernel, by decide +kernel, by decide +kernel, by decide +kernel, by decide +kernel⟩
theorem test_run_encoders :
    result (.cvtIcl 3299) [] = some (.answered ⟨.ok, 127, []⟩, []) ∧
    result (.cvtCc 125) [] = some (.answered ⟨.ok, 8, []⟩, []) ∧
    result (.cvtTopoff 800) [] = some (.answered ⟨.ok, 0x1C, []⟩, []) :=
  ⟨by decide +kernel, by decide +kernel, by decide +kernel⟩
/-- The fields of 95 program P2, one setter each. -/
theorem test_run_setters :
    result (.chgSetIcl 1 500) [.ok 1 [], .ok 2 [0x80, 0x00], .ok 3 []] = some (.answered ⟨.ok, 0, []⟩,
      [(.write [0x40], .okWrite 1), (.read 2, .okRead 2 [0x80, 0x00]), (.write [0x40, 0x90, 0x00], .okWrite 3)]) ∧
    result (.chgSetCc 1 1000) [.ok 1 [], .ok 2 [0x40, 0x00], .ok 3 []] = some (.answered ⟨.ok, 0, []⟩,
      [(.write [0x41], .okWrite 1), (.read 2, .okRead 2 [0x40, 0x00])]) ∧
    result (.chgSetTopoff 1 200) [.ok 1 [], .ok 2 [0xE0, 0x00], .ok 3 []] = some (.answered ⟨.ok, 0, []⟩,
      [(.write [0x42], .okWrite 1), (.read 2, .okRead 2 [0xE0, 0x00]), (.write [0x42, 0xE4, 0x00], .okWrite 3)]) ∧
    result (.chgSetAutostop 1 false) [.ok 1 [], .ok 2 [0x45, 0x00], .ok 3 []] = some (.answered ⟨.ok, 0, []⟩,
      [(.write [0x43], .okWrite 1), (.read 2, .okRead 2 [0x45, 0x00]), (.write [0x43, 0x05, 0x00], .okWrite 3)]) ∧
    result (.chgSetEnable 1 true) [.ok 1 [], .ok 2 [0x00, 0x00], .ok 3 []] = some (.answered ⟨.ok, 0, []⟩,
      [(.write [0x44], .okWrite 1), (.read 2, .okRead 2 [0x00, 0x00]), (.write [0x44, 0x08, 0x00], .okWrite 3)]) :=
  ⟨by decide +kernel, by decide +kernel, by decide +kernel, by decide +kernel, by decide +kernel⟩
/-- 95 program P2. -/
theorem test_run_probe :
    result (.chgProbe 1 true 500 1000 200) [.ok 1 [], .ok 2 [0x05, 0x00], .ok 3 [], .ok 1 [], .ok 2 [0x80, 0x00], .ok 3 [],
        .ok 1 [], .ok 2 [0x40, 0x00], .ok 1 [], .ok 2 [0xE0, 0x00], .ok 3 []] =
      some (.answered ⟨.ok, 0, []⟩,
        [(.write [0x43], .okWrite 1), (.read 2, .okRead 2 [0x05, 0x00]), (.write [0x43, 0x45, 0x00], .okWrite 3),
         (.write [0x40], .okWrite 1), (.read 2, .okRead 2 [0x80, 0x00]), (.write [0x40, 0x90, 0x00], .okWrite 3),
         (.write [0x41], .okWrite 1), (.read 2, .okRead 2 [0x40, 0x00]),
         (.write [0x42], .okWrite 1), (.read 2, .okRead 2 [0xE0, 0x00]), (.write [0x42, 0xE4, 0x00], .okWrite 3)]) := by
  decide +kernel
/-- 95 program P2b: the write of the second field fails, and no later field is touched. -/
theorem test_run_probe_aborted :
    result (.chgProbe 1 true 500 1000 200) [.ok 1 [], .ok 2 [0x05, 0x00], .ok 3 [], .ok 1 [], .ok 2 [0x80, 0x00], .err] =
      some (.answered ⟨.errBusTransport, 0, []⟩,
        [(.write [0x43], .okWrite 1), (.read 2, .okRead 2 [0x05, 0x00]), (.write [0x43, 0x45, 0x00], .okWrite 3),
         (.write [0x40], .okWrite 1), (.read 2, .okRead 2 [0x80, 0x00]), (.write [0x40, 0x90, 0x00], .err)]) := by
  decide +kernel

/-- The `OPEN` bits and `FAULTED` after a step. -/
def flags (s : State) : Option (List Bool × Bool) :=
  match step s with
  | .next t => some (t.contexts.map Context.isOpen, t.faulted)
  | _ => none

/-- The table's word of `CTX_OPEN` runs as the first command after reset. -/
theorem test_fetch_runs_table_word :
    flags (State.reset.withFetchWord 32 0x40000000) = some ([true, false], false) := by decide +kernel
theorem test_run_ctxClose : flags (ready (.ctxClose 1) 4 []) = some ([true, false], false) := by decide +kernel
theorem test_run_ctxOpen :
    flags { ready (.ctxOpen 1) 4 [] with contexts := [Context.reset 16 0, Context.reset 16 1] } =
      some ([false, true], false) := by decide +kernel
/-- 95 section 3.6 step 5, and section 3.1. -/
theorem test_contract_faults :
    flags { ready (.readReg 1 0) 40 [] with contexts := [Context.reset 16 0, Context.reset 16 1] } =
      some ([false, false], true) ∧
    flags (ready (.readReg 2 0) 40 []) = some ([true, true], true) := by decide +kernel

/-! ## Witnesses: the encoding and the converter -/

theorem witness_WorkedEncodingsOfR107 : params.fgReadDelay = 0 ∧ params.defaultTimeoutMs = 100 := by decide
theorem witness_DecodeOfEncode :
    (Instr.seqWwr 15 true (List.replicate 255 7) [1] 255 0 0).wellFormed = true ∧
      (Instr.writeSync 0 0 []).wellFormed = true := by decide +kernel
theorem witness_EncodeOfDecode : decode [0x02000102] = .ok (.readSync 0 0x01 2) := by decide
theorem witness_HeaderSelectsAtMostOneCommand :
    (0x10100100 : Word) &&& Opcode.readReg.mask = Opcode.readReg.pattern := by decide
theorem witness_DescriptorLengthFollowsHeader :
    (Instr.seqWwr 0 false (List.replicate 255 0) (List.replicate 255 0) 1 0 0).wellFormed = true ∧
      (encode (.seqWwr 0 false (List.replicate 255 0) (List.replicate 255 0) 1 0 0)).length = 132 ∧
      (encode (.writeSync 0 0x05 [])).length = 1 := by decide +kernel
/-- One descriptor for each clause, in the order of the clauses. -/
theorem witness_IllegalDescriptorsDoNotDecode :
    (∀ o ∈ Opcode.all, o.code ≠ opcField 0xFF000000) ∧
    (Opcode.readReg.code = opcField 0x10020100 ∧
      (0x10020100 : Word) &&& Opcode.readReg.mask ≠ Opcode.readReg.pattern) ∧
    ([0x11000100] : List Word).length ≠ descriptorLength 0x11000100 0 ∧
    (Opcode.writeReg.code = opcField 0x11000100 ∧ Opcode.writeReg.format = .hx ∧
      (0x00011234 : Word).extractLsb' 16 16 ≠ 0) ∧
    (opcField 0x35110000 = 0x35 ∧ (0x000100C8 : Word).extractLsb' 16 16 ≠ 0) ∧
    (opcField 0x03000302 = 0x03 ∧ (0x00000101 : Word).extractLsb' 8 24 ≠ 0) ∧
    (opcField 0x03000300 = 0x03 ∧ bField 0x03000300 = 0 ∧ aField 0x03000002 = 0 ∧
      (0x00000000 : Word).extractLsb' 0 8 = 0) ∧
    (opcField 0x02000000 = 0x02 ∧ bField 0x02000000 = 0) ∧
    (opcField 0x01000502 = 0x01 ∧
      ((([0x00FF1234] : List Word).flatMap wordBytes).drop (bField 0x01000502).toNat).any (· != 0) = true) ∧
    (opcField 0x03000302 = 0x03 ∧ 3 = (aField 0x03000302).toNat ∧
      ((((([1, 0, 100, 0x0100078C, 0x8D] : List Word).drop 3).take (wordsFor 3)).flatMap wordBytes).drop 3).any
        (· != 0) = true) ∧
    (1 = ((([1, 0, 100, 0x0000078C, 0x0000018D] : List Word).headD 0).extractLsb' 0 8).toNat ∧
      (((([1, 0, 100, 0x0000078C, 0x0000018D] : List Word).drop (3 + wordsFor 3)).flatMap wordBytes).drop 1).any
        (· != 0) = true) := by
  decide
theorem witness_ResponseWordsLayout : (Response.mk .ok 0 (List.replicate 255 1)).data.length < 65536 := by decide +kernel
/-- The first raw value above 100 %. -/
theorem witness_SocDecodeIsTenthsOfPercent : 100 < ((0x6500 : Half).extractLsb' 8 8).toNat := by decide
/-- Two raw values that differ in bits 14 and 13. -/
theorem witness_CurrentDecodeIsSignedMagnitude :
    (0xE800 : Half).getLsbD 15 = (0x8800 : Half).getLsbD 15 ∧
      (0xE800 : Half).extractLsb' 0 13 = (0x8800 : Half).extractLsb' 0 13 := by decide
theorem witness_SignedFallbackBranches :
    (0x8000 : Half).getLsbD 15 = true ∧ (0x7FFF : Half).getLsbD 15 = false := by decide
theorem witness_DecodedQuantityFitsResult :
    currentDecode false 0 0xFFFF = -3999 ∧ ocvDecode false 0xFFFF = 7999 ∧ socDecode 0xFFFF = 2559 ∧
      tempDecode false 0xFFFF = -127 ∧ cycleDecode false 0x00FF = 255 := by decide
/-- The clauses at their bounds. -/
theorem witness_IclEncodeWraps :
    (99 : Half).toNat < 100 ∧ 100 ≤ (100 : Half).toNat ∧ 3275 ≤ (3275 : Half).toNat ∧ (3299 : Half).toNat ≤ 3299 ∧
      100 ≤ (65535 : Half).toNat := by decide
theorem witness_CcEncodeClamps :
    (109 : Half).toNat * 1000 < 109375 ∧ 3500000 < (3501 : Half).toNat * 1000 ∧
      109375 ≤ (110 : Half).toNat * 1000 ∧ (3500 : Half).toNat * 1000 ≤ 3500000 ∧ (124 : Half).toNat ≤ 124 := by decide
theorem witness_TopoffEncodeIsMonotone :
    (99 : Half).toNat < 100 ∧ 100 ≤ (100 : Half).toNat ∧ (799 : Half).toNat < 800 ∧ 800 ≤ (800 : Half).toNat ∧
      (100 : Half).toNat ≤ (100 : Half).toNat := by decide
theorem witness_MergeTakesMaskedBits : (15 : Nat) < 16 := by decide

/-! ## Witnesses: commands -/

/-- Every command is ready in `ready`, on a context that exists. -/
theorem ready_isReady (i : Instr) (n : Nat) (answers : List BusAnswer) (b : BusIndex) (hb : b.toNat < 2) :
    Ready (ready i n answers) 3 n [] (encode i) b (context answers) where
  inputs := rfl
  client := rfl
  notFaulted := rfl
  context := by
    obtain h | h : b.toNat = 0 ∨ b.toNat = 1 := by omega
    all_goals rw [h]; rfl
  isOpen := rfl
  free := rfl

theorem witness_DecoderCommandsAnswerTheirTransform :
    AtDecode (ready (.cvtSoc 0x1E00) (0 + 2) []) 3 (0 + 2) [] (encode (.cvtSoc 0x1E00)) := ⟨rfl, rfl, rfl⟩
theorem witness_EncoderCommandsAnswerTheirCode :
    AtDecode (ready (.cvtIcl 100) (0 + 2) []) 3 (0 + 2) [] (encode (.cvtIcl 100)) := ⟨rfl, rfl, rfl⟩
/-- On the last context. -/
theorem witness_OpenAndCloseChangeOnlyOpen :
    AtDecode (ready (.ctxOpen 1) (0 + 4) []) 3 (0 + 4) [] (encode (.ctxOpen 1)) ∧
      (ready (.ctxOpen 1) (0 + 4) []).contexts[(1 : BusIndex).toNat]? = some (context []) ∧
      (context []).lock = .free := ⟨⟨rfl, rfl, rfl⟩, rfl, rfl⟩
theorem witness_WriteSyncSendsOneFrame :
    Ready (ready (.writeSync 1 0x13 [0x34]) (0 + 5) [.ok 0 []]) 3 (0 + 5) [] (encode (.writeSync 1 0x13 [0x34])) 1
      (context [.ok 0 []]) ∧ (context [.ok 0 []]).answers = .ok 0 [] :: [] ∧ (context [.err]).answers = .err :: [] :=
  ⟨ready_isReady _ _ _ _ (by decide), rfl, rfl⟩
theorem witness_WriteRegSendsLittleEndianValue :
    Ready (ready (.writeReg 0 0x01 0x1234) (0 + 5) [.ok 3 []]) 3 (0 + 5) [] (encode (.writeReg 0 0x01 0x1234)) 0
      (context [.ok 3 []]) ∧ (context [.ok 3 []]).answers = .ok 3 [] :: [] ∧ (context [.err]).answers = .err :: [] :=
  ⟨ready_isReady _ _ _ _ (by decide), rfl, rfl⟩
theorem witness_ReadSyncAnswersTheBytesRead :
    Ready (ready (.readSync 0 0 2) (0 + 6) [.ok 1 [], .ok 2 [0x14, 0x00]]) 3 (0 + 6) [] (encode (.readSync 0 0 2)) 0
      (context [.ok 1 [], .ok 2 [0x14, 0x00]]) ∧ ([0x14, 0x00] : List Byte).length = (2 : Byte).toNat ∧
      (context [.ok 1 [], .ok 2 [0x14, 0x00]]).answers = .ok 1 [] :: .ok (2 : Byte).toNat [0x14, 0x00] :: [] :=
  ⟨ready_isReady _ _ _ _ (by decide), rfl, rfl⟩
theorem witness_ReadRegAnswersLittleEndianValue :
    Ready (ready (.readReg 0 1) (0 + 6) [.ok 1 [], .ok 2 [0x34, 0x12]]) 3 (0 + 6) [] (encode (.readReg 0 1)) 0
      (context [.ok 1 [], .ok 2 [0x34, 0x12]]) ∧
      (context [.ok 1 [], .ok 2 [0x34, 0x12]]).answers = .ok 1 [] :: .ok 2 [0x34, 0x12] :: [] :=
  ⟨ready_isReady _ _ _ _ (by decide), rfl⟩
/-- The last clause on both sides of the length asked for. -/
theorem witness_ReadFailuresAreTransportErrors :
    (∀ answers, Ready (ready (.readSync 0 0 2) (0 + 6) answers) 3 (0 + 6) [] (encode (.readSync 0 0 2)) 0
      (context answers)) ∧
    ((Instr.readSync 0 0 2) = .readSync 0 0 2 ∧ 2 = (2 : Byte).toNat) ∧
    (context [.err]).answers = .err :: [] ∧ (context [.ok 1 [], .err]).answers = .ok 1 [] :: .err :: [] ∧
    (1 : Nat) ≠ 2 ∧ (3 : Nat) ≠ 2 ∧ ([0x14, 0x00] : List Byte).length = 2 ∧
    (context [.ok 1 [], .ok 3 [0x14, 0x00]]).answers = .ok 1 [] :: .ok 3 [0x14, 0x00] :: [] :=
  ⟨fun _ => ready_isReady _ _ _ _ (by decide), ⟨rfl, rfl⟩, rfl, rfl, by decide, by decide, rfl, rfl⟩
/-- Counts at the bounds of the clauses: 6 is the whole transaction, 4 is one below the check. -/
theorem witness_SeqWwrStatusFollowsTheCount :
    (∀ answers, Ready (ready (.seqWwr 0 false [0x8C, 0x07, 0x00] [0x8D] 2 0 100) (0 + 5) answers) 3 (0 + 5) []
      (encode (.seqWwr 0 false [0x8C, 0x07, 0x00] [0x8D] 2 0 100)) 0 (context answers)) ∧
    ([0x80, 0x19] : List Byte).length = (2 : Byte).toNat ∧
    (context [.ok 6 [0x80, 0x19]]).answers = .ok 6 [0x80, 0x19] :: [] ∧
    ([0x8C, 0x07, 0x00] : List Byte).length + ([0x8D] : List Byte).length + (2 : Byte).toNat ≤ 6 ∧
    (context [.ok 4 [0x80, 0x19]]).answers = .ok 4 [0x80, 0x19] :: [] ∧
    4 < ([0x8C, 0x07, 0x00] : List Byte).length + (2 : Byte).toNat ∧ (context [.err]).answers = .err :: [] :=
  ⟨fun _ => ready_isReady _ _ _ _ (by decide), rfl, rfl, by decide, rfl, by decide, rfl⟩
/-- The count 5, which meets both bounds. -/
theorem witness_AcceptedShortSequenceDataIsFree :
    Ready (ready (.seqWwr 0 false [0x8C, 0x07, 0x00] [0x8D] 2 0 100) (0 + 5) [.ok 5 [0x80, 0x19]]) 3 (0 + 5) []
      (encode (.seqWwr 0 false [0x8C, 0x07, 0x00] [0x8D] 2 0 100)) 0 (context [.ok 5 [0x80, 0x19]]) ∧
    ([0x80, 0x19] : List Byte).length = (2 : Byte).toNat ∧
    (context [.ok 5 [0x80, 0x19]]).answers = .ok 5 [0x80, 0x19] :: [] ∧
    ([0x8C, 0x07, 0x00] : List Byte).length + (2 : Byte).toNat ≤ 5 ∧
    5 < ([0x8C, 0x07, 0x00] : List Byte).length + ([0x8D] : List Byte).length + (2 : Byte).toNat :=
  ⟨ready_isReady _ _ _ _ (by decide), rfl, rfl, by decide, by decide⟩
/-- Counts 6, 5 and 4, and an error. -/
theorem witness_FuelGaugeReadsDecodeTheirLocation :
    (∀ i answers, Ready (ready i (0 + 5) answers) 3 (0 + 5) [] (encode i) 0 (context answers)) ∧
    (context [.ok 6 [0x00, 0x8C]]).answers = .ok 6 [0x00, 0x8C] :: [] ∧
    (context [.ok 5 [0x00, 0x8C]]).answers = .ok 5 [0x00, 0x8C] :: [] ∧
    (context [.ok 4 [0x00, 0x8C]]).answers = .ok 4 [0x00, 0x8C] :: [] ∧ (context [.err]).answers = .err :: [] :=
  ⟨fun _ _ => ready_isReady _ _ _ _ (by decide), rfl, rfl, rfl, rfl⟩
/-- An update that writes, one that does not, and each failure. -/
theorem witness_UpdateRegReadsMergesAndWrites :
    (∀ answers, Ready (ready (.updateReg 0 1 0x00F0 0x0A5A) (0 + 10) answers) 3 (0 + 10) []
      (encode (.updateReg 0 1 0x00F0 0x0A5A)) 0 (context answers)) ∧
    updateAnswers ⟨1, 0x00F0, 0x0A5A⟩ 0x1234 1 3 = [.ok 1 [], .ok 2 [0x34, 0x12], .ok 3 []] ∧
    updateAnswers ⟨1, 0x00F0, 0x0A5A⟩ 0x1254 1 3 = [.ok 1 [], .ok 2 [0x54, 0x12]] ∧
    FailedRead .err .err ∧ FailedRead (.ok 1 [0x34, 0x12]) (.okRead 1 [0x34, 0x12]) ∧
    (∃ events, FailedUpdate 0 3 ⟨1, 0x00F0, 0x0A5A⟩ [.err] events) ∧
    (∃ events, FailedUpdate 0 3 ⟨1, 0x00F0, 0x0A5A⟩ [.ok 1 [], .err] events) ∧
    (∃ events, FailedUpdate 0 3 ⟨1, 0x00F0, 0x0A5A⟩ [.ok 1 [], .ok 2 (bytes16 0x1234), .err] events) :=
  ⟨fun _ => ready_isReady _ _ _ _ (by decide), by decide, by decide, .err, .count 1 _ _ (by decide), ⟨_, .pointer⟩,
    ⟨_, .read 1 _ _ .err⟩, ⟨_, .write 1 0x1234 (by decide)⟩⟩
theorem witness_SettersUpdateTheirField :
    (∀ answers, Ready (ready (.chgSetIcl 1 500) (0 + 10) answers) 3 (0 + 10) [] (encode (.chgSetIcl 1 500)) 1
      (context answers)) ∧
    updateAnswers ⟨params.regIcl, 0x007F, iclEncode 500⟩ 0x0080 1 3 = [.ok 1 [], .ok 2 [0x80, 0x00], .ok 3 []] ∧
    (∃ events, FailedUpdate 1 3 ⟨params.regIcl, 0x007F, iclEncode 500⟩ [.ok 1 [], .ok 2 (bytes16 0x0080), .err] events) :=
  ⟨fun _ => ready_isReady _ _ _ _ (by decide), by decide, ⟨_, .write 1 0x0080 (by decide)⟩⟩
theorem witness_UpdateFreesTheGuardBetweenItsSpans :
    Ready (ready (.updateReg 0 1 0x00F0 0x0A5A) 6 [.ok 1 [], .ok 2 [0x34, 0x12]]) 3 6 []
      (encode (.updateReg 0 1 0x00F0 0x0A5A)) 0 (context [.ok 1 [], .ok 2 [0x34, 0x12]]) ∧
    (context [.ok 1 [], .ok 2 [0x34, 0x12]]).answers = [.ok 1 [], .ok 2 (bytes16 0x1234)] ++ [] ∧
    merge 0x1234 0x00F0 0x0A5A ≠ 0x1234 :=
  ⟨ready_isReady _ _ _ _ (by decide), by decide, by decide⟩
/-- 95 program P6, the order A1 B1 A2 B2. -/
def twoUpdates : State where
  params := params
  faulted := false
  contexts := [context [.ok 1 [], .ok 2 [0, 0], .ok 1 [], .ok 2 [0, 0], .ok 3 [], .ok 3 []]]
  clients := [(1, .pending [0x12001300, 0x00010001] .decode Locals.start),
    (2, .pending [0x12001300, 0x00020002] .decode Locals.start)]
  hist := []
  inputs := [.turn 1 6, .turn 2 6, .turn 1 4, .turn 2 4]
  draws := 0
theorem witness_ConcurrentUpdatesLoseTheFirstWrite :
    (1 : Nat) ≠ 2 ∧ twoUpdates.faulted = false ∧
    twoUpdates.inputs = [.turn 1 6, .turn 2 6, .turn 1 4, .turn 2 4] ++ [] ∧
    twoUpdates.client 1 = .pending (encode (.updateReg 0 0x13 1 1)) .decode Locals.start ∧
    twoUpdates.client 2 = .pending (encode (.updateReg 0 0x13 2 2)) .decode Locals.start ∧
    (∃ x, twoUpdates.contexts[(0 : BusIndex).toNat]? = some x ∧ x.isOpen = true ∧ x.lock = .free ∧
      x.answers = [.ok 1 [], .ok 2 (bytes16 0), .ok 1 [], .ok 2 (bytes16 0), .ok 3 [], .ok 3 []] ++ []) ∧
    merge 0 1 1 ≠ 0 ∧ merge 0 2 2 ≠ 0 :=
  ⟨by decide, rfl, rfl, by decide, by decide, ⟨_, rfl, rfl, rfl, by decide⟩, by decide, by decide⟩
/-- The values read for the four fields of 95 program P2. -/
def probeValues (j : Nat) : Half := [0x0005, 0x0080, 0x0040, 0x00E0].getD j 0
def probeUpdates : List FieldUpdate :=
  [⟨params.regAutostop, 0x0040, 0x0040⟩, ⟨params.regIcl, 0x007F, iclEncode 500⟩, ⟨params.regCc, 0x00FF, ccEncode 1000⟩,
    ⟨params.regTopoff, 0x001F, topoffEncode 200⟩]
theorem witness_ProbeAppliesFourFieldsInOrder :
    (∀ answers, Ready (ready (.chgProbe 1 true 500 1000 200) (0 + 37) answers) 3 (0 + 37) []
      (encode (.chgProbe 1 true 500 1000 200)) 1 (context answers)) ∧
    (context (updatesAnswers probeValues (fun _ => 1) (fun _ => 3) probeUpdates)).answers =
      updatesAnswers probeValues (fun _ => 1) (fun _ => 3) probeUpdates ++ [] :=
  ⟨fun _ => ready_isReady _ _ _ _ (by decide), by simp [context]⟩
/-- The first and the last of the four fields, and each way an update fails. -/
theorem witness_ProbeStopsAtFirstFailure :
    (∀ answers, Ready (ready (.chgProbe 1 true 500 1000 200) (0 + 37) answers) 3 (0 + 37) []
      (encode (.chgProbe 1 true 500 1000 200)) 1 (context answers)) ∧
    probeUpdates[0]? = some ⟨params.regAutostop, 0x0040, 0x0040⟩ ∧
    probeUpdates[3]? = some ⟨params.regTopoff, 0x001F, topoffEncode 200⟩ ∧
    (∀ f, FailedUpdate 1 3 f [.err] [⟨1, 3, .write [f.reg], .err⟩] ∧
      FailedUpdate 1 3 f [.ok 1 [], .err] [⟨1, 3, .write [f.reg], .okWrite 1⟩, ⟨1, 3, .read 2, .err⟩] ∧
      FailedUpdate 1 3 f [.ok 1 [], .ok 3 [0, 0]]
        [⟨1, 3, .write [f.reg], .okWrite 1⟩, ⟨1, 3, .read 2, .okRead 3 [0, 0]⟩]) ∧
    (∃ events, FailedUpdate 1 3 ⟨params.regAutostop, 0x0040, 0x0040⟩ [.ok 1 [], .ok 2 (bytes16 0x0005), .err] events) ∧
    (∀ failing, (context (updatesAnswers probeValues (fun _ => 1) (fun _ => 3) (probeUpdates.take 3) ++ failing ++ [])).answers =
      updatesAnswers probeValues (fun _ => 1) (fun _ => 3) (probeUpdates.take 3) ++ failing ++ []) :=
  ⟨fun _ => ready_isReady _ _ _ _ (by decide), rfl, rfl,
    fun _ => ⟨.pointer, .read 1 _ _ .err, .read 1 _ _ (.count 3 0 0 (by decide))⟩,
    ⟨_, .write 1 0x0005 (by decide)⟩, fun _ => rfl⟩

/-! ## Witnesses: the guard, the bus and the scratch buffers -/

/-- One of each kind of command. -/
theorem witness_HandOverCarriesEndpointAndTimeout :
    Ready (ready (.fgReadTemp 0) 2 []) 3 2 [] (encode (.fgReadTemp 0)) 0 (context []) ∧
    (Instr.fgReadTemp 0, (0x07 : Byte)) ∈ [(.fgReadSoc 0, 0x00), (.fgReadOcv 0, 0x01), (.fgReadCurrent 0, 0x05),
      (.fgReadTemp 0, 0x07), (.fgReadCycle 0, 0x87)] ∧
    Ready (ready (.seqWwr 0 true [1] [2] 3 4 5) 2 []) 3 2 [] (encode (.seqWwr 0 true [1] [2] 3 4 5)) 0 (context []) ∧
    Ready (ready (.writeSync 1 1 []) 2 []) 3 2 [] (encode (.writeSync 1 1 [])) 1 (context []) :=
  ⟨ready_isReady _ _ _ _ (by decide), by decide, ready_isReady _ _ _ _ (by decide), ready_isReady _ _ _ _ (by decide)⟩
/-- Transfers of `SCRATCH_SIZE` bytes and of one byte more. -/
theorem witness_ScratchBuffersHoldSmallTransfers :
    Ready (ready (.readSync 0 0 16) (0 + 6) [.ok 1 [], .ok 16 (List.replicate 16 9)]) 3 (0 + 6) []
      (encode (.readSync 0 0 16)) 0 (context [.ok 1 [], .ok 16 (List.replicate 16 9)]) ∧
    (List.replicate 16 (9 : Byte)).length = (16 : Byte).toNat ∧ (16 : Byte).toNat ≤ params.scratchSize ∧
    (List.replicate 17 (9 : Byte)).length = (17 : Byte).toNat ∧ ¬(17 : Byte).toNat ≤ params.scratchSize ∧
    (context [.ok 1 [], .ok 16 (List.replicate 16 9)]).answers =
      .ok 1 [] :: .ok (16 : Byte).toNat (List.replicate 16 9) :: [] :=
  ⟨ready_isReady _ _ _ _ (by decide), by decide, by decide, by decide, by decide, rfl⟩

/-- Client 3 waits for the bus with a write on context 0, and client 5 for the guard of context 0. -/
def waiting : State where
  params := params
  faulted := false
  contexts := [{ context [] with lock := .held 3, onBus := some ⟨7, .write [1], .milliseconds 100⟩ }, context []]
  clients := [(3, .pending (encode (.writeSync 0 1 [])) (.bus 1 1 ⟨0, .write [1]⟩) Locals.start),
    (5, .pending (encode (.readReg 0 0)) (.acq 1 ⟨0, .read 0 2⟩) Locals.start)]
  hist := []
  inputs := [.turn 5 1]
  draws := 0

theorem witness_WaitingCommandsMakeNoStep :
    waiting.inputs = .turn 5 1 :: [] ∧ waiting.faulted = false ∧
    waiting.client 5 = .pending (encode (.readReg 0 0)) (.acq 1 ⟨0, .read 0 2⟩) Locals.start ∧
    waiting.client 3 = .pending (encode (.writeSync 0 1 [])) (.bus 1 1 ⟨0, .write [1]⟩) Locals.start ∧
    ∃ x, waiting.contexts[0]? = some x ∧ x.lock = .held 3 ∧ x.answers = [] :=
  ⟨rfl, rfl, rfl, rfl, _, rfl, rfl, rfl⟩

/-- The clients of `waiting`, by number. -/
theorem waiting_client (c : Nat) : waiting.client c =
    if c = 3 then .pending (encode (.writeSync 0 1 [])) (.bus 1 1 ⟨0, .write [1]⟩) Locals.start
    else if c = 5 then .pending (encode (.readReg 0 0)) (.acq 1 ⟨0, .read 0 2⟩) Locals.start else .idle := by
  simp only [State.client, waiting, clientAt, eq_comm]

theorem waiting_guardInv : GuardInv waiting where
  canonical := by decide
  exist := by
    intro c h
    rw [waiting_client] at h
    split_ifs at h with h1 h2
    · subst h1; decide
    · subst h2; decide
    · exact absurd rfl h
  guard := by
    intro i x hi c
    rw [waiting_client]
    match i, hi with
    | 0, hi => cases hi; split_ifs <;> simp_all [spanContext?, context, eq_comm]
    | 1, hi => cases hi; split_ifs <;> simp_all [spanContext?, context, Context.reset]
  port := by
    intro i x hi
    match i, hi with
    | 0, hi =>
      cases hi
      simp only [reduceCtorEq, false_iff, not_forall, not_not]
      exact ⟨3, rfl⟩
    | 1, hi =>
      cases hi
      refine ⟨fun _ c => ?_, fun _ => rfl⟩
      rw [waiting_client]
      split_ifs <;> simp [busContext?]
  request := by
    intro c cmd k t call l h
    rw [waiting_client] at h
    split_ifs at h <;> cases h
    exact ⟨_, _, rfl, rfl, rfl⟩
  scratch := by decide

theorem witness_GuardKeepsOtherClientsOut :
    GuardInv waiting ∧ waiting.inputs = .turn 5 1 :: [] ∧ (5 : Nat) ≠ 3 ∧
      (∃ x, waiting.contexts[0]? = some x ∧ x.lock = .held 3) ∧ ∃ t, step waiting = .next t :=
  ⟨waiting_guardInv, rfl, by decide, ⟨_, rfl, rfl⟩, _, rfl⟩

/-! ## Witnesses: faults and errors -/

/-- An update on context 0 whose read span ends while the fault stands, and whose merge gives `new`. -/
def endingRead (mask : Half) : State where
  params := params
  faulted := true
  contexts := [{ context [] with lock := .held 3 }, context []]
  clients := [(3, .pending (encode (.updateReg 0 1 mask 0x0A5A)) (.rel 1 ⟨0, .read 1 2⟩ ⟨.ok, [0x34, 0x12]⟩) Locals.start)]
  hist := []
  inputs := [.turn 3 (0 + 3)]
  draws := 0

/-- What `step` answers at `endingRead`: the client's response, and whether the guard of context 0 is free. -/
def endingReadAnswer (mask : Half) : Option (Client × Option Lock) :=
  match step (endingRead mask) with
  | .next t => some (t.client 3, t.contexts[0]?.map Context.lock)
  | _ => none

/-- The span was not the last: its write is due. And it was: nothing is to be written. -/
theorem test_fault_during_update :
    endingReadAnswer 0x00F0 = some (.answered ⟨.faultContract, 0, []⟩, some .free) ∧
    endingReadAnswer 0x0000 = some (.answered ⟨.ok, 0, []⟩, some .free) := by decide +kernel

/-- In `DECODE`, and at an `Acquire`. -/
theorem witness_FaultedBlockAnswersFaultContract :
    ({ ready (.cvtSoc 0) 1 [] with faulted := true } : State).inputs = .turn 3 (0 + 1) :: [] ∧
    ({ ready (.cvtSoc 0) 1 [] with faulted := true } : State).client 3 =
      .pending (encode (.cvtSoc 0)) .decode Locals.start ∧
    ({ waiting with faulted := true } : State).inputs = .turn 5 (0 + 1) :: [] ∧
    ({ waiting with faulted := true } : State).client 5 =
      .pending (encode (.readReg 0 0)) (.acq 1 ⟨0, .read 0 2⟩) Locals.start := ⟨rfl, rfl, rfl, rfl⟩
/-- Waiting for the bus. -/
theorem witness_FaultedBlockAnswersFaultContract_bus :
    ({ waiting with faulted := true, inputs := [.turn 3 1] } : State).inputs = .turn 3 1 :: [] ∧
    ({ waiting with faulted := true, inputs := [.turn 3 1] } : State).client 3 =
      .pending (encode (.writeSync 0 1 [])) (.bus 1 1 ⟨0, .write [1]⟩) Locals.start ∧
    ∃ u, exec (.writeSync 0 1 []) { waiting with faulted := false, inputs := [.turn 3 1] } = .next u :=
  ⟨rfl, rfl, _, rfl⟩
/-- At the end of a span that is not the last, and of one that is. -/
theorem witness_FaultedBlockAnswersFaultContract_rel :
    ∀ mask : Half, (endingRead mask).faulted = true ∧ (endingRead mask).inputs = .turn 3 (0 + 3) :: [] ∧
      (endingRead mask).client 3 = .pending (encode (.updateReg 0 1 mask 0x0A5A))
        (.rel 1 ⟨0, .read 1 2⟩ ⟨.ok, [0x34, 0x12]⟩) Locals.start ∧
      (∃ x, (endingRead mask).contexts[0]? = some x ∧ x.lock = .held 3) ∧
      ∃ u, exec (.updateReg 0 1 mask 0x0A5A) { endingRead mask with faulted := false, inputs := .turn 3 2 :: [] } = .next u :=
  fun _ => ⟨rfl, rfl, rfl, ⟨_, rfl, rfl⟩, _, rfl⟩
/-- The first context that does not exist. -/
theorem witness_BadIndexRaisesContractFault :
    (Instr.readReg 2 0).bus? = some 2 ∧
    AtDecode (ready (.readReg 2 0) (0 + 1) []) 3 (0 + 1) [] (encode (.readReg 2 0)) ∧
    (ready (.readReg 2 0) (0 + 1) []).contexts.length ≤ (2 : BusIndex).toNat := ⟨rfl, ⟨rfl, rfl, rfl⟩, by decide⟩
/-- The last context that exists, closed. -/
theorem witness_ClosedContextRaisesContractFault :
    (Instr.readReg 1 0).bus? = some 1 ∧ Instr.readReg 1 0 ≠ .ctxOpen 1 ∧ Instr.readReg 1 0 ≠ .ctxClose 1 ∧
    AtDecode { ready (.readReg 1 0) (0 + 2) [] with contexts := [Context.reset 16 0, Context.reset 16 1] } 3 (0 + 2) []
      (encode (.readReg 1 0)) ∧
    ([Context.reset 16 0, Context.reset 16 1])[(1 : BusIndex).toNat]? = some (Context.reset 16 1) ∧
    (Context.reset 16 1).lock = .free ∧ (Context.reset 16 1).isOpen = false :=
  ⟨rfl, by decide, by decide, ⟨rfl, rfl, rfl⟩, rfl, rfl, rfl⟩
/-- At the second span of an update, whose context was closed between its spans. -/
theorem witness_ClosedContextRaisesContractFault_second :
    ({ waiting with inputs := [.turn 7 (0 + 1)], contexts := [Context.reset 16 0], clients := [(7, .pending
        (encode (.updateReg 0 1 1 1)) (.acq 2 ⟨0, .write [1, 1, 0]⟩) ⟨some 0, some 1, 0⟩)] } : State).client 7 =
      .pending (encode (.updateReg 0 1 1 1)) (.acq 2 ⟨0, .write [1, 1, 0]⟩) ⟨some 0, some 1, 0⟩ ∧
    waiting.faulted = false ∧ (∀ b, Span.write [1, 1, 0] ≠ .setOpen b) ∧
    ([Context.reset 16 0] : List Context)[0]? = some (Context.reset 16 0) ∧ (Context.reset 16 0).lock = .free ∧
    (Context.reset 16 0).isOpen = false := ⟨rfl, rfl, by simp, rfl, rfl, rfl⟩
theorem witness_FaultIsStickyAndStopsNewSpans :
    ({ waiting with faulted := true } : State).faulted = true ∧
    (∀ rest, ({ waiting with faulted := true } : State).inputs ≠ .reset :: rest) ∧
    ∃ t, step { waiting with faulted := true } = .next t := ⟨rfl, by simp [waiting], _, rfl⟩
theorem witness_IllegalDescriptorChangesOnlyItsClient :
    ({ ready (.cvtSoc 0) 1 [] with clients := [(3, .pending [0x10200001] .decode Locals.start)] } : State).inputs =
      .turn 3 (0 + 1) :: [] ∧
    ({ ready (.cvtSoc 0) 1 [] with clients := [(3, .pending [0x10200001] .decode Locals.start)] } : State).client 3 =
      .pending [0x10200001] .decode Locals.start ∧
    decode [0x10200001] = .error .unusedField := ⟨rfl, rfl, by decide⟩

/-! ## Witnesses: the step and the invariants -/

theorem ready_commandInv (i : Instr) (n : Nat) (answers : List BusAnswer) : CommandInv (ready i n answers) := by
  intro c cmd ph l h
  simp only [State.client, ready, clientAt] at h
  split_ifs at h
  cases h
  simp

theorem waiting_commandInv : CommandInv waiting := by
  intro c cmd ph l h _
  rw [waiting_client] at h
  split_ifs at h
  · cases h
    exact ⟨.writeSync 0 1 [], by decide, ⟨⟨0, rfl, rfl, by decide⟩, rfl⟩⟩
  · cases h
    exact ⟨.readReg 0 0, by decide, ⟨⟨0, rfl, rfl, by decide⟩, rfl⟩⟩

/-- A turn that answers `ERR_BUS_TRANSPORT`. -/
theorem witness_CommandsAnswerOnlyTheirStatuses :
    CommandInv (ready (.readReg 0 1) 40 [.err]) ∧ (ready (.readReg 0 1) 40 [.err]).inputs = .turn 3 40 :: [] ∧
    (ready (.readReg 0 1) 40 [.err]).client 3 = .pending (encode (.readReg 0 1)) .decode Locals.start ∧
    decode (encode (.readReg 0 1)) = .ok (.readReg 0 1) ∧
    ∃ t, exec (.readReg 0 1) (ready (.readReg 0 1) 40 [.err]) = .next t ∧
      t.client 3 = .answered ⟨.errBusTransport, 0, []⟩ :=
  ⟨ready_commandInv _ _ _, rfl, rfl, by decide, _, rfl, rfl⟩
/-- A command without a context, under the fault. -/
theorem witness_CommandsAnswerOnlyTheirStatuses_faulted :
    CommandInv { ready (.cvtSoc 0) 40 [] with faulted := true } ∧ (Instr.cvtSoc 0).bus? = none ∧
    ∃ t, exec (.cvtSoc 0) { ready (.cvtSoc 0) 40 [] with faulted := true } = .next t ∧
      t.client 3 = .answered ⟨.faultContract, 0, []⟩ :=
  ⟨ready_commandInv (.cvtSoc 0) 40 [], rfl, _, rfl, rfl⟩
theorem witness_StepRunsDecodedCommand :
    waiting.inputs = .turn 5 1 :: [] ∧
    waiting.client 5 = .pending (encode (.readReg 0 0)) (.acq 1 ⟨0, .read 0 2⟩) Locals.start ∧
    decode (encode (.readReg 0 0)) = .ok (.readReg 0 0) := ⟨rfl, rfl, by decide⟩
/-- A client that is idle, one that is pending, the last client's number and the first that is none. -/
theorem witness_SubmitStartsACommandInDecode :
    ({ waiting with inputs := [.submit 4 [0x40000000]] } : State).inputs = .submit 4 [0x40000000] :: [] ∧
    (∀ cmd ph l, waiting.client 4 ≠ .pending cmd ph l) ∧
    waiting.client 3 = .pending (encode (.writeSync 0 1 [])) (.bus 1 1 ⟨0, .write [1]⟩) Locals.start ∧
    7 < waiting.params.nClients ∧ waiting.params.nClients ≤ 8 :=
  ⟨rfl, by simp [waiting_client], rfl, by decide, by decide⟩
theorem witness_ResetEventRestoresResetValues :
    ({ waiting with faulted := true, inputs := [.reset] } : State).inputs = .reset :: [] := rfl
theorem witness_StepKeepsGuardDiscipline : GuardInv waiting ∧ ∃ t, step waiting = .next t :=
  ⟨waiting_guardInv, _, rfl⟩
theorem witness_StepKeepsCommandsInTheirContext : CommandInv waiting ∧ ∃ t, step waiting = .next t :=
  ⟨waiting_commandInv, _, rfl⟩
theorem witness_StepKeepsResponsesLegal :
    CommandInv (ready (.readReg 0 1) 40 [.err]) ∧ ResponsesLegal (ready (.readReg 0 1) 40 [.err]) ∧
    ∃ t, step (ready (.readReg 0 1) 40 [.err]) = .next t := by
  refine ⟨ready_commandInv _ _ _, fun c r h => ?_, _, rfl⟩
  simp only [State.client, ready, clientAt] at h
  split_ifs at h
/-- With a command that waits for its guard, and one that waits for the bus. -/
theorem witness_StepKeepsSpanNumbers :
    NumbersInv waiting ∧ (∃ t, step waiting = .next t) ∧
    waiting.client 5 = .pending (encode (.readReg 0 0)) (.acq 1 ⟨0, .read 0 2⟩) Locals.start ∧
    waiting.client 3 = .pending (encode (.writeSync 0 1 [])) (.bus 1 1 ⟨0, .write [1]⟩) Locals.start := by
  refine ⟨fun c cmd ph l i h hd => ?_, ⟨_, rfl⟩, rfl, rfl⟩
  rw [waiting_client] at h
  split_ifs at h
  · cases h
    obtain rfl : Instr.writeSync 0 1 [] = i := Except.ok.inj ((by decide : decode _ = .ok _).symm.trans hd)
    exact ⟨by decide, by decide, by decide, by decide, by decide⟩
  · cases h
    obtain rfl : Instr.readReg 0 0 = i := Except.ok.inj ((by decide : decode _ = .ok _).symm.trans hd)
    exact ⟨by decide, by decide, by decide⟩
theorem witness_CommandsTouchOnlyTheirContext :
    CommandInv waiting ∧ waiting.inputs = .turn 5 1 :: [] ∧
    waiting.client 5 = .pending (encode (.readReg 0 0)) (.acq 1 ⟨0, .read 0 2⟩) Locals.start ∧
    decode (encode (.readReg 0 0)) = .ok (.readReg 0 0) ∧ ∃ t, exec (.readReg 0 0) waiting = .next t :=
  ⟨waiting_commandInv, rfl, rfl, by decide, _, rfl⟩
theorem witness_HistoryOnlyGrows :
    (∀ rest, (ready (.readReg 0 1) 40 [.err]).inputs ≠ .reset :: rest) ∧
    ∃ t, step (ready (.readReg 0 1) 40 [.err]) = .next t := ⟨by simp [ready], _, rfl⟩
theorem witness_ParametersAreFixed : ∃ t, step waiting = .next t := ⟨_, rfl⟩

end Sys2Proof.Machine.Tests
end

section
/-! The link from `step` to `exec`: what `fetch` answers, and what a step does with it. -/

namespace Sys2Proof.Machine

/-- At a turn of a client, `fetch` answers the command its descriptor decodes to; the phase plays no part. -/
theorem fetch_of_turn {s : State} {c n : Nat} {rest : List Input} {cmd : List Word} {ph : Phase} {l : Locals}
    {i : Instr} (hturn : s.inputs = .turn c n :: rest) (hclient : s.client c = .pending cmd ph l)
    (hdecode : decode cmd = .ok i) : fetch s = some i := by
  simp [fetch, hturn, hclient, hdecode]

theorem step_of_fetch_eq_some {s : State} {i : Instr} (hfetch : fetch s = some i) : step s = exec i s := by
  simp [step, hfetch]

/-- Settles O49: the step is the meaning of what `fetch` answers, which is the pending command. -/
theorem stepRunsDecodedCommand : Obligations.StepRunsDecodedCommand := by
  intro s c n rest cmd ph l i hturn hclient hdecode
  have hfetch : fetch s = some i := fetch_of_turn hturn hclient hdecode
  exact step_of_fetch_eq_some hfetch

end Sys2Proof.Machine
end

section
/-! Every step keeps the guard discipline: each move of a command is a change of its client, alone or with the context
of its span (spec/10_state.md R24 to R26, R29). -/

namespace Sys2Proof.Machine

section guard
variable {s t : State} {c : Nat} {y : Client}

/-! ## What the discipline says of one client and one context -/

/-- A client that waits for a bus is in a span of that context (R29). -/
theorem spanContext?_of_busContext? {i : Nat} (h : busContext? y = some i) : spanContext? y = some i := by
  unfold busContext? at h
  split at h
  · exact h
  · cases h

/-- The guard of a context has one holder, so no other client is in a span of it (R24). -/
theorem GuardInv.span_unique {i c' : Nat} {x : Context} (h : GuardInv s) (hx : s.contexts[i]? = some x)
    (hc : spanContext? (s.client c) = some i) (hne : c' ≠ c) : spanContext? (s.client c') ≠ some i := by
  intro hc'
  have hlock : x.lock = .held c := (h.guard i x hx c).mpr hc
  have hlock' : x.lock = .held c' := (h.guard i x hx c').mpr hc'
  exact hne (Lock.held.inj (hlock'.symm.trans hlock))

/-- While a guard is free, no client is in a span of its context (R24, R25). -/
theorem GuardInv.no_span_of_free {i : Nat} {x : Context} (h : GuardInv s) (hx : s.contexts[i]? = some x)
    (hl : x.lock = .free) (c : Nat) : spanContext? (s.client c) ≠ some i := by
  intro hc
  have hlock : x.lock = .held c := (h.guard i x hx c).mpr hc
  simp [hl] at hlock

/-- While a guard is free, no request is with its bus (R29). -/
theorem GuardInv.onBus_of_free {i : Nat} {x : Context} (h : GuardInv s) (hx : s.contexts[i]? = some x)
    (hl : x.lock = .free) : x.onBus = none :=
  (h.port i x hx).mpr fun c hb => h.no_span_of_free hx hl c (spanContext?_of_busContext? hb)

/-- The holder of a guard that does not wait for the bus has no request there (R29). -/
theorem GuardInv.onBus_of_holder {i : Nat} {x : Context} (h : GuardInv s) (hx : s.contexts[i]? = some x)
    (hs : spanContext? (s.client c) = some i) (hb : busContext? (s.client c) = none) : x.onBus = none := by
  refine (h.port i x hx).mpr fun c' hb' => ?_
  by_cases hc : c' = c
  · simp [hc, hb] at hb'
  · exact h.span_unique hx hs hc (spanContext?_of_busContext? hb')

/-- The scratch buffers of a context that exists have their size (R26). -/
theorem GuardInv.scratch_of {i : Nat} {x : Context} (h : GuardInv s) (hx : s.contexts[i]? = some x) :
    x.rscratch.length = s.params.scratchSize ∧ x.wscratch.length = s.params.scratchSize :=
  h.scratch x (List.mem_of_getElem? hx)

/-! ## The ways a client and its context change -/

/-- The discipline does not speak of the events to come. -/
theorem GuardInv.with_inputs (h : GuardInv s) (rest : List Input) : GuardInv { s with inputs := rest } :=
  ⟨h.canonical, h.exist, h.guard, h.port, h.request, h.scratch⟩

/-- The client is in no span, and so waits for no bus: what it is in `DECODE`, `ACQ`, `COMPUTE` and answered (R29). -/
theorem busContext?_of_no_span (h : spanContext? y = none) : busContext? y = none := by
  cases hb : busContext? y with
  | none => rfl
  | some i => simp [spanContext?_of_busContext? hb] at h

/-- A client outside every span changes, and is outside every span still. -/
theorem GuardInv.outside_span (h : GuardInv s) (hn : c < s.params.nClients) (hy : y ≠ .idle)
    (hcl : t.clients = putClient s.clients c y) (hset : t.contexts = s.contexts) (hp : t.params = s.params)
    (hold : spanContext? (s.client c) = none) (hnew : spanContext? y = none) : GuardInv t :=
  guard_client h hn hy hcl hset hp (fun i _ => by simp [hold, hnew]) (busContext?_of_no_span hnew)
    (busContext?_of_no_span hold)

/-- A decision is made outside every span, and leaves its client there: waiting for a guard, or answered. -/
theorem GuardInv.follow {k : Nat} {cmd : List Word} (h : GuardInv s) (hn : c < s.params.nClients)
    (hs : spanContext? (s.client c) = none) (d : Decision) : GuardInv (follow c cmd k d s) := by
  obtain ⟨call, -, e⟩ | ⟨r, -, e⟩ := follow_cases c cmd k d s <;> rw [e]
  · exact h.outside_span hn (y := .pending cmd (.acq (k + 1) call) d.locals) (by simp) rfl rfl rfl hs rfl
  · exact h.outside_span hn (y := .answered r) (by simp) rfl rfl rfl hs rfl

/-- The client `y` of a context `i` that is now `x`: in a span of it, and if it waits for the bus, its request is the
one with the bus, which otherwise has none (R25, R29). -/
structure InSpan (p : Params) (i : Nat) (y : Client) (x : Context) : Prop where
  span : spanContext? y = some i
  port : x.onBus = none ↔ busContext? y = none
  request : ∀ cmd k tt call l, y = .pending cmd (.bus k tt call) l →
    ∃ txn, call.span.transaction tt = some txn ∧ x.onBus = some ⟨x.endpoint, txn, call.span.timeout p⟩

/-- A client that waits for the bus, which has the request of its phase. -/
theorem InSpan.waiting {p : Params} {cmd : List Word} {k tt : Nat} {call : Call} {l : Locals} {x : Context}
    {txn : Transaction} (ht : call.span.transaction tt = some txn)
    (hx : x.onBus = some ⟨x.endpoint, txn, call.span.timeout p⟩) :
    InSpan p call.ctx (.pending cmd (.bus k tt call) l) x where
  span := rfl
  port := by simp [hx, busContext?]
  request := by rintro _ _ _ _ _ ⟨⟩; exact ⟨txn, ht, hx⟩

/-- A client that is about to free its guard has nothing with the bus. -/
theorem InSpan.leaving {p : Params} {cmd : List Word} {k : Nat} {call : Call} {r : SpanResult} {l : Locals}
    {x : Context} (hx : x.onBus = none) : InSpan p call.ctx (.pending cmd (.rel k call r) l) x where
  span := rfl
  port := by simp [hx, busContext?]
  request := by rintro _ _ _ _ _ ⟨⟩

theorem InSpan.bus_or_none {p : Params} {i : Nat} {x : Context} (h : InSpan p i y x) :
    busContext? y = some i ∨ busContext? y = none := by
  cases hb : busContext? y with
  | none => exact .inr rfl
  | some j => exact .inl (by rw [← h.span, spanContext?_of_busContext? hb])

/-- A client that was in a span of the context `i` or in none is in a span of it and holds its guard, where no other
client was in a span of it. -/
theorem GuardInv.enter {i : Nat} {x x' : Context} (h : GuardInv s) (hn : c < s.params.nClients)
    (hx : s.contexts[i]? = some x) (hcl : t.clients = putClient s.clients c y)
    (hset : t.contexts = s.contexts.set i x') (hp : t.params = s.params)
    (hold : spanContext? (s.client c) = some i ∨ spanContext? (s.client c) = none)
    (hothers : ∀ c', c' ≠ c → spanContext? (s.client c') ≠ some i) (hnew : InSpan s.params i y x')
    (hlock : x'.lock = .held c) (he : x'.endpoint = x.endpoint) (hr : x'.rscratch.length = s.params.scratchSize)
    (hw : x'.wscratch.length = s.params.scratchSize) : GuardInv t := by
  refine guard_context h hn (by rintro rfl; cases hnew.span) hcl hx hset hp (.inl hnew.span) hold hnew.bus_or_none ?_
    he hr hw (fun c' => by simp [hlock, hnew.span, eq_comm]) hothers hnew.port fun cmd k tt call l e => ?_
  · cases hb : busContext? (s.client c) with
    | none => exact .inr rfl
    | some j => exact .inl (by simpa [spanContext?_of_busContext? hb] using hold)
  · have hspan := hnew.span
    rw [e] at hspan
    exact ⟨Option.some.inj hspan, he ▸ hnew.request cmd k tt call l e⟩

/-- A client in a span of the context `i` stays in it, and the guard with it. -/
theorem GuardInv.stay {i : Nat} {x x' : Context} (h : GuardInv s) (hn : c < s.params.nClients)
    (hx : s.contexts[i]? = some x) (hcl : t.clients = putClient s.clients c y)
    (hset : t.contexts = s.contexts.set i x') (hp : t.params = s.params) (hold : spanContext? (s.client c) = some i)
    (hnew : InSpan s.params i y x') (hlock : x'.lock = x.lock) (he : x'.endpoint = x.endpoint)
    (hr : x'.rscratch.length = s.params.scratchSize) (hw : x'.wscratch.length = s.params.scratchSize) : GuardInv t :=
  h.enter hn hx hcl hset hp (.inl hold) (fun _ hne => h.span_unique hx hold hne) hnew
    (hlock.trans ((h.guard i x hx c).mpr hold)) he hr hw

/-- A client at the end of a span of the context `i` frees its guard and is in no span (R16, R24). -/
theorem GuardInv.leave {i : Nat} {x : Context} (h : GuardInv s) (hn : c < s.params.nClients) (hy : y ≠ .idle)
    (hx : s.contexts[i]? = some x) (hcl : t.clients = putClient s.clients c y)
    (hset : t.contexts = s.contexts.set i (releaseLock c x)) (hp : t.params = s.params)
    (hold : spanContext? (s.client c) = some i) (hbold : busContext? (s.client c) = none)
    (hnew : spanContext? y = none) : GuardInv t := by
  have hheld : x.lock = .held c := (h.guard i x hx c).mpr hold
  have hbnew : busContext? y = none := busContext?_of_no_span hnew
  refine guard_context h hn hy hcl hx hset hp (.inr hnew) (.inl hold) (.inr hbnew) (.inr hbold) rfl
    (h.scratch_of hx).1 (h.scratch_of hx).2 (fun c' => by simp [releaseLock, hheld, hnew])
    (fun _ hne => h.span_unique hx hold hne) ?_ ?_
  · have hport : x.onBus = none := h.onBus_of_holder hx hold hbold
    exact iff_of_true hport hbnew
  · rintro cmd k tt call l rfl
    cases hnew

/-! ## The moves -/

/-- Every move of a command keeps the guard discipline. -/
theorem Move.guardInv {p : Program} (h : Move p c s t) (hs : GuardInv s) : GuardInv t := by
  have exists_of {cmd ph l} (hc : s.client c = .pending cmd ph l) : c < s.params.nClients :=
    hs.exist c (by simp [hc])
  cases h with
  | wait => exact hs
  | stopped cmd ph l hc _ hph =>
    refine hs.outside_span (exists_of hc) (y := .answered _) (by simp) rfl rfl rfl ?_ rfl
    obtain rfl | ⟨k, call, rfl⟩ := hph <;> rw [hc] <;> rfl
  | fault cmd ph l hc _ hph =>
    refine hs.outside_span (exists_of hc) (y := .answered _) (by simp) rfl rfl rfl ?_ rfl
    obtain ⟨rfl, -⟩ | ⟨k, call, rfl⟩ := hph <;> rw [hc] <;> rfl
  | compute cmd l hc =>
    exact hs.outside_span (exists_of hc) (y := .pending _ _ _) (by simp) rfl rfl rfl (by rw [hc]; rfl) rfl
  | start cmd l b hc => exact hs.follow (exists_of hc) (by rw [hc]; rfl) _
  | next cmd k last l hc => exact hs.follow (exists_of hc) (by rw [hc]; rfl) _
  | setOpen cmd k i b l x hc _ hx hl =>
    obtain ⟨hr, hw⟩ := hs.scratch_of hx
    have hport : x.onBus = none := hs.onBus_of_free hx hl
    exact hs.enter (exists_of hc) hx rfl rfl rfl (.inr (by rw [hc]; rfl)) (fun c' _ => hs.no_span_of_free hx hl c')
      (.leaving (call := ⟨i, .setOpen b⟩) hport) rfl rfl hr hw
  | handOver cmd k call l x txn hc _ hx hl _ _ ht =>
    obtain ⟨hr, hw⟩ := hs.scratch_of hx
    exact hs.enter (exists_of hc) hx rfl rfl rfl (.inr (by rw [hc]; rfl)) (fun c' _ => hs.no_span_of_free hx hl c')
      (.waiting ht rfl) rfl rfl hr (length_assembleFrames txn hw)
  | second cmd k tt call l x txn txn' a rest count hc hx _ ht' =>
    obtain ⟨hr, hw⟩ := hs.scratch_of hx
    exact hs.stay (exists_of hc) hx rfl rfl rfl (by rw [hc]; rfl) (.waiting ht' rfl) rfl rfl (length_overlay _ hr)
      (length_assembleFrames txn' hw)
  | answered cmd k tt call l x txn a rest o buffer hc hx =>
    obtain ⟨hr, hw⟩ := hs.scratch_of hx
    exact hs.stay (exists_of hc) hx rfl rfl rfl (by rw [hc]; rfl) (.leaving rfl) rfl rfl (length_overlay _ hr) hw
  | release cmd k call r l x hc hx =>
    exact hs.leave (exists_of hc) (y := .pending _ _ _) (by simp) hx rfl rfl rfl (by rw [hc]; rfl) (by rw [hc]; rfl)
      rfl
  | releaseNone cmd k call r l hc hx =>
    refine guard_client hs (exists_of hc) (y := .pending _ _ _) (by simp) rfl rfl rfl (fun i hi => ?_) rfl
      (by rw [hc]; rfl)
    have hne : call.ctx ≠ i := by rintro rfl; simp at hx; omega
    simp [hc, spanContext?, hne]

/-- The list of contexts after the bus gave an answer for one that exists: each is as before but for its answers. -/
theorem getElem?_set_answers {xs : List Context} {i : Nat} {x : Context} (hx : xs[i]? = some x)
    (answers : List BusAnswer) (j : Nat) : (xs.set i { x with answers := answers })[j]? =
      xs[j]?.map fun w => { w with answers := if j = i then answers else w.answers } := by
  by_cases hj : j = i
  · subst hj
    simp [set_getElem?_self hx, hx]
  · simp [List.getElem?_set_ne (Ne.symm hj), hj]

/-- An answer the bus gives waits in its context; the discipline does not speak of the answers. -/
theorem GuardInv.answer {i : Nat} {x : Context} (h : GuardInv s) (hx : s.contexts[i]? = some x)
    (answers : List BusAnswer) : GuardInv (s.setContext i { x with answers := answers }) := by
  have hget := getElem?_set_answers hx answers
  refine ⟨h.canonical, h.exist, fun j z hz => ?_, fun j z hz => ?_, fun c cmd k tt call l hc => ?_, fun z hz => ?_⟩
  · obtain ⟨w, hw, rfl⟩ := Option.map_eq_some_iff.mp ((hget j).symm.trans hz)
    exact h.guard j w hw
  · obtain ⟨w, hw, rfl⟩ := Option.map_eq_some_iff.mp ((hget j).symm.trans hz)
    exact h.port j w hw
  · obtain ⟨w, txn, hw, ht, hb⟩ := h.request c cmd k tt call l hc
    exact ⟨_, txn, (hget call.ctx).trans (congrArg _ hw), ht, hb⟩
  · obtain ⟨j, hj⟩ := List.mem_iff_getElem?.mp hz
    obtain ⟨w, hw, rfl⟩ := Option.map_eq_some_iff.mp ((hget j).symm.trans hj)
    have hlen := h.scratch_of hw
    exact hlen

/-- After reset every guard is free, no request is with a bus and no client is in a span (R38, R300). -/
theorem guardInv_resetBlock (s : State) : GuardInv (resetBlock s) := by
  have hidle (c : Nat) : (resetBlock s).client c = .idle := rfl
  have hget {i : Nat} {z : Context} (hz : (resetBlock s).contexts[i]? = some z) : ∃ x, z = resetContext s.params x := by
    obtain ⟨x, -, rfl⟩ := Option.map_eq_some_iff.mp (List.getElem?_map.symm.trans hz)
    exact ⟨x, rfl⟩
  refine ⟨⟨.nil, by simp [resetBlock]⟩, fun c hc => absurd (hidle c) hc, fun i z hz c => ?_, fun i z hz => ?_,
    fun c cmd k tt call l hc => ?_, fun z hz => ?_⟩
  · obtain ⟨x, rfl⟩ := hget hz
    simp [hidle, spanContext?, resetContext, Context.reset]
  · obtain ⟨x, rfl⟩ := hget hz
    simp [hidle, busContext?, resetContext, Context.reset]
  · simp [hidle] at hc
  · obtain ⟨i, hi⟩ := List.mem_iff_getElem?.mp hz
    obtain ⟨x, rfl⟩ := hget hi
    simp [resetBlock, resetContext, Context.reset]

/-- Every event from outside keeps the guard discipline. -/
theorem OutsideMove.guardInv (h : OutsideMove s t) (hs : GuardInv s) : GuardInv t := by
  cases h with
  | quiet => exact hs
  | lost e rest => exact hs.with_inputs rest
  | submit c descriptor rest _ hn hc =>
    refine (hs.with_inputs rest).outside_span hn (y := .pending _ _ _) (by simp) rfl rfl rfl ?_ rfl
    unfold spanContext?
    split
    · exact absurd ‹_› (hc _ _ _)
    · exact absurd ‹_› (hc _ _ _)
    · rfl
  | answer i a rest x _ hx => exact (hs.with_inputs rest).answer hx (x.answers ++ [a])
  | reset rest => exact guardInv_resetBlock _
  | refuse c n rest cmd l _ hc =>
    exact (hs.with_inputs rest).outside_span (hs.exist c (by simp [hc])) (y := .answered _) (by simp) rfl rfl rfl
      (by rw [client_with_inputs, hc]; rfl) rfl

end guard

/-- Settles O53: a turn is moves of one command, and every other step an event from outside. -/
theorem stepKeepsGuardDiscipline : Obligations.StepKeepsGuardDiscipline := by
  intro s t hs hstep
  obtain ⟨i, c, n, rest, cmd, ph, l, -, -, -, rfl⟩ | ⟨-, hout⟩ := step_cases hstep
  · exact turnSteps_moves _ c GuardInv (fun u v hu hm => hm.guardInv hu) n _ (hs.with_inputs rest)
  · exact hout.guardInv hs

end Sys2Proof.Machine
end

section
/-! How a step treats what it may change only a little: the parameters, the fault, the history, and of each context
its endpoint and, under the fault, its guard and `OPEN` (spec/10_state.md R22, R35, R37, spec/60_exceptions.md R276). -/

namespace Sys2Proof.Machine

/-! ## What stays of a context -/

/-- A context that was `x` is now `x'`: the endpoint is the same, and if the fault stands (`f`), so is `OPEN`, and
nobody took the guard (R37, R276). -/
structure ContextKept (f : Bool) (x x' : Context) : Prop where
  endpoint : x'.endpoint = x.endpoint
  isOpen : f = true → x'.isOpen = x.isOpen
  lock : f = true → ∀ c, x'.lock = .held c → x.lock = .held c

theorem ContextKept.refl (f : Bool) (x : Context) : ContextKept f x x := ⟨rfl, fun _ => rfl, fun _ _ h => h⟩

/-- A change that leaves the endpoint, `OPEN` and the guard alone. -/
theorem ContextKept.of_eq {f : Bool} {x x' : Context} (he : x'.endpoint = x.endpoint) (ho : x'.isOpen = x.isOpen)
    (hl : x'.lock = x.lock) : ContextKept f x x' := ⟨he, fun _ => ho, fun _ _ h => hl ▸ h⟩

/-- Freeing a guard gives it to nobody (R24). -/
theorem ContextKept.release (f : Bool) (c : Nat) (x : Context) : ContextKept f x (releaseLock c x) := by
  refine ⟨rfl, fun _ => rfl, fun _ c' h => ?_⟩
  simp only [releaseLock] at h
  split at h
  · cases h
  · exact h

/-- `f` stays set once it is (R22), so the changes compose. -/
theorem ContextKept.trans {f g : Bool} {x y z : Context} (h : ContextKept f x y) (hfg : f = true → g = true)
    (h' : ContextKept g y z) : ContextKept f x z where
  endpoint := h'.endpoint.trans h.endpoint
  isOpen hf := (h'.isOpen (hfg hf)).trans (h.isOpen hf)
  lock hf c hz := h.lock hf c (h'.lock (hfg hf) c hz)

/-! ## What stays of the state -/

/-- From `s` to `t` the parameters stay, a fault that stands stays, the history grows by events of the clients in `A`
only, and every context is kept. -/
structure Kept (A : Nat → Prop) (s t : State) : Prop where
  params : t.params = s.params
  faulted : s.faulted = true → t.faulted = true
  hist : ∃ events, t.hist = s.hist ++ events ∧ ∀ e ∈ events, A e.client
  contexts : List.Forall₂ (ContextKept s.faulted) s.contexts t.contexts

section kept
variable {A : Nat → Prop} {s t u : State}

theorem contextsKept_refl (f : Bool) (xs : List Context) : List.Forall₂ (ContextKept f) xs xs :=
  List.forall₂_same.mpr fun x _ => .refl f x

/-- Where one context changes, the others are kept as they were. -/
theorem contextsKept_set {f : Bool} {xs : List Context} {i : Nat} {x x' : Context} (hx : xs[i]? = some x)
    (h : ContextKept f x x') : List.Forall₂ (ContextKept f) xs (xs.set i x') := by
  induction xs generalizing i with
  | nil => simp at hx
  | cons y ys ih =>
    cases i with
    | zero =>
      obtain rfl : y = x := by simpa using hx
      exact .cons h (contextsKept_refl f ys)
    | succ i => exact .cons (.refl f y) (ih (by simpa using hx))

theorem contextsKept_trans {f g : Bool} (hfg : f = true → g = true) {xs ys zs : List Context}
    (h : List.Forall₂ (ContextKept f) xs ys) (h' : List.Forall₂ (ContextKept g) ys zs) :
    List.Forall₂ (ContextKept f) xs zs := by
  induction h generalizing zs with
  | nil => cases h'; exact .nil
  | cons hxy _ ih => cases h' with | cons hyz hrest => exact .cons (hxy.trans hfg hyz) (ih hrest)

/-- No event, and no change to any context. -/
theorem Kept.of_eq (hp : t.params = s.params) (hf : s.faulted = true → t.faulted = true) (hh : t.hist = s.hist)
    (hx : t.contexts = s.contexts) : Kept A s t :=
  ⟨hp, hf, ⟨[], by simp [hh], by simp⟩, hx ▸ contextsKept_refl _ _⟩

/-- No event, and one context changes. -/
theorem Kept.of_set {i : Nat} {x x' : Context} (hp : t.params = s.params) (hf : t.faulted = s.faulted)
    (hh : t.hist = s.hist) (hi : s.contexts[i]? = some x) (hx : t.contexts = s.contexts.set i x')
    (h : ContextKept s.faulted x x') : Kept A s t :=
  ⟨hp, hf ▸ id, ⟨[], by simp [hh], by simp⟩, hx ▸ contextsKept_set hi h⟩

/-- One event of a client of `A`, and its context changes. -/
theorem Kept.of_event {i : Nat} {x x' : Context} {e : BusEvent} (hp : t.params = s.params)
    (hf : t.faulted = s.faulted) (hh : t.hist = s.hist ++ [e]) (he : A e.client) (hi : s.contexts[i]? = some x)
    (hx : t.contexts = s.contexts.set i x') (h : ContextKept s.faulted x x') : Kept A s t :=
  ⟨hp, hf ▸ id, ⟨[e], hh, by simpa using he⟩, hx ▸ contextsKept_set hi h⟩

theorem Kept.trans (h : Kept A s t) (h' : Kept A t u) : Kept A s u := by
  obtain ⟨es, hes, hA⟩ := h.hist
  obtain ⟨es', hes', hA'⟩ := h'.hist
  refine ⟨h'.params.trans h.params, fun hf => h'.faulted (h.faulted hf), ⟨es ++ es', ?_, fun e he => ?_⟩,
    contextsKept_trans h.faulted h.contexts h'.contexts⟩
  · rw [hes', hes, List.append_assoc]
  · exact (List.mem_append.mp he).elim (hA e) (hA' e)

/-- A decision touches neither the history nor a context. -/
theorem follow_kept (c : Nat) (cmd : List Word) (k : Nat) (d : Decision) (s : State) :
    Kept A s (follow c cmd k d s) := by
  obtain ⟨call, -, h⟩ | ⟨r, -, h⟩ := follow_cases c cmd k d s <;> rw [h] <;> exact .of_eq rfl id rfl rfl

/-- One step of a command adds at most an event of its client; taking the guard and changing `OPEN` are the moves a
fault stops (R35, R276). -/
theorem Move.kept {p : Program} {c : Nat} (h : Move p c s t) (hc : A c) : Kept A s t := by
  cases h with
  | wait => exact .of_eq rfl id rfl rfl
  | stopped => exact .of_eq rfl id rfl rfl
  | fault => exact .of_eq rfl (fun _ => rfl) rfl rfl
  | compute => exact .of_eq rfl id rfl rfl
  | start => exact follow_kept ..
  | next => exact follow_kept ..
  | setOpen cmd k i b l x _ hf hx => exact .of_set rfl rfl rfl hx rfl ⟨rfl, by simp [hf], by simp [hf]⟩
  | handOver cmd k call l x txn _ hf hx => exact .of_set rfl rfl rfl hx rfl ⟨rfl, by simp [hf], by simp [hf]⟩
  | second cmd k tt call l x txn txn' a rest count _ hx =>
    exact .of_event (e := ⟨call.ctx, c, txn, .okWrite count⟩) rfl rfl rfl hc hx rfl (.of_eq rfl rfl rfl)
  | answered cmd k tt call l x txn a rest o buffer _ hx =>
    exact .of_event (e := ⟨call.ctx, c, txn, o⟩) rfl rfl rfl hc hx rfl (.of_eq rfl rfl rfl)
  | release cmd k call r l x _ hx => exact .of_set rfl rfl rfl hx rfl (.release _ c x)
  | releaseNone => exact .of_eq rfl id rfl rfl

/-- Every event from outside but reset adds nothing to the history, and gives no guard away. -/
theorem OutsideMove.kept (h : OutsideMove s t) (hr : ∀ rest, s.inputs ≠ .reset :: rest) : Kept A s t := by
  cases h with
  | quiet => exact .of_eq rfl id rfl rfl
  | lost => exact .of_eq rfl id rfl rfl
  | submit => exact .of_eq rfl id rfl rfl
  | answer i a rest x _ hx => exact .of_set rfl rfl rfl hx rfl (.of_eq rfl rfl rfl)
  | reset rest hi => exact absurd hi (hr rest)
  | refuse => exact .of_eq rfl id rfl rfl

/-- Every step but reset keeps the state so, its events being of the client whose turn it is. -/
theorem step_kept (hr : ∀ rest, s.inputs ≠ .reset :: rest) (h : step s = .next t) :
    Kept (fun c => ∃ n rest, s.inputs = .turn c n :: rest) s t := by
  obtain ⟨i, c, n, rest, cmd, ph, l, hi, -, -, rfl⟩ | ⟨-, hout⟩ := step_cases h
  · exact turnSteps_moves _ c (Kept _ s) (fun u v hu hm => hu.trans (hm.kept ⟨n, rest, hi⟩)) n _
      (.of_eq rfl id rfl rfl)
  · exact hout.kept hr

end kept

/-! ## The statements -/

/-- Settles O46: under the fault every context is kept with `OPEN` and without a new holder. -/
theorem faultIsStickyAndStopsNewSpans : Obligations.FaultIsStickyAndStopsNewSpans := by
  intro s t hf hr hstep
  have hk := step_kept hr hstep
  refine ⟨hk.faulted hf, fun i x' hx' => ?_⟩
  obtain ⟨hi', rfl⟩ := List.getElem?_eq_some_iff.mp hx'
  have hi : i < s.contexts.length := hk.contexts.length_eq ▸ hi'
  have hkept : ContextKept s.faulted s.contexts[i] t.contexts[i] := hk.contexts.get hi hi'
  exact ⟨s.contexts[i], List.getElem?_eq_getElem hi, hkept.isOpen hf, hkept.lock hf⟩

/-- Settles O59: each step is kept with the events of the client whose turn it is. -/
theorem historyOnlyGrows : Obligations.HistoryOnlyGrows := fun _ _ hr hstep => (step_kept hr hstep).hist

/-- Contexts that are kept have the endpoints they had. -/
theorem endpoints_of_kept {f : Bool} {xs ys : List Context} (h : List.Forall₂ (ContextKept f) xs ys) :
    ys.map Context.endpoint = xs.map Context.endpoint := by
  induction h with
  | nil => rfl
  | cons hxy _ ih => simp [hxy.endpoint, ih]

/-- Reset gives every context its own endpoint back (R37, R300). -/
theorem endpoints_resetBlock (s : State) :
    (resetBlock s).contexts.map Context.endpoint = s.contexts.map Context.endpoint := by
  simp [resetBlock, resetContext, Context.reset]

/-- A reset event runs no command. -/
theorem step_reset {s : State} {rest : List Input} (h : s.inputs = .reset :: rest) :
    step s = .next (resetBlock { s with inputs := rest }) := by
  simp [step, fetch, outside, h]

/-- Settles O60: every step but reset keeps the contexts' endpoints, and reset gives each its own. -/
theorem parametersAreFixed : Obligations.ParametersAreFixed := by
  intro s t hstep
  by_cases hr : ∃ rest, s.inputs = .reset :: rest
  · obtain ⟨rest, hr⟩ := hr
    cases (step_reset hr).symm.trans hstep
    exact ⟨rfl, endpoints_resetBlock _⟩
  · have hk := step_kept (not_exists.mp hr) hstep
    exact ⟨hk.params, endpoints_of_kept hk.contexts⟩

end Sys2Proof.Machine
end

section
/-! Every step keeps the numbers of spans and transactions and `STEP` in their bounds (spec/10_state.md R29, R31): what
each program shape may decide, then the moves of a command. -/

namespace Sys2Proof.Machine

/-! ## What a command may decide next -/

/-- A decision after span `k` of the command `i` is numbered: the span it calls has a number within its bound, under the
`STEP` it leaves. -/
structure DecisionNumbered (i : Instr) (k : Nat) (d : Decision) : Prop where
  call : ∀ call, d.action = .call call → d.locals.step ≤ 3 ∧ k + 1 ≤ spanBound i d.locals.step call.span

/-- A decision that answers calls no span. -/
theorem decisionNumbered_respond (i : Instr) (k : Nat) (l : Locals) (r : Response) (n : Nat) :
    DecisionNumbered i k ⟨l, .respond r, n⟩ :=
  ⟨by rintro _ ⟨⟩⟩

theorem decisionNumbered_call {i : Instr} {k : Nat} {l : Locals} {call : Call} {n : Nat} (hl : l.step ≤ 3)
    (hk : k + 1 ≤ spanBound i l.step call.span) : DecisionNumbered i k ⟨l, .call call, n⟩ :=
  ⟨by rintro _ ⟨⟩; exact ⟨hl, hk⟩⟩

/-- In every phase after `DECODE` that may decide, `STEP` is at most 3. -/
theorem step_le_of_compute {i : Instr} {l : Locals} {k : Nat} {last : Option (Span × SpanResult)}
    (h : PhaseNumbered i l (.compute k last)) : l.step ≤ 3 := by
  match last, h with
  | none, h => exact h.1.trans_le (Nat.zero_le _)
  | some (_, _), h => exact h.1

/-- Every kind of span has a first number. -/
theorem one_le_spanBound (i : Instr) (step : Nat) (span : Span) : 1 ≤ spanBound i step span := by
  unfold spanBound
  split <;> omega

/-- A command of one span makes it first, and then answers. -/
theorem drawingProgram_numbered {i : Instr} {l : Locals} {k : Nat} {last : Option (Span × SpanResult)}
    (h : PhaseNumbered i l (.compute k last)) (b : BusIndex) (span : Span)
    (finish : Nat → SpanResult → Response × Nat) (d : Nat) :
    DecisionNumbered i k ((drawingProgram b span finish).next d l last) := by
  cases last with
  | none =>
    have hstep : l.step ≤ 3 := step_le_of_compute h
    obtain ⟨-, rfl⟩ := h
    exact decisionNumbered_call hstep (one_le_spanBound i l.step span)
  | some last => exact decisionNumbered_respond _ _ _ _ _

/-- A command without a context calls no span. -/
theorem pureProgram_numbered (i : Instr) (l : Locals) (k : Nat) (last : Option (Span × SpanResult))
    (result : Nat → Word × Nat) (d : Nat) : DecisionNumbered i k ((pureProgram result).next d l last) :=
  decisionNumbered_respond _ _ _ _ _

/-- An update writes in the span after the one it reads in (R29, 41_register_codec.md R153). -/
theorem spanBound_read_lt_write (i : Instr) (step : Nat) (a : Byte) (n : Nat) (frame : List Byte) :
    spanBound i step (.read a n) < spanBound i step (.write frame) := by
  cases i <;> simp [spanBound]

/-- What a masked update calls: its read at the start, and its write after a read. -/
theorem updateStep_call {f : FieldUpdate} {l l' : Locals} {last : Option (Span × SpanResult)} {span : Span}
    (h : updateStep f l last = (l', .call span)) :
    last = none ∨ ∃ a n r frame, last = some (.read a n, r) ∧ span = .write frame := by
  unfold updateStep at h
  split at h
  · exact .inl rfl
  · rename_i a n r
    split at h
    · simp only [Prod.mk.injEq] at h
      obtain ⟨-, h⟩ := h
      split at h
      · cases h
      · cases h
        exact .inr ⟨a, n, r, _, rfl, rfl⟩
    · cases h
  · cases h

/-- The span a masked update calls is within its bound (R29). -/
theorem updateStep_numbered {i : Instr} {f : FieldUpdate} {l l' : Locals} {k : Nat}
    {last : Option (Span × SpanResult)} {span : Span} (h : PhaseNumbered i l (.compute k last))
    (hu : updateStep f l last = (l', .call span)) : l'.step ≤ 3 ∧ k + 1 ≤ spanBound i l'.step span := by
  have hstep : l'.step = l.step := by simpa [hu] using updateStep_step f l last
  rw [hstep]
  refine ⟨step_le_of_compute h, ?_⟩
  obtain rfl | ⟨a, n, r, frame, rfl, rfl⟩ := updateStep_call hu
  · obtain ⟨-, rfl⟩ := h
    exact one_le_spanBound i l.step span
  · obtain ⟨-, -, hk⟩ := h
    exact Nat.lt_of_le_of_lt hk (spanBound_read_lt_write i l.step a n frame)

/-- A command that is one masked update. -/
theorem updateProgram_numbered {i : Instr} {l : Locals} {k : Nat} {last : Option (Span × SpanResult)}
    (h : PhaseNumbered i l (.compute k last)) (b : BusIndex) (f : FieldUpdate) (d : Nat) :
    DecisionNumbered i k ((updateProgram b f).next d l last) := by
  simp only [updateProgram]
  split
  · rename_i l' span hu
    obtain ⟨hstep, hk⟩ := updateStep_numbered h hu
    exact decisionNumbered_call hstep hk
  · exact decisionNumbered_respond _ _ _ _ _

/-- `CHG_PROBE` makes two spans for each `STEP`, so the read of its next field comes within its bound (R31, R230). -/
theorem spanBound_chgProbe_next {b : BusIndex} {e : Bool} {icl cc top : Half} {step k : Nat} {span : Span}
    (h : k ≤ spanBound (.chgProbe b e icl cc top) step span) (a : Byte) (n : Nat) :
    k + 1 ≤ spanBound (.chgProbe b e icl cc top) (step + 1) (.read a n) := by
  have hle : spanBound (.chgProbe b e icl cc top) step span ≤ 2 * step + 2 := by cases span <;> simp [spanBound]
  simp only [spanBound]
  omega

/-- `CHG_PROBE`: an update that ends goes on to the next of at most four fields. -/
theorem updatesProgram_numbered {b' b : BusIndex} {e : Bool} {icl cc top : Half} {l : Locals} {k : Nat}
    {last : Option (Span × SpanResult)} (h : PhaseNumbered (.chgProbe b' e icl cc top) l (.compute k last))
    {fields : List FieldUpdate} (hfields : fields.length = 4) (d : Nat) :
    DecisionNumbered (.chgProbe b' e icl cc top) k ((updatesProgram b fields).next d l last) := by
  simp only [updatesProgram]
  split
  · exact decisionNumbered_respond _ _ _ _ _
  · rename_i f hf
    split
    · rename_i l' span hu
      obtain ⟨hstep, hk⟩ := updateStep_numbered h hu
      exact decisionNumbered_call hstep hk
    · rename_i l' status hu
      split
      · split
        · exact decisionNumbered_respond _ _ _ _ _
        · rename_i g hg
          have hlt : l.step + 1 < fields.length := (List.getElem?_eq_some_iff.mp hg).1
          match last, h, hu with
          | some (span, _), ⟨_, _, hk⟩, _ =>
            exact decisionNumbered_call (by simp only; omega) (spanBound_chgProbe_next hk g.reg 2)
      · exact decisionNumbered_respond _ _ _ _ _

/-- Whatever a command decides, in `DECODE` with no procedure behind it or in `COMPUTE`, is numbered. -/
theorem programOf_numbered {i : Instr} {l : Locals} {k : Nat} {last : Option (Span × SpanResult)}
    (h : PhaseNumbered i l (.compute k last)) (p : Params) (d : Nat) :
    DecisionNumbered i k ((programOf p i).next d l last) := by
  cases i with
  | writeSync | readSync | seqWwr | readReg | writeReg => exact drawingProgram_numbered h ..
  | fgReadSoc | fgReadOcv | fgReadCurrent | fgReadTemp | fgReadCycle => exact drawingProgram_numbered h ..
  | ctxOpen | ctxClose => exact drawingProgram_numbered h ..
  | cvtSoc | cvtOcv | cvtCurrent | cvtTemp | cvtCycle => exact pureProgram_numbered ..
  | cvtIcl | cvtCc | cvtTopoff => exact pureProgram_numbered ..
  | updateReg => exact updateProgram_numbered h ..
  | chgSetIcl | chgSetCc | chgSetTopoff | chgSetAutostop | chgSetEnable => exact updateProgram_numbered h ..
  | chgProbe => exact updatesProgram_numbered h rfl d

/-! ## The moves of a command -/

/-- A span has one transaction or two (R25, R29). -/
theorem transaction_number {span : Span} {t : Nat} {txn : Transaction} (h : span.transaction t = some txn) :
    1 ≤ t ∧ t ≤ 2 := by
  unfold Span.transaction at h
  split at h
  · decide
  · decide
  · decide
  · decide
  · cases h

/-- A client's number is in its bounds where it is pending with a legal command. -/
def ClientNumbered (y : Client) : Prop :=
  ∀ cmd ph l i, y = .pending cmd ph l → decode cmd = .ok i → PhaseNumbered i l ph

theorem clientNumbered_answered (r : Response) : ClientNumbered (.answered r) := by
  rintro _ _ _ _ ⟨⟩

theorem clientNumbered_pending {cmd : List Word} {i : Instr} (hd : decode cmd = .ok i) {ph : Phase} {l : Locals}
    (h : PhaseNumbered i l ph) : ClientNumbered (.pending cmd ph l) := by
  rintro _ _ _ j ⟨⟩ hj
  obtain rfl : i = j := Except.ok.inj (hd.symm.trans hj)
  exact h

/-- A client that has just submitted is in `DECODE` with `STEP` at 0, whatever it submitted (R31). -/
theorem clientNumbered_submitted (descriptor : List Word) :
    ClientNumbered (.pending descriptor .decode Locals.start) := by
  rintro _ _ _ i ⟨⟩ _
  rfl

/-- The numbers are in their bounds, and the command of client `c`, if it has one, is `cmd`: what a turn of `c`
keeps. -/
structure NumbersOf (c : Nat) (cmd : List Word) (s : State) : Prop where
  numbers : NumbersInv s
  command : ∀ cmd' ph l, s.client c = .pending cmd' ph l → cmd' = cmd

section numbers
variable {s t : State} {c : Nat} {cmd : List Word} {i : Instr}

/-- The client list after a write, read at any client. -/
theorem client_of_putClient {y : Client} (hy : y ≠ .idle) (hcl : t.clients = putClient s.clients c y) (c' : Nat) :
    t.client c' = if c' = c then y else s.client c' := by
  rw [← client_setClient s c c' y hy]
  simp [State.client, State.setClient, hcl]

/-- Where one client changes and its number is in its bounds, all numbers are. -/
theorem NumbersInv.set_client {y : Client} (h : NumbersInv s) (hy : y ≠ .idle)
    (hcl : t.clients = putClient s.clients c y) (hn : ClientNumbered y) : NumbersInv t := by
  intro c' cmd ph l i hc' hd
  rw [client_of_putClient hy hcl] at hc'
  split at hc'
  · exact hn cmd ph l i hc' hd
  · exact h c' cmd ph l i hc' hd

theorem NumbersOf.answered {r : Response} (h : NumbersOf c cmd s)
    (hcl : t.clients = putClient s.clients c (.answered r)) : NumbersOf c cmd t where
  numbers := h.numbers.set_client (by simp) hcl (clientNumbered_answered r)
  command cmd' ph l hc := by simp [client_of_putClient (by simp) hcl] at hc

theorem NumbersOf.pending {ph : Phase} {l : Locals} (h : NumbersOf c cmd s) (hd : decode cmd = .ok i)
    (hcl : t.clients = putClient s.clients c (.pending cmd ph l)) (hn : PhaseNumbered i l ph) : NumbersOf c cmd t where
  numbers := h.numbers.set_client (by simp) hcl (clientNumbered_pending hd hn)
  command cmd' ph' l' hc := by
    simp only [client_of_putClient (by simp) hcl, if_true, Client.pending.injEq] at hc
    exact hc.1.symm

/-- The phase a turn of client `c` finds, and the bounds it is in. -/
theorem NumbersOf.phase {cmd' : List Word} {ph : Phase} {l : Locals} (h : NumbersOf c cmd s) (hd : decode cmd = .ok i)
    (hc : s.client c = .pending cmd' ph l) : cmd' = cmd ∧ PhaseNumbered i l ph := by
  obtain rfl := h.command _ _ _ hc
  exact ⟨rfl, h.numbers c _ _ _ i hc hd⟩

/-- A numbered decision leaves the command waiting for the next span's guard, or answered. -/
theorem NumbersOf.follow {k : Nat} {d : Decision} (h : NumbersOf c cmd s) (hd : decode cmd = .ok i)
    (hk : DecisionNumbered i k d) : NumbersOf c cmd (follow c cmd k d s) := by
  obtain ⟨call, hcall, e⟩ | ⟨r, -, e⟩ := follow_cases c cmd k d s <;> rw [e]
  · obtain ⟨hstep, hle⟩ := hk.call call hcall
    exact h.pending hd rfl ⟨hstep, Nat.le_add_left 1 k, hle⟩
  · exact h.answered rfl

/-- Every move of the command `i` keeps the numbers: only a decision names a new span, and only a hand-over a new
transaction. -/
theorem Move.numbersOf {p : Params} (h : Move (programOf p i) c s t) (hd : decode cmd = .ok i)
    (hs : NumbersOf c cmd s) : NumbersOf c cmd t := by
  cases h with
  | wait => exact hs
  | stopped => exact hs.answered rfl
  | fault => exact hs.answered rfl
  | compute cmd' l hc =>
    obtain ⟨rfl, hstep⟩ := hs.phase hd hc
    exact hs.pending hd rfl ⟨hstep, rfl⟩
  | start cmd' l b hc =>
    obtain ⟨rfl, hstep⟩ := hs.phase hd hc
    have hn : PhaseNumbered i l (.compute 0 none) := ⟨hstep, rfl⟩
    exact hs.follow hd (programOf_numbered hn p s.draws)
  | next cmd' k last l hc =>
    obtain ⟨rfl, hn⟩ := hs.phase hd hc
    exact hs.follow hd (programOf_numbered hn p s.draws)
  | setOpen cmd' k j b l x hc =>
    obtain ⟨rfl, hn⟩ := hs.phase hd hc
    exact hs.pending hd rfl hn
  | handOver cmd' k call l x txn hc =>
    obtain ⟨rfl, hstep, hlo, hhi⟩ := hs.phase hd hc
    exact hs.pending hd rfl ⟨hstep, hlo, hhi, by decide, by decide⟩
  | second cmd' k tt call l x txn txn' a rest count hc _ _ ht' =>
    obtain ⟨rfl, hstep, hlo, hhi, -⟩ := hs.phase hd hc
    obtain ⟨htlo, hthi⟩ := transaction_number ht'
    exact hs.pending hd rfl ⟨hstep, hlo, hhi, htlo, hthi⟩
  | answered cmd' k tt call l x txn a rest o buffer hc =>
    obtain ⟨rfl, hstep, hlo, hhi, -⟩ := hs.phase hd hc
    exact hs.pending hd rfl ⟨hstep, hlo, hhi⟩
  | release cmd' k call r l x hc =>
    obtain ⟨rfl, hn⟩ := hs.phase hd hc
    exact hs.pending hd rfl hn
  | releaseNone cmd' k call r l hc =>
    obtain ⟨rfl, hn⟩ := hs.phase hd hc
    exact hs.pending hd rfl hn

/-- Every event from outside keeps the numbers: it starts commands, and ends them. -/
theorem OutsideMove.numbersInv (h : OutsideMove s t) (hs : NumbersInv s) : NumbersInv t := by
  cases h with
  | quiet => exact hs
  | lost => exact hs
  | submit c descriptor rest =>
    exact hs.set_client (y := .pending _ _ _) (by simp) rfl (clientNumbered_submitted descriptor)
  | answer => exact hs
  | reset => rintro _ _ _ _ _ ⟨⟩
  | refuse c n rest cmd l => exact hs.set_client (y := .answered _) (by simp) rfl (clientNumbered_answered _)

end numbers

/-- Every step keeps the numbers in their bounds. -/
theorem step_numbersInv {s t : State} (hs : NumbersInv s) (hstep : step s = .next t) : NumbersInv t := by
  obtain ⟨i, c, n, rest, cmd, ph, l, -, hc, hd, rfl⟩ | ⟨-, hout⟩ := step_cases hstep
  · have hstart : NumbersOf c cmd { s with inputs := rest } :=
      ⟨hs, fun cmd' ph' l' hc' => by cases hc.symm.trans hc'; rfl⟩
    exact (turnSteps_moves _ c (NumbersOf c cmd) (fun u v hu hm => hm.numbersOf hd hu) n _ hstart).numbers
  · exact hout.numbersInv hs

/-- With `STEP` at most 3, no span has a number above 8 (R29, R31). -/
theorem spanBound_le (i : Instr) {step : Nat} (h : step ≤ 3) (span : Span) : spanBound i step span ≤ 8 := by
  unfold spanBound
  split <;> omega

/-- Settles O56: every step keeps the numbers, and they bound the spans and transactions a command waits in. -/
theorem stepKeepsSpanNumbers : Obligations.StepKeepsSpanNumbers := by
  refine ⟨fun s t => step_numbersInv, fun s hs c cmd l i k call hd => ⟨fun hc => ?_, fun t hc => ?_⟩⟩
  · obtain ⟨hstep, hlo, hhi⟩ := hs c cmd _ l i hc hd
    exact ⟨hlo, hhi.trans (spanBound_le i hstep call.span)⟩
  · obtain ⟨hstep, hlo, hhi, htlo, hthi⟩ := hs c cmd _ l i hc hd
    exact ⟨hlo, hhi.trans (spanBound_le i hstep call.span), htlo, hthi⟩

end Sys2Proof.Machine
end

section
/-! Waiting commands, the scratch buffers, submission and reset (spec/10_state.md R24, R26, R28, R38,
spec/70_reset_and_hazards.md R312). -/

namespace Sys2Proof.Machine

/-! ## Commands that wait -/

section waiting
variable {p : Program} {c : Nat} {s : State} {cmd : List Word} {l : Locals} {call : Call} {x : Context}

/-- A command whose next step changes nothing makes no step, however long its turn. -/
theorem turnSteps_of_advance_eq (h : advance p c s = s) (n : Nat) : turnSteps p c n s = s := by
  induction n with
  | zero => rfl
  | succ n ih => rw [turnSteps_succ, h, ih]

/-- `Acquire` of a guard that is held waits (R24). -/
theorem acquirePhase_held {k h : Nat} (hf : s.faulted = false) (hx : s.contexts[call.ctx]? = some x)
    (hl : x.lock = .held h) : acquirePhase c cmd k call l s = s := by
  simp [acquirePhase, hf, hx, hl]

/-- A transaction the bus has not answered waits (R312). -/
theorem busPhase_no_answer {k t : Nat} (hx : s.contexts[call.ctx]? = some x) (ha : x.answers = []) :
    busPhase c cmd k t call l s = s := by
  unfold busPhase
  split
  · rename_i y txn hy _
    obtain rfl : x = y := Option.some.inj (hx.symm.trans hy)
    simp [ha]
  · rfl

end waiting

/-- A turn of a command whose next step changes nothing only takes the event. -/
theorem exec_of_advance_eq {i : Instr} {s : State} {c n : Nat} {rest : List Input} (hi : s.inputs = .turn c n :: rest)
    (h : advance (programOf s.params i) c { s with inputs := rest } = { s with inputs := rest }) :
    exec i s = .next { s with inputs := rest } := by
  rw [exec_eq_run, run_turn _ s c n rest hi, turnSteps_of_advance_eq h]

/-- Settles O41: in both phases the command's next step leaves the state as it is. -/
theorem waitingCommandsMakeNoStep : Obligations.WaitingCommandsMakeNoStep := by
  intro i s c n rest cmd l x call hi hx
  refine ⟨fun k h hf hc hl => exec_of_advance_eq hi ?_, fun k t hc ha => exec_of_advance_eq hi ?_⟩
  · rw [advance_acq (by exact hc)]
    exact acquirePhase_held hf hx hl
  · rw [advance_bus (by exact hc)]
    exact busPhase_no_answer hx ha

/-! ## Scratch buffers -/

/-- A write leaves its one frame in `WSCRATCH` (R26). -/
theorem assembleFrames_write (size : Nat) (buffer frame : List Byte) :
    assembleFrames size buffer (.write frame) =
      if frame.length ≤ size then frame ++ buffer.drop frame.length else buffer := rfl

/-- Settles O40: `WRITE_SYNC` assembles one frame and reads nothing; `READ_SYNC` assembles the pointer's frame and takes
the bytes the bus delivered. -/
theorem scratchBuffersHoldSmallTransfers : Obligations.ScratchBuffersHoldSmallTransfers := by
  intro s c n rest cmd b x tape hr
  have hctx {y : Context} : (s.contexts.set b.toNat y)[b.toNat]? = some y := set_getElem?_self hr.context
  refine ⟨fun addr payload a ha => ?_, fun addr len count junk data hlen ha => ?_⟩
  · have hrun := run_single (n := n + 1) (span := .write (writeFrame addr payload)) (fin := fun r => plain r.status)
      (t := .write (writeFrame addr payload)) hr ha (by simp) rfl rfl rfl rfl rfl
    exact ⟨_, _, hrun, hctx, overlay_nil s.params.scratchSize _, assembleFrames_write ..⟩
  · have hrun := run_read (addr := addr) (fin := fun r => withData r.status r.data) hr ha
      (fitAnswer_read hlen _ _) (readBuffer_read ..) rfl
    refine ⟨_, _, hrun, hctx, ?_, assembleFrames_write ..⟩
    rw [← hlen]
    rfl

/-! ## Submission -/

/-- A step whose event is a submission runs no command. -/
theorem step_submit {s : State} {c : Nat} {descriptor : List Word} {rest : List Input}
    (h : s.inputs = .submit c descriptor :: rest) :
    step s = .next (submit c descriptor { s with inputs := rest }) := by
  simp [step, fetch, outside, h]

/-- A client that exists and is not pending submits (R28). -/
theorem submit_of_not_pending {s : State} {c : Nat} (descriptor : List Word) (hn : c < s.params.nClients)
    (hc : ∀ cmd ph l, s.client c ≠ .pending cmd ph l) :
    submit c descriptor s = s.setClient c (.pending descriptor .decode Locals.start) := by
  rw [submit, if_pos hn]
  split
  · exact absurd ‹_› (hc _ _ _)
  · rfl

/-- A pending client submits nothing (R28). -/
theorem submit_of_pending {s : State} {c : Nat} {cmd : List Word} {ph : Phase} {l : Locals} (descriptor : List Word)
    (hc : s.client c = .pending cmd ph l) : submit c descriptor s = s := by
  simp [submit, hc]

/-- There is no client from `N_CLIENTS` on (R10, R21). -/
theorem submit_of_no_client {s : State} {c : Nat} (descriptor : List Word) (hn : s.params.nClients ≤ c) :
    submit c descriptor s = s := by
  rw [submit, if_neg (Nat.not_lt.mpr hn)]

/-- Settles O50, by the three kinds of client number. -/
theorem submitStartsACommandInDecode : Obligations.SubmitStartsACommandInDecode := by
  intro s c descriptor rest hi
  rw [step_submit hi]
  refine ⟨fun hn hc => ?_, fun cmd ph l hc => ?_, fun hn => ?_⟩
  · rw [submit_of_not_pending (s := { s with inputs := rest }) descriptor hn hc]
    rfl
  · rw [submit_of_pending (s := { s with inputs := rest }) descriptor hc]
  · rw [submit_of_no_client (s := { s with inputs := rest }) descriptor hn]

/-! ## Right after reset -/

/-- Every context right after reset is a reset context (R38). -/
theorem eq_reset_of_context {i : Nat} {x : Context} (h : State.reset.contexts[i]? = some x) :
    ∃ endpoint, x = Context.reset State.reset.params.scratchSize endpoint := by
  obtain ⟨j, -, rfl⟩ := Option.map_eq_some_iff.mp (List.getElem?_map.symm.trans h)
  exact ⟨Config.endpoint j, rfl⟩

/-- Every client is idle right after reset (R38). -/
theorem client_reset (c : Nat) : State.reset.client c = .idle := rfl

/-- Settles O51: every context is a reset context and every client is idle. -/
theorem resetValuesOfR38 : Obligations.ResetValuesOfR38 := by
  refine ⟨rfl, by simp [State.reset, Config.nCtx], fun i x hx => ?_, client_reset, rfl⟩
  obtain ⟨endpoint, rfl⟩ := eq_reset_of_context hx
  exact ⟨rfl, rfl, List.length_replicate, List.length_replicate⟩

/-- Reset changes nothing right after reset (R300). -/
theorem resetBlock_reset : resetBlock State.reset = State.reset := by
  simp [resetBlock, State.reset, resetContext, Context.reset, Config.nCtx]

/-- Settles O57: no client has a command or a response yet, and no guard is held. -/
theorem resetMeetsTheInvariants : Obligations.ResetMeetsTheInvariants := by
  have hguard : GuardInv State.reset := resetBlock_reset ▸ guardInv_resetBlock State.reset
  have hcommand : CommandInv State.reset := by
    intro c cmd ph l hc
    cases (client_reset c).symm.trans hc
  have hresponses : ResponsesLegal State.reset := by
    intro c r hc
    cases (client_reset c).symm.trans hc
  have hnumbers : NumbersInv State.reset := by
    intro c cmd ph l i hc
    cases (client_reset c).symm.trans hc
  exact ⟨hguard, hcommand, hresponses, hnumbers, Nat.le_add_left 1 Config.otherClients⟩

end Sys2Proof.Machine
end

section
/-! What a held guard protects: the hand-over of a command's first transaction under it, and the context that no other
client touches (spec/20_memory.md R54, R65, R67, spec/40_bus_primitive.md R123, R128, R137). -/

namespace Sys2Proof.Machine

/-! ## The first hand-over -/

section handOver
variable {c : Nat} {s : State} {cmd : List Word} {l : Locals} {span : Span} {txn : Transaction} {x : Context}

/-- `Acquire` of an open context whose guard is free takes the guard and hands the first transaction to the bus
(R24, R29). -/
theorem acquirePhase_handOver {k : Nat} {call : Call} (hf : s.faulted = false) (hx : s.contexts[call.ctx]? = some x)
    (hl : x.lock = .free) (ho : x.isOpen = true) (ht : call.span.transaction 1 = some txn) :
    acquirePhase c cmd k call l s =
      (s.setContext call.ctx (handOver s.params call.span txn { x with lock := .held c })).setClient c
        (.pending cmd (.bus k 1 call) l) := by
  obtain ⟨i, span⟩ := call
  cases span with
  | setOpen b => cases ht
  | write _ | read _ _ | sequence _ _ _ _ _ => simp [acquirePhase, hf, hx, hl, ho, ht]

/-- Two steps into a command that calls a bus procedure first, its first transaction is with the bus. -/
theorem run_handOver {p : Program} {rest : List Input} {b : BusIndex} (hr : Ready s c 2 rest cmd b x)
    (hp : p.bus = some b) (hn : p.next s.draws Locals.start none = ⟨l, .call ⟨b.toNat, span⟩, 0⟩)
    (ht : span.transaction 1 = some txn) :
    run p s = .next
      ((({ s with inputs := rest } : State).setContext b.toNat
        (handOver s.params span txn { x with lock := .held c })).setClient c
          (.pending cmd (.bus 1 1 ⟨b.toNat, span⟩) l)) := by
  have hacq := acquirePhase_handOver (c := c) (cmd := cmd) (l := l) (k := 1) (call := ⟨b.toNat, span⟩)
    (s := ({ s with inputs := rest } : State).setClient c (.pending cmd (.acq 1 ⟨b.toNat, span⟩) l))
    hr.notFaulted hr.context hr.free hr.isOpen ht
  rw [run_decode hr.toAtDecode hp (lt_of_context hr.context) hn, turnSteps_succ, turnSteps_zero,
    advance_acq (client_setClient_pending ..), hacq, setContext_setClient, setClient_setClient _ _ _ _ _ _ (by simp)]
  rfl

/-- The request of the first transaction names the endpoint of the context and the timeout of the span (R54). -/
theorem exec_handOver {i : Instr} {rest : List Input} {b : BusIndex} {request : Request} (hr : Ready s c 2 rest cmd b x)
    (hp : (programOf s.params i).bus = some b)
    (hn : (programOf s.params i).next s.draws Locals.start none = ⟨Locals.start, .call ⟨b.toNat, span⟩, 0⟩)
    (ht : span.transaction 1 = some txn) (hq : request = ⟨x.endpoint, txn, span.timeout s.params⟩) :
    ∃ t x', exec i s = .next t ∧ t.contexts[b.toNat]? = some x' ∧ x'.lock = .held c ∧ x'.onBus = some request ∧
      t.hist = s.hist ∧ t.client c = .pending cmd (.bus 1 1 ⟨b.toNat, span⟩) Locals.start :=
  ⟨_, _, (exec_eq_run i s).trans (run_handOver hr hp hn ht), set_getElem?_self hr.context, rfl, hq ▸ rfl, rfl,
    client_setClient_pending ..⟩

end handOver

/-- Settles O39, by the kind of command: which span it calls first, and that span's first transaction and timeout. -/
theorem handOverCarriesEndpointAndTimeout : Obligations.HandOverCarriesEndpointAndTimeout := by
  rintro s c rest cmd b x hr i span request
    (⟨addr, payload, rfl, rfl, rfl⟩ | ⟨addr, value, rfl, rfl, rfl⟩ | ⟨addr, len, rfl, rfl, rfl⟩ | ⟨addr, rfl, rfl, rfl⟩ |
      ⟨sub, hi, rfl, rfl⟩ | ⟨f1, f2, len, delay, timeout, rfl, rfl, rfl⟩ | ⟨f1, f2, len, delay, timeout, rfl, rfl, rfl⟩)
  -- The `FG_READ` commands, one for each SRAM location.
  on_goal 5 =>
    simp only [List.mem_cons, Prod.mk.injEq, List.not_mem_nil, or_false] at hi
    obtain ⟨rfl, rfl⟩ | ⟨rfl, rfl⟩ | ⟨rfl, rfl⟩ | ⟨rfl, rfl⟩ | ⟨rfl, rfl⟩ := hi
  all_goals exact exec_handOver hr rfl rfl rfl rfl

/-! ## The context of a held guard -/

/-- From `s` to `t` context `i` stays as it is, and the history grows by events on other contexts only. -/
structure Untouched (i : Nat) (s t : State) : Prop where
  context : t.contexts[i]? = s.contexts[i]?
  hist : ∃ events, t.hist = s.hist ++ events ∧ ∀ e ∈ events, e.ctx ≠ i

section untouched
variable {i j c : Nat} {s t u : State} {x x' : Context}

/-- No event, and no change to any context. -/
theorem Untouched.of_eq (hx : t.contexts = s.contexts) (hh : t.hist = s.hist) : Untouched i s t :=
  ⟨by rw [hx], [], by simp [hh], by simp⟩

/-- No event, and another context changes. -/
theorem Untouched.of_set (hj : j ≠ i) (hx : t.contexts = s.contexts.set j x') (hh : t.hist = s.hist) :
    Untouched i s t :=
  ⟨by rw [hx, List.getElem?_set_ne hj], [], by simp [hh], by simp⟩

/-- One event on another context, which changes. -/
theorem Untouched.of_event {e : BusEvent} (hj : e.ctx ≠ i) (hx : t.contexts = s.contexts.set e.ctx x')
    (hh : t.hist = s.hist ++ [e]) : Untouched i s t :=
  ⟨by rw [hx, List.getElem?_set_ne hj], [e], hh, by simpa using hj⟩

theorem Untouched.trans (h : Untouched i s t) (h' : Untouched i t u) : Untouched i s u := by
  obtain ⟨es, hes, hne⟩ := h.hist
  obtain ⟨es', hes', hne'⟩ := h'.hist
  refine ⟨h'.context.trans h.context, es ++ es', ?_, fun e he => ?_⟩
  · rw [hes', hes, List.append_assoc]
  · exact (List.mem_append.mp he).elim (hne e) (hne' e)

/-- A decision touches neither the history nor a context. -/
theorem follow_untouched (c : Nat) (cmd : List Word) (k : Nat) (d : Decision) (s : State) :
    Untouched i s (follow c cmd k d s) := by
  obtain ⟨call, -, h⟩ | ⟨r, -, h⟩ := follow_cases c cmd k d s <;> rw [h] <;> exact .of_eq rfl rfl

/-- A move changes a context only by taking its free guard or inside a span of it, so it leaves a context alone whose
guard is taken and which the client is in no span of (R24, R65). -/
theorem Move.untouched {p : Program} (h : Move p c s t) (hx : s.contexts[i]? = some x) (hl : x.lock ≠ .free)
    (hs : spanContext? (s.client c) ≠ some i) : Untouched i s t := by
  have ne_of_free {j : Nat} {z : Context} (hz : s.contexts[j]? = some z) (hfree : z.lock = .free) : j ≠ i := by
    rintro rfl
    obtain rfl : x = z := Option.some.inj (hx.symm.trans hz)
    exact hl hfree
  have ne_of_span {j : Nat} {y : Client} (hc : s.client c = y) (hj : spanContext? y = some j) : j ≠ i := by
    rintro rfl
    exact hs (hc ▸ hj)
  cases h with
  | wait => exact .of_eq rfl rfl
  | stopped => exact .of_eq rfl rfl
  | fault => exact .of_eq rfl rfl
  | compute => exact .of_eq rfl rfl
  | start => exact follow_untouched ..
  | next => exact follow_untouched ..
  | setOpen cmd k j b l z _ _ hz hfree => exact .of_set (ne_of_free hz hfree) rfl rfl
  | handOver cmd k call l z txn _ _ hz hfree => exact .of_set (ne_of_free hz hfree) rfl rfl
  | second cmd k tt call l z txn txn' a rest count hc =>
    exact .of_event (e := ⟨call.ctx, c, txn, .okWrite count⟩) (ne_of_span hc rfl) rfl rfl
  | answered cmd k tt call l z txn a rest o buffer hc =>
    exact .of_event (e := ⟨call.ctx, c, txn, o⟩) (ne_of_span hc rfl) rfl rfl
  | release cmd k call r l z hc => exact .of_set (ne_of_span hc rfl) rfl rfl
  | releaseNone => exact .of_eq rfl rfl

/-- While client `h` holds the guard of context `i`, a turn of another client leaves the context alone: the guard
discipline, which every move keeps, has the other client outside every span of it. -/
theorem turnSteps_untouched {h : Nat} (p : Program) (n : Nat) (hs : GuardInv s) (hx : s.contexts[i]? = some x)
    (hl : x.lock = .held h) (hne : c ≠ h) : Untouched i s (turnSteps p c n s) := by
  refine (turnSteps_moves p c (fun u => GuardInv u ∧ Untouched i s u) (fun u v hu hm => ?_) n s
    ⟨hs, .of_eq rfl rfl⟩).2
  obtain ⟨hguard, hsu⟩ := hu
  have hxu : u.contexts[i]? = some x := hsu.context.trans hx
  have hspan : spanContext? (u.client h) = some i := (hguard.guard i x hxu h).mp hl
  exact ⟨hm.guardInv hguard, hsu.trans (hm.untouched hxu (by simp [hl]) (hguard.span_unique hxu hspan hne))⟩

/-- A turn that runs no command touches no context. -/
theorem OutsideMove.untouched {n : Nat} {rest : List Input} (h : OutsideMove s t)
    (hi : s.inputs = .turn c n :: rest) : Untouched i s t := by
  cases h with
  | quiet => exact .of_eq rfl rfl
  | lost => exact .of_eq rfl rfl
  | submit => exact .of_eq rfl rfl
  | answer _ _ _ _ ha => cases hi.symm.trans ha
  | reset _ hr => cases hi.symm.trans hr
  | refuse => exact .of_eq rfl rfl

end untouched

/-- Settles O42: the turn is moves of the other client's command, or runs none. -/
theorem guardKeepsOtherClientsOut : Obligations.GuardKeepsOtherClientsOut := by
  intro s t c n rest h i x hs hi hne hx hl hstep
  have hu : Untouched i s t := by
    obtain ⟨j, c', n', rest', cmd, ph, l, hi', -, -, rfl⟩ | ⟨-, hout⟩ := step_cases hstep
    · obtain ⟨⟨rfl, rfl⟩, rfl⟩ : (c = c' ∧ n = n') ∧ rest = rest' := by simpa using hi.symm.trans hi'
      have hturn := turnSteps_untouched (programOf s.params j) n (hs.with_inputs rest) hx hl hne
      exact ⟨hturn.context, hturn.hist⟩
    · exact hout.untouched hi
  exact ⟨hu.context.trans hx, hu.hist⟩

end Sys2Proof.Machine
end

section
/-! A legal descriptor and its command determine each other (spec/30_encoding.md R91 to R99): what a selected header
is made of, then each format in both directions, then the round trips. -/

namespace Sys2Proof

/-! ## Selected headers -/

section selected
variable {o : Opcode} {hd : Word}

theorem busField_of_selects (hs : o.selects hd = true) (hu : o.uses.1 = false) : busField hd = 0 :=
  field_of_selects hs 20 4 (by revert hu; cases o <;> decide) (by cases o <;> decide)

theorem aField_of_selects (hs : o.selects hd = true) (hu : o.uses.2.2.1 = false) : aField hd = 0 :=
  field_of_selects hs 8 8 (by revert hu; cases o <;> decide) (by cases o <;> decide)

theorem bField_of_selects (hs : o.selects hd = true) (hu : o.uses.2.2.2 = false) : bField hd = 0 :=
  field_of_selects hs 0 8 (by revert hu; cases o <;> decide) (by cases o <;> decide)

theorem fField_of_selects (hs : o.selects hd = true) (hu : o.uses.2.1 = false) : fField hd = false := by
  have hbit : hd.extractLsb' 16 1 = 0 :=
    field_of_selects hs 16 1 (by revert hu; cases o <;> decide) (by cases o <;> decide)
  simpa [fField] using congrArg (BitVec.getLsbD · 0) hbit

/-- A selected header is the header of its opcode with the fields the opcode uses, and zeros in the others (R91, R96). -/
theorem headerFor_of_selects {bus : BusIndex} {f : Bool} {a b : Byte} (hs : o.selects hd = true)
    (h1 : bus = if o.uses.1 then busField hd else 0) (h2 : f = if o.uses.2.1 then fField hd else false)
    (h3 : a = if o.uses.2.2.1 then aField hd else 0) (h4 : b = if o.uses.2.2.2 then bField hd else 0) :
    headerFor o bus f a b = hd := by
  have hbus : bus = busField hd := by cases hu : o.uses.1 <;> simp [h1, hu, busField_of_selects hs]
  have hf : f = fField hd := by cases hu : o.uses.2.1 <;> simp [h2, hu, fField_of_selects hs]
  have ha : a = aField hd := by cases hu : o.uses.2.2.1 <;> simp [h3, hu, aField_of_selects hs]
  have hb : b = bField hd := by cases hu : o.uses.2.2.2 <;> simp [h4, hu, bField_of_selects hs]
  rw [hbus, hf, ha, hb, headerFor, ← opcField_of_selects hs, headerWord_fields hd (reserved_of_selects hs)]

/-- A descriptor with a selected header is decoded by the body of that opcode. -/
theorem decode_of_selects (hs : o.selects hd = true) (ext : List Word) :
    decode (hd :: ext) = decodeBody o hd ext := by
  simp [decode, opcField_of_selects hs, hs]

end selected

/-- No two opcodes share a code (R96). -/
theorem code_injective {o o' : Opcode} (h : o.code = o'.code) : o = o' := by
  have hsome : some o = some o' := by rw [← ofCode_code o, ← ofCode_code o', h]
  exact Option.some.inj hsome

/-- Settles O4: the opcode is a field that every mask covers, so the header fixes it. -/
theorem headerSelectsAtMostOneCommand : Obligations.HeaderSelectsAtMostOneCommand := by
  intro h o o' ho ho'
  have hcode : opcField h = o.code := opcField_of_selects (by simpa [Opcode.selects] using ho)
  have hcode' : opcField h = o'.code := opcField_of_selects (by simpa [Opcode.selects] using ho')
  exact code_injective (hcode.symm.trans hcode')

/-- The descriptor of every command begins with a header of its row (R96). -/
theorem headerMatches (i : Instr) : Laws.HeaderMatches.Statement i := by
  cases i with
  | writeSync => exact Laws.HeaderMatches.writeSync ..
  | readSync => exact Laws.HeaderMatches.readSync ..
  | seqWwr => exact Laws.HeaderMatches.seqWwr ..
  | readReg => exact Laws.HeaderMatches.readReg ..
  | writeReg => exact Laws.HeaderMatches.writeReg ..
  | updateReg => exact Laws.HeaderMatches.updateReg ..
  | fgReadSoc => exact Laws.HeaderMatches.fgReadSoc ..
  | fgReadOcv => exact Laws.HeaderMatches.fgReadOcv ..
  | fgReadCurrent => exact Laws.HeaderMatches.fgReadCurrent ..
  | fgReadTemp => exact Laws.HeaderMatches.fgReadTemp ..
  | fgReadCycle => exact Laws.HeaderMatches.fgReadCycle ..
  | cvtSoc => exact Laws.HeaderMatches.cvtSoc ..
  | cvtOcv => exact Laws.HeaderMatches.cvtOcv ..
  | cvtCurrent => exact Laws.HeaderMatches.cvtCurrent ..
  | cvtTemp => exact Laws.HeaderMatches.cvtTemp ..
  | cvtCycle => exact Laws.HeaderMatches.cvtCycle ..
  | chgSetIcl => exact Laws.HeaderMatches.chgSetIcl ..
  | chgSetCc => exact Laws.HeaderMatches.chgSetCc ..
  | chgSetTopoff => exact Laws.HeaderMatches.chgSetTopoff ..
  | chgSetAutostop => exact Laws.HeaderMatches.chgSetAutostop ..
  | chgSetEnable => exact Laws.HeaderMatches.chgSetEnable ..
  | chgProbe => exact Laws.HeaderMatches.chgProbe ..
  | cvtIcl => exact Laws.HeaderMatches.cvtIcl ..
  | cvtCc => exact Laws.HeaderMatches.cvtCc ..
  | cvtTopoff => exact Laws.HeaderMatches.cvtTopoff ..
  | ctxOpen => exact Laws.HeaderMatches.ctxOpen ..
  | ctxClose => exact Laws.HeaderMatches.ctxClose ..

theorem selects_of_encode {i : Instr} {hd : Word} {ext : List Word} (h : encode i = hd :: ext) :
    i.opcode.selects hd = true := by
  obtain ⟨hd', ext', he, hm, -⟩ := headerMatches i
  obtain ⟨rfl, -⟩ : hd = hd' ∧ ext = ext' := by simpa using h.symm.trans he
  simpa [Opcode.selects] using hm

/-! ## Byte counts -/

/-- A legal count fits its header field (R91, R98). -/
theorem toNat_count {n : Nat} (h : n ≤ 255) : (BitVec.ofNat 8 n).toNat = n := by
  rw [BitVec.toNat_ofNat]
  omega

/-- A legal count in `X1[7:0]` (R95). -/
theorem toNat_count_word {n : Nat} (h : n ≤ 255) : ((BitVec.ofNat 32 n).extractLsb' 0 8).toNat = n := by
  simp only [BitVec.extractLsb'_toNat, BitVec.toNat_ofNat, Nat.shiftRight_zero]
  omega

/-- A legal count leaves `X1[31:8]` zero (R95). -/
theorem reserved_count_word {n : Nat} (h : n ≤ 255) : (BitVec.ofNat 32 n).extractLsb' 8 24 = 0 := by
  apply BitVec.eq_of_toNat_eq
  simp only [BitVec.extractLsb'_toNat, BitVec.toNat_ofNat, Nat.shiftRight_eq_div_pow]
  simp
  omega

/-- A word with `[31:8]` zero is the count in its low byte (R95). -/
theorem count_word_of_reserved {x : Word} (h : x.extractLsb' 8 24 = 0) :
    BitVec.ofNat 32 (x.extractLsb' 0 8).toNat = x := by
  have hz := congrArg BitVec.toNat h
  apply BitVec.eq_of_toNat_eq
  simp [Nat.shiftRight_eq_div_pow] at hz ⊢
  omega

/-! ## The formats, from operands to words and back -/

@[simp] theorem takeNone_nil (i : Instr) : takeNone [] i = .ok i := rfl

theorem takeNone_ok {ext : List Word} {i j : Instr} (h : takeNone ext i = .ok j) : ext = [] ∧ i = j := by
  cases ext with
  | nil => exact ⟨rfl, Except.ok.inj h⟩
  | cons => cases h

@[simp] theorem takeHalf_halfWord (x : Half) (f : Half → Instr) : takeHalf [halfWord x] f = .ok (f x) := by
  simp [takeHalf]

theorem takeHalf_ok {ext : List Word} {f : Half → Instr} {i : Instr} (h : takeHalf ext f = .ok i) :
    ∃ x, ext = [halfWord x] ∧ f x = i := by
  unfold takeHalf at h
  split at h
  · rename_i x1
    split at h
    · exact ⟨lowHalf x1, by rw [halfWord_lowHalf ‹_›], Except.ok.inj h⟩
    · cases h
  · cases h

@[simp] theorem takeHalves_append (x y : Half) (f : Half → Half → Instr) :
    takeHalves [x ++ y] f = .ok (f x y) := by
  simp [takeHalves]

theorem takeHalves_ok {ext : List Word} {f : Half → Half → Instr} {i : Instr} (h : takeHalves ext f = .ok i) :
    ∃ x y : Half, ext = [x ++ y] ∧ f x y = i := by
  unfold takeHalves at h
  split at h
  · rename_i x1
    exact ⟨highHalf x1, lowHalf x1, by rw [append_halves], Except.ok.inj h⟩
  · cases h

@[simp] theorem takeProbe_words (x y z : Half) (f : Half → Half → Half → Instr) :
    takeProbe [y ++ x, halfWord z] f = .ok (f x y z) := by
  simp [takeProbe]

theorem takeProbe_ok {ext : List Word} {f : Half → Half → Half → Instr} {i : Instr} (h : takeProbe ext f = .ok i) :
    ∃ x y z : Half, ext = [y ++ x, halfWord z] ∧ f x y z = i := by
  unfold takeProbe at h
  split at h
  · rename_i x1 x2
    split at h
    · exact ⟨lowHalf x1, highHalf x1, lowHalf x2, by rw [append_halves, halfWord_lowHalf ‹_›], Except.ok.inj h⟩
    · cases h
  · cases h

theorem takePayload_packBytes {n : Nat} {bs : List Byte} (hn : bs.length = n) (h : n ≤ 255) (f : List Byte → Instr) :
    takePayload n (packBytes bs) f = .ok (f bs) := by
  rw [takePayload, if_pos (legalCount_iff.mpr ⟨Nat.zero_le n, h⟩), unpackBytes_packBytes bs hn]
  rfl

theorem takePayload_ok {n : Nat} {ext : List Word} {f : List Byte → Instr} {i : Instr}
    (h : takePayload n ext f = .ok i) : ∃ bs, unpackBytes n ext = .ok bs ∧ n ≤ 255 ∧ f bs = i := by
  unfold takePayload at h
  split at h
  · rename_i hn
    cases hu : unpackBytes n ext with
    | error e => simp [hu, Except.map] at h
    | ok bs => exact ⟨bs, rfl, (legalCount_iff.mp hn).2, by simpa [hu, Except.map] using h⟩
  · cases h

theorem takeSequence_packBytes {len1 len2 readLength : Nat} {frame1 frame2 : List Byte} (h1 : frame1.length = len1)
    (h2 : frame2.length = len2) (hlegal1 : legalCount 1 len1 = true) (hlegal2 : legalCount 1 len2 = true)
    (hread : legalCount 1 readLength = true) (delay timeout : Word) (f : List Byte → List Byte → Word → Word → Instr) :
    takeSequence len1 readLength
      (BitVec.ofNat 32 len2 :: delay :: timeout :: (packBytes frame1 ++ packBytes frame2)) f =
        .ok (f frame1 frame2 delay timeout) := by
  have hlen2 : len2 ≤ 255 := (legalCount_iff.mp hlegal2).2
  have hlen : (packBytes frame1).length = wordsFor len1 := by rw [length_packBytes, h1]
  simp [takeSequence, toNat_count_word hlen2, reserved_count_word hlen2, hlegal1, hlegal2, hread,
    List.take_left' hlen, List.drop_left' hlen, unpackBytes_packBytes frame1 h1, unpackBytes_packBytes frame2 h2]

/-- What the words of a legal sequence are: `X1`, `DELAY` and `TIMEOUT`, and the words of the two frames. -/
theorem takeSequence_ok {len1 readLength : Nat} {ext : List Word} {f : List Byte → List Byte → Word → Word → Instr}
    {i : Instr} (h : takeSequence len1 readLength ext f = .ok i) :
    ∃ x1 delay timeout frames frame1 frame2, ext = x1 :: delay :: timeout :: frames ∧ x1.extractLsb' 8 24 = 0 ∧
      legalCount 1 len1 = true ∧ legalCount 1 (x1.extractLsb' 0 8).toNat = true ∧ legalCount 1 readLength = true ∧
      unpackBytes len1 (frames.take (wordsFor len1)) = .ok frame1 ∧
      unpackBytes (x1.extractLsb' 0 8).toNat (frames.drop (wordsFor len1)) = .ok frame2 ∧
      f frame1 frame2 delay timeout = i := by
  unfold takeSequence at h
  split at h
  · rename_i x1 delay timeout frames
    simp only at h
    split at h
    · cases h
    · rename_i hz
      split at h
      · rename_i hlegal
        simp only [Bool.and_eq_true] at hlegal
        obtain ⟨⟨hlegal1, hlegal2⟩, hread⟩ := hlegal
        split at h
        · cases h
        · rename_i frame1 hu1
          split at h
          · cases h
          · rename_i frame2 hu2
            exact ⟨x1, delay, timeout, frames, frame1, frame2, rfl, not_not.mp hz, hlegal1, hlegal2, hread, hu1, hu2,
              Except.ok.inj h⟩
      · cases h
  · cases h

/-! ## Round trips -/

/-- Decoding a descriptor is decoding its body, since its header selects its own command. -/
theorem decode_encode_of_body {i : Instr} {hd : Word} {ext : List Word} (he : encode i = hd :: ext)
    (hb : decodeBody i.opcode hd ext = .ok i) : decode (encode i) = .ok i := by
  rw [he, decode_of_selects (selects_of_encode he), hb]

/-- Settles O2, by the format of the command: each is read back from the words it was put in. -/
theorem decodeOfEncode : Obligations.DecodeOfEncode := by
  intro i hwf
  cases i with
  | writeSync bus addr payload =>
    obtain ⟨-, hlen⟩ := legalCount_iff.mp hwf
    refine decode_encode_of_body rfl ?_
    simp [decodeBody, Instr.opcode, toNat_count hlen, takePayload_packBytes rfl hlen]
  | readSync bus addr len =>
    have hlegal : legalCount 1 len.toNat = true := hwf
    exact decode_encode_of_body rfl (by simp [decodeBody, Instr.opcode, hlegal])
  | seqWwr bus noLimit frame1 frame2 readLength delay timeout =>
    simp only [Instr.wellFormed, Bool.and_eq_true] at hwf
    obtain ⟨⟨hlegal1, hlegal2⟩, hread⟩ := hwf
    have hlen1 : frame1.length ≤ 255 := (legalCount_iff.mp hlegal1).2
    refine decode_encode_of_body rfl ?_
    simp [decodeBody, Instr.opcode, toNat_count hlen1, takeSequence_packBytes rfl rfl hlegal1 hlegal2 hread]
  | readReg | fgReadSoc | fgReadOcv | fgReadCurrent | fgReadTemp | fgReadCycle | chgSetAutostop | chgSetEnable
  | ctxOpen | ctxClose => exact decode_encode_of_body rfl (by simp [decodeBody, Instr.opcode])
  | writeReg | cvtSoc | cvtOcv | cvtCurrent | cvtTemp | cvtCycle | chgSetIcl | chgSetCc | chgSetTopoff
  | cvtIcl | cvtCc | cvtTopoff => exact decode_encode_of_body rfl (by simp [decodeBody, Instr.opcode])
  | updateReg => exact decode_encode_of_body rfl (by simp [decodeBody, Instr.opcode])
  | chgProbe => exact decode_encode_of_body rfl (by simp [decodeBody, Instr.opcode])

/-- A command whose descriptor has the same extension words as the one decoded, and in its header the fields its opcode
uses, has that descriptor. -/
theorem encode_eq_of_selects {i : Instr} {o : Opcode} {hd : Word} {ext : List Word} {bus : BusIndex} {f : Bool}
    {a b : Byte} (hs : o.selects hd = true) (he : encode i = headerFor o bus f a b :: ext)
    (h1 : bus = if o.uses.1 then busField hd else 0) (h2 : f = if o.uses.2.1 then fField hd else false)
    (h3 : a = if o.uses.2.2.1 then aField hd else 0) (h4 : b = if o.uses.2.2.2 then bField hd else 0) :
    encode i = hd :: ext := by
  rw [he, headerFor_of_selects hs h1 h2 h3 h4]

/-- A body that decodes gives a well-formed command with these words, by the format of the opcode. -/
theorem encode_of_decodeBody {o : Opcode} {hd : Word} {ext : List Word} {i : Instr} (hs : o.selects hd = true)
    (h : decodeBody o hd ext = .ok i) : i.wellFormed = true ∧ encode i = hd :: ext := by
  cases o with
  | writeSync =>
    obtain ⟨bs, hu, hn, rfl⟩ := takePayload_ok h
    obtain ⟨rfl, hlen⟩ := packBytes_of_unpackBytes hu
    have hlegal : legalCount 0 bs.length = true := legalCount_iff.mpr ⟨Nat.zero_le _, hlen ▸ hn⟩
    exact ⟨hlegal, encode_eq_of_selects hs rfl rfl rfl rfl (by simp [hlen, Opcode.uses])⟩
  | readSync =>
    simp only [decodeBody] at h
    split at h
    · rename_i hlegal
      obtain ⟨rfl, rfl⟩ := takeNone_ok h
      exact ⟨hlegal, encode_eq_of_selects hs rfl rfl rfl rfl rfl⟩
    · cases h
  | seqWwr =>
    obtain ⟨x1, delay, timeout, frames, frame1, frame2, rfl, hz, hlegal1, hlegal2, hread, hu1, hu2, rfl⟩ :=
      takeSequence_ok h
    obtain ⟨hp1, hlen1⟩ := packBytes_of_unpackBytes hu1
    obtain ⟨hp2, hlen2⟩ := packBytes_of_unpackBytes hu2
    have hext : BitVec.ofNat 32 frame2.length :: delay :: timeout :: (packBytes frame1 ++ packBytes frame2) =
        x1 :: delay :: timeout :: frames := by
      rw [hlen2, count_word_of_reserved hz, hp1, hp2, List.take_append_drop]
    refine ⟨by rw [Instr.wellFormed, hlen1, hlen2, hlegal1, hlegal2, hread]; rfl, ?_⟩
    rw [← hext]
    exact encode_eq_of_selects hs rfl rfl rfl (by simp [hlen1, Opcode.uses]) rfl
  | readReg | fgReadSoc | fgReadOcv | fgReadCurrent | fgReadTemp | fgReadCycle | chgSetAutostop | chgSetEnable
  | ctxOpen | ctxClose =>
    obtain ⟨rfl, rfl⟩ := takeNone_ok h
    exact ⟨rfl, encode_eq_of_selects hs rfl rfl rfl rfl rfl⟩
  | writeReg | cvtSoc | cvtOcv | cvtCurrent | cvtTemp | cvtCycle | chgSetIcl | chgSetCc | chgSetTopoff
  | cvtIcl | cvtCc | cvtTopoff =>
    obtain ⟨x, rfl, rfl⟩ := takeHalf_ok h
    exact ⟨rfl, encode_eq_of_selects hs rfl rfl rfl rfl rfl⟩
  | updateReg =>
    obtain ⟨x, y, rfl, rfl⟩ := takeHalves_ok h
    exact ⟨rfl, encode_eq_of_selects hs rfl rfl rfl rfl rfl⟩
  | chgProbe =>
    obtain ⟨x, y, z, rfl, rfl⟩ := takeProbe_ok h
    exact ⟨rfl, encode_eq_of_selects hs rfl rfl rfl rfl rfl⟩

/-- Settles O3: the header is the one of its fields, and the words are those of the format. -/
theorem encodeOfDecode : Obligations.EncodeOfDecode := by
  intro ws i h
  obtain ⟨hd, ext, o, rfl, -, hs, hbody⟩ := decode_ok h
  exact encode_of_decodeBody hs hbody

/-! ## Lengths -/

/-- Settles O5, by the format of the command. -/
theorem descriptorLengthFollowsHeader : Obligations.DescriptorLengthFollowsHeader := by
  intro i hwf hd ext he
  rw [he]
  cases i with
  | writeSync bus addr payload =>
    obtain ⟨-, hlen⟩ := legalCount_iff.mp hwf
    cases he
    simp [descriptorLength, Opcode.format, toNat_count hlen, wordsFor]
    omega
  | seqWwr bus noLimit frame1 frame2 readLength delay timeout =>
    simp only [Instr.wellFormed, Bool.and_eq_true] at hwf
    obtain ⟨⟨hlegal1, hlegal2⟩, -⟩ := hwf
    have hlen1 : frame1.length ≤ 255 := (legalCount_iff.mp hlegal1).2
    have hlen2 : frame2.length ≤ 255 := (legalCount_iff.mp hlegal2).2
    cases he
    simp [descriptorLength, Opcode.format, toNat_count hlen1, toNat_count_word hlen2, wordsFor]
    omega
  | readSync | readReg | fgReadSoc | fgReadOcv | fgReadCurrent | fgReadTemp | fgReadCycle | chgSetAutostop
  | chgSetEnable | ctxOpen | ctxClose =>
    cases he
    simp [descriptorLength, Opcode.format]
  | writeReg | updateReg | cvtSoc | cvtOcv | cvtCurrent | cvtTemp | cvtCycle | chgSetIcl | chgSetCc | chgSetTopoff
  | cvtIcl | cvtCc | cvtTopoff =>
    cases he
    simp [descriptorLength, Opcode.format]
  | chgProbe =>
    cases he
    simp [descriptorLength, Opcode.format]

/-! ## Illegal descriptors -/

section illegal
variable {o : Opcode} {hd : Word} {ext : List Word} {i : Instr}

/-- A descriptor that decodes is decoded by the body of the opcode in its header, which selects it (R96, R99). -/
theorem decodeBody_of_code (hc : opcField hd = o.code) (h : decode (hd :: ext) = .ok i) :
    o.selects hd = true ∧ decodeBody o hd ext = .ok i := by
  obtain ⟨hd', ext', o', he, hc', hs, hbody⟩ := decode_ok h
  obtain ⟨rfl, rfl⟩ : hd = hd' ∧ ext = ext' := by simpa using he
  obtain rfl : o = o' := code_injective (hc.symm.trans hc')
  exact ⟨hs, hbody⟩

/-- The only `HX` command with two operands is `UPDATE_REG`; the others have one, and zeros above it (R95). -/
theorem decodeBody_hx (hf : o.format = .hx) (ho : o ≠ .updateReg) (h : decodeBody o hd ext = .ok i) :
    ∃ x, ext = [halfWord x] := by
  cases o with
  | writeReg | cvtSoc | cvtOcv | cvtCurrent | cvtTemp | cvtCycle | chgSetIcl | chgSetCc | chgSetTopoff
  | cvtIcl | cvtCc | cvtTopoff =>
    obtain ⟨x, hx, -⟩ := takeHalf_ok h
    exact ⟨x, hx⟩
  | updateReg => exact absurd rfl ho
  | _ => cases hf

theorem decodeBody_readSync (h : decodeBody .readSync hd ext = .ok i) : bField hd ≠ 0 := by
  simp only [decodeBody] at h
  split at h
  · rename_i hlegal
    obtain ⟨hpos, -⟩ := legalCount_iff.mp hlegal
    intro hz
    simp [hz] at hpos
  · cases h

/-- Bytes that are read from words leave only zeros behind them (R93, R97). -/
theorem padding_of_unpackBytes {n : Nat} {ws : List Word} {bs : List Byte} (h : unpackBytes n ws = .ok bs) :
    ((ws.flatMap wordBytes).drop n).any (· != 0) = false := by
  obtain ⟨rfl, rfl⟩ := packBytes_of_unpackBytes h
  simp [flatMap_packBytes]

end illegal

/-- Settles O6: what the body of the opcode asks of the words, one clause after the other. -/
theorem illegalDescriptorsDoNotDecode : Obligations.IllegalDescriptorsDoNotDecode := by
  intro hd ext
  refine ⟨fun hno i h => ?_, fun o ho hm i h => ?_, fun hlen i h => ?_, fun o ho hf hne hx i h => ?_,
    fun hc hx i h => ?_, fun hc hx i h => ?_, fun hc hz i h => ?_, fun hc hz i h => ?_, fun hc hpad i h => ?_,
    fun len1 hc h1 hpad i h => ?_, fun len1 len2 hc h1 h2 hpad i h => ?_⟩
  · obtain ⟨hd', ext', o, he, ho, -⟩ := decode_ok h
    obtain ⟨rfl, -⟩ : hd = hd' ∧ ext = ext' := by simpa using he
    exact hno o ho.symm
  · obtain ⟨hs, -⟩ := decodeBody_of_code ho.symm h
    exact hm (by simpa [Opcode.selects] using hs)
  · obtain ⟨hwf, he⟩ := encodeOfDecode _ _ h
    obtain ⟨hlen', -⟩ := descriptorLengthFollowsHeader i hwf hd ext he
    exact hlen (he ▸ hlen')
  · obtain ⟨-, hbody⟩ := decodeBody_of_code ho.symm h
    obtain ⟨x, rfl⟩ := decodeBody_hx hf hne hbody
    exact hx (highHalf_halfWord x)
  · obtain ⟨-, hbody⟩ := decodeBody_of_code (o := .chgProbe) hc h
    obtain ⟨x, y, z, rfl, -⟩ := takeProbe_ok hbody
    exact hx (highHalf_halfWord z)
  · obtain ⟨-, hbody⟩ := decodeBody_of_code (o := .seqWwr) hc h
    obtain ⟨x1, delay, timeout, frames, frame1, frame2, rfl, hz, -⟩ := takeSequence_ok hbody
    exact hx hz
  · obtain ⟨-, hbody⟩ := decodeBody_of_code (o := .seqWwr) hc h
    obtain ⟨x1, delay, timeout, frames, frame1, frame2, rfl, -, hlegal1, hlegal2, hread, -⟩ := takeSequence_ok hbody
    obtain ⟨hpos1, -⟩ := legalCount_iff.mp hlegal1
    obtain ⟨hpos2, -⟩ := legalCount_iff.mp hlegal2
    obtain ⟨hposr, -⟩ := legalCount_iff.mp hread
    obtain hz | hz | hz := hz
    · simp [hz] at hposr
    · simp [hz] at hpos1
    · rw [List.headD_cons] at hz
      rw [hz] at hpos2
      cases hpos2
  · obtain ⟨-, hbody⟩ := decodeBody_of_code (o := .readSync) hc h
    exact decodeBody_readSync hbody hz
  · obtain ⟨-, hbody⟩ := decodeBody_of_code (o := .writeSync) hc h
    obtain ⟨bs, hu, -⟩ := takePayload_ok hbody
    exact Bool.false_ne_true ((padding_of_unpackBytes hu).symm.trans hpad)
  · obtain ⟨-, hbody⟩ := decodeBody_of_code (o := .seqWwr) hc h
    obtain ⟨x1, delay, timeout, frames, frame1, frame2, rfl, -, -, -, -, hu1, -⟩ := takeSequence_ok hbody
    rw [← h1] at hu1
    exact Bool.false_ne_true ((padding_of_unpackBytes hu1).symm.trans hpad)
  · obtain ⟨-, hbody⟩ := decodeBody_of_code (o := .seqWwr) hc h
    obtain ⟨x1, delay, timeout, frames, frame1, frame2, rfl, -, -, -, -, -, hu2, -⟩ := takeSequence_ok hbody
    rw [← List.drop_drop] at hpad
    rw [← h1] at hu2
    subst h2
    exact Bool.false_ne_true ((padding_of_unpackBytes hu2).symm.trans hpad)

/-! ## Bytes and worked examples -/

/-- Settles O7: the bytes of the words are read as the words. -/
theorem bytesCarryTheDescriptor : Obligations.BytesCarryTheDescriptor := by
  intro ws
  rw [decodeBytes, wordsOfBytes_flatMap]

/-- With no delay and the default timeout of R107's example, `FG_SRAM_READ` is this sequence (R105). -/
theorem fgSramRead_eq {p : Params} (hdelay : p.fgReadDelay = 0) (htimeout : p.defaultTimeoutMs = 100) :
    Machine.fgSramRead p 0 0x00 2 = .seqWwr 0 false [0x8C, 0x00, 0x00] [0x8D] 2 0 100 := by
  rw [Machine.fgSramRead, hdelay, htimeout]
  rfl

/-- A descriptor that is a well-formed command's is decoded to it (R98). -/
theorem encode_and_decode {i : Instr} {ws : List Word} (hwf : i.wellFormed = true) (he : encode i = ws) :
    encode i = ws ∧ decode ws = .ok i :=
  ⟨he, he ▸ decodeOfEncode i hwf⟩

/-- Settles O1: the encoder gives the words, and the round trip gives the commands back. -/
theorem workedEncodingsOfR107 : Obligations.WorkedEncodingsOfR107 := by
  refine ⟨encode_and_decode rfl (by decide), encode_and_decode rfl (by decide), encode_and_decode (by decide) (by decide),
    encode_and_decode rfl (by decide), fun p hdelay htimeout => ?_, encode_and_decode rfl (by decide)⟩
  rw [fgSramRead_eq hdelay htimeout]
  exact ⟨rfl, encode_and_decode (by decide) (by decide)⟩

end Sys2Proof
end

section
/-! The words of a response and the RESULT of a decoded quantity (spec/30_encoding.md R93, R100 to R103,
spec/42_fuel_gauge.md R190). -/

namespace Sys2Proof.Machine

/-! ## R0 -/

section header
variable (dlen : Half) (code : Byte)

theorem r0_status : (dlen ++ (0 : Byte) ++ code).extractLsb' 0 8 = code := BitVec.extractLsb'_append_eq_right

theorem r0_zeros : (dlen ++ (0 : Byte) ++ code).extractLsb' 8 8 = 0 :=
  (BitVec.extractLsb'_append_eq_of_le (by decide)).trans BitVec.extractLsb'_append_eq_right

theorem r0_dlen : (dlen ++ (0 : Byte) ++ code).extractLsb' 16 16 = dlen :=
  (BitVec.extractLsb'_append_eq_of_le (by decide)).trans BitVec.extractLsb'_append_eq_left

end header

/-- Settles O8: the fields of `R0` one by one, and the data packed. -/
theorem responseWordsLayout : Obligations.ResponseWordsLayout := by
  refine ⟨by decide, fun r hlen => ⟨_, _, rfl, r0_status _ _, r0_zeros _ _, ?_, length_packBytes r.data,
    unpackBytes_packBytes r.data rfl⟩⟩
  have hdlen : (BitVec.ofNat 16 r.data.length).toNat = r.data.length := Nat.mod_eq_of_lt hlen
  exact (congrArg BitVec.toNat (r0_dlen _ _)).trans hdlen

/-! ## Decoded quantities -/

/-- A quantity within 32-bit two's complement is read back from its word (R102). -/
theorem toInt_quantityWord {q : Int} (hlo : -2 ^ 31 ≤ q) (hhi : q < 2 ^ 31) : (quantityWord q).toInt = q := by
  rw [quantityWord, BitVec.toInt_ofInt]
  exact Int.bmod_eq_of_le (by omega) (by omega)

theorem socDecode_range (raw : Half) : -3999 ≤ socDecode raw ∧ socDecode raw ≤ 7999 := by
  have hraw := raw.isLt
  simp only [socDecode]
  omega

theorem ocvDecode_range (quirk : Bool) (raw : Half) : -3999 ≤ ocvDecode quirk raw ∧ ocvDecode quirk raw ≤ 7999 := by
  rw [ocvDecode, milliValue_3800]
  split <;> omega

theorem currentDecode_range (free : BitVec 32) (raw : Half) :
    -3999 ≤ currentDecode false free raw ∧ currentDecode false free raw ≤ 7999 := by
  rw [currentDecode, milliValue_1800, Bool.false_and]
  split
  · contradiction
  · split <;> omega

/-- The fraction of a temperature is at most 9 tenths (R175). -/
theorem tempTenths_range (raw : Half) : 0 ≤ tempTenths raw ∧ tempTenths raw ≤ 1279 := by
  have hfraction : (raw &&& 0x00F0).toNat ≤ 0x00F0 := by
    rw [BitVec.toNat_and]
    exact Nat.and_le_right
  rw [tempTenths_eq]
  omega

/-- The division truncates toward zero, so it takes both signs alike (R175). -/
theorem tempDecode_range (quirk : Bool) (raw : Half) : -3999 ≤ tempDecode quirk raw ∧ tempDecode quirk raw ≤ 7999 := by
  obtain ⟨hlo, hhi⟩ := tempTenths_range raw
  have htdiv : (tempTenths raw).tdiv 10 = tempTenths raw / 10 := Int.tdiv_eq_ediv_of_nonneg hlo
  simp only [tempDecode]
  split
  · omega
  · split
    · rw [Int.neg_tdiv, htdiv]
      omega
    · rw [htdiv]
      omega

theorem cycleDecode_range (quirk : Bool) (raw : Half) :
    -3999 ≤ cycleDecode quirk raw ∧ cycleDecode quirk raw ≤ 7999 := by
  have hlow : raw.toNat &&& 0x00FF ≤ 0x00FF := Nat.and_le_right
  rw [cycleDecode]
  split <;> omega

/-- Settles O15: the range of each decoder, which 32 bits hold. -/
theorem decodedQuantityFitsResult : Obligations.DecodedQuantityFitsResult := by
  intro quirk free raw q hq
  have hrange : -3999 ≤ q ∧ q ≤ 7999 := by
    obtain rfl | rfl | rfl | rfl | rfl := hq
    · exact socDecode_range raw
    · exact ocvDecode_range quirk raw
    · exact currentDecode_range free raw
    · exact tempDecode_range quirk raw
    · exact cycleDecode_range quirk raw
  obtain ⟨hlo, hhi⟩ := hrange
  exact ⟨hlo, hhi, toInt_quantityWord (by omega) (by omega)⟩

end Sys2Proof.Machine
end

section
/-! Every step keeps each command legal and on its own context, and every response legal (spec/30_encoding.md R100, R102,
R106, spec/44_session.md R255, spec/60_exceptions.md R273): what each program shape may call and answer, then the
moves of a command. -/

namespace Sys2Proof.Machine

/-! ## What a command may call -/

/-- The two spans of a masked update (R153). -/
def Span.IsUpdate (span : Span) : Prop := (∃ a n, span = .read a n) ∨ ∃ frame, span = .write frame

theorem updateStep_call_isUpdate {f : FieldUpdate} {l l' : Locals} {last : Option (Span × SpanResult)} {span : Span}
    (h : updateStep f l last = (l', .call span)) : span.IsUpdate := by
  obtain rfl | ⟨a, n, r, frame, rfl, rfl⟩ := updateStep_call h
  · cases h
    exact .inl ⟨_, _, rfl⟩
  · exact .inr ⟨frame, rfl⟩

section calls
variable {d : Nat} {l : Locals} {last : Option (Span × SpanResult)} {call : Call} {b : BusIndex}

theorem drawingProgram_call {span : Span} {finish : Nat → SpanResult → Response × Nat}
    (h : ((drawingProgram b span finish).next d l last).action = .call call) : call = ⟨b.toNat, span⟩ := by
  cases last with
  | none => exact (Action.call.inj h).symm
  | some last => cases h

theorem updateProgram_call {f : FieldUpdate} (h : ((updateProgram b f).next d l last).action = .call call) :
    call.ctx = b.toNat ∧ call.span.IsUpdate := by
  simp only [updateProgram] at h
  split at h
  · rename_i l' span hu
    cases h
    exact ⟨rfl, updateStep_call_isUpdate hu⟩
  · cases h

theorem updatesProgram_call {fields : List FieldUpdate}
    (h : ((updatesProgram b fields).next d l last).action = .call call) :
    call.ctx = b.toNat ∧ call.span.IsUpdate := by
  simp only [updatesProgram] at h
  split at h
  · cases h
  · split at h
    · rename_i l' span hu
      cases h
      exact ⟨rfl, updateStep_call_isUpdate hu⟩
    · split at h
      · split at h
        · cases h
        · cases h
          exact ⟨rfl, .inl ⟨_, _, rfl⟩⟩
      · cases h

/-- The calls of a command with the program of one span. -/
theorem callsOwn_of_drawing {i : Instr} {span : Span} (hb : i.bus? = some b) (hu : usesSpan i span = true)
    (h : call = ⟨b.toNat, span⟩) : (∃ b, i.bus? = some b ∧ call.ctx = b.toNat) ∧ usesSpan i call.span = true := by
  subst h
  exact ⟨⟨b, hb, rfl⟩, hu⟩

/-- The calls of a command that makes masked updates. -/
theorem callsOwn_of_update {i : Instr} (hb : i.bus? = some b) (hread : ∀ a n, usesSpan i (.read a n) = true)
    (hwrite : ∀ frame, usesSpan i (.write frame) = true) (h : call.ctx = b.toNat ∧ call.span.IsUpdate) :
    (∃ b, i.bus? = some b ∧ call.ctx = b.toNat) ∧ usesSpan i call.span = true := by
  obtain ⟨hctx, ⟨a, n, hspan⟩ | ⟨frame, hspan⟩⟩ := h
  · exact ⟨⟨b, hb, hctx⟩, hspan ▸ hread a n⟩
  · exact ⟨⟨b, hb, hctx⟩, hspan ▸ hwrite frame⟩

/-- Whatever a command calls is on its own context, and a span it makes (R255). -/
theorem programOf_call {p : Params} {i : Instr} (h : ((programOf p i).next d l last).action = .call call) :
    (∃ b, i.bus? = some b ∧ call.ctx = b.toNat) ∧ usesSpan i call.span = true := by
  cases i with
  | writeSync | readSync | seqWwr | readReg | writeReg | fgReadSoc | fgReadOcv | fgReadCurrent | fgReadTemp
  | fgReadCycle | ctxOpen | ctxClose => exact callsOwn_of_drawing rfl rfl (drawingProgram_call h)
  | cvtSoc | cvtOcv | cvtCurrent | cvtTemp | cvtCycle | cvtIcl | cvtCc | cvtTopoff => cases h
  | updateReg | chgSetIcl | chgSetCc | chgSetTopoff | chgSetAutostop | chgSetEnable =>
    exact callsOwn_of_update rfl (fun _ _ => rfl) (fun _ => rfl) (updateProgram_call h)
  | chgProbe => exact callsOwn_of_update rfl (fun _ _ => rfl) (fun _ => rfl) (updatesProgram_call h)

/-- On a context that exists, the call fits the command. -/
theorem programOf_callFits {p : Params} {i : Instr} {nCtx : Nat} (hn : ∀ b, i.bus? = some b → b.toNat < nCtx)
    (h : ((programOf p i).next d l last).action = .call call) : CallFits nCtx i call := by
  obtain ⟨⟨b, hb, hctx⟩, hspan⟩ := programOf_call h
  exact ⟨⟨b, hb, hctx, hn b hb⟩, hspan⟩

end calls

/-- In every phase after `DECODE` that may decide, the command's context exists, if it has one. -/
theorem bus_lt_of_compute {nCtx k : Nat} {i : Instr} {last : Option (Span × SpanResult)}
    (h : PhaseFits nCtx i (.compute k last)) {b : BusIndex} (hb : i.bus? = some b) : b.toNat < nCtx := by
  match last, h with
  | none, h => cases hb.symm.trans h
  | some (_, _), ⟨⟨b', hb', hlt⟩, _⟩ =>
    obtain rfl : b = b' := Option.some.inj (hb.symm.trans hb')
    exact hlt

/-! ## What a procedure may return -/

@[simp] theorem spanMayReturn_ok (span : Span) : spanMayReturn span .ok = true := by cases span <;> rfl

/-- A bus procedure returns one of its statuses (R121, R124, R127). -/
theorem spanMayReturn_spanResult (span : Span) (o : BusOutcome) (buffer : List Byte) :
    spanMayReturn span (spanResult span o buffer).status = true := by
  cases span with
  | write => cases o <;> rfl
  | read addr n =>
    simp only [spanResult, readStatus]
    split
    · split <;> rfl
    · rfl
  | sequence f1 f2 n delay timeout =>
    simp only [spanResult, sequenceStatus]
    split
    · split <;> rfl
    · rfl
  | setOpen => rfl

/-! ## Commands -/

/-- A client past `DECODE` has a legal command and is in a phase that fits it. -/
def ClientFits (nCtx : Nat) (y : Client) : Prop :=
  ∀ cmd ph l, y = .pending cmd ph l → ph ≠ .decode → ∃ i, decode cmd = .ok i ∧ PhaseFits nCtx i ph

theorem commandInv_iff {s : State} : CommandInv s ↔ ∀ c, ClientFits s.contexts.length (s.client c) := Iff.rfl

theorem clientFits_answered (nCtx : Nat) (r : Response) : ClientFits nCtx (.answered r) := by
  rintro _ _ _ ⟨⟩

theorem clientFits_pending {nCtx : Nat} {cmd : List Word} {i : Instr} {ph : Phase} (hd : decode cmd = .ok i)
    (h : PhaseFits nCtx i ph) (l : Locals) : ClientFits nCtx (.pending cmd ph l) := by
  rintro _ _ _ ⟨⟩ _
  exact ⟨i, hd, h⟩

/-- A client that has just submitted is in `DECODE`, whatever it submitted. -/
theorem clientFits_submitted (nCtx : Nat) (descriptor : List Word) (l : Locals) :
    ClientFits nCtx (.pending descriptor .decode l) := by
  rintro _ _ _ ⟨⟩ hph
  exact absurd rfl hph

/-- Every command fits its phase, and the command of client `c`, if it has one, is `cmd`: what a turn of `c` keeps. -/
structure CommandOf (c : Nat) (cmd : List Word) (s : State) : Prop where
  commands : CommandInv s
  command : ∀ cmd' ph l, s.client c = .pending cmd' ph l → cmd' = cmd

section commands
variable {s t : State} {c : Nat} {cmd : List Word} {i : Instr}

/-- Where one client changes and fits, and no context comes or goes, every client fits. -/
theorem CommandInv.set_client {y : Client} (h : CommandInv s) (hy : y ≠ .idle)
    (hcl : t.clients = putClient s.clients c y) (hlen : t.contexts.length = s.contexts.length)
    (hfits : ClientFits s.contexts.length y) : CommandInv t := by
  rw [commandInv_iff, hlen]
  intro c'
  rw [client_of_putClient hy hcl]
  split
  · exact hfits
  · exact commandInv_iff.mp h c'

theorem CommandOf.answered {r : Response} (h : CommandOf c cmd s)
    (hcl : t.clients = putClient s.clients c (.answered r)) (hlen : t.contexts.length = s.contexts.length) :
    CommandOf c cmd t where
  commands := h.commands.set_client (by simp) hcl hlen (clientFits_answered _ r)
  command cmd' ph l hc := by simp [client_of_putClient (by simp) hcl] at hc

theorem CommandOf.pending {ph : Phase} {l : Locals} (h : CommandOf c cmd s) (hd : decode cmd = .ok i)
    (hcl : t.clients = putClient s.clients c (.pending cmd ph l)) (hlen : t.contexts.length = s.contexts.length)
    (hfits : PhaseFits s.contexts.length i ph) : CommandOf c cmd t where
  commands := h.commands.set_client (by simp) hcl hlen (clientFits_pending hd hfits l)
  command cmd' ph' l' hc := by
    simp only [client_of_putClient (by simp) hcl, if_true, Client.pending.injEq] at hc
    exact hc.1.symm

/-- The phase a turn of client `c` finds fits its command; `DECODE` fits every command. -/
theorem CommandOf.phase {cmd' : List Word} {ph : Phase} {l : Locals} (h : CommandOf c cmd s) (hd : decode cmd = .ok i)
    (hc : s.client c = .pending cmd' ph l) : cmd' = cmd ∧ PhaseFits s.contexts.length i ph := by
  obtain rfl := h.command _ _ _ hc
  refine ⟨rfl, ?_⟩
  by_cases hph : ph = .decode
  · subst hph
    trivial
  · obtain ⟨j, hj, hfits⟩ := h.commands c _ _ _ hc hph
    obtain rfl : i = j := Except.ok.inj (hd.symm.trans hj)
    exact hfits

/-- A decision leaves the command waiting for the guard of its own context, or answered. -/
theorem CommandOf.follow {k : Nat} {d : Decision} (h : CommandOf c cmd s) (hd : decode cmd = .ok i)
    (hcall : ∀ call, d.action = .call call → CallFits s.contexts.length i call) :
    CommandOf c cmd (follow c cmd k d s) := by
  obtain ⟨call, ha, e⟩ | ⟨r, -, e⟩ := follow_cases c cmd k d s <;> rw [e]
  · exact h.pending hd rfl rfl (hcall call ha)
  · exact h.answered rfl rfl

/-- Every move of the command `i` keeps it on its context: only a decision makes a call, and only the last answer of a
span a result. -/
theorem Move.commandOf {p : Params} (h : Move (programOf p i) c s t) (hd : decode cmd = .ok i)
    (hs : CommandOf c cmd s) : CommandOf c cmd t := by
  cases h with
  | wait => exact hs
  | stopped => exact hs.answered rfl rfl
  | fault => exact hs.answered rfl rfl
  | compute cmd' l hc _ hb =>
    obtain ⟨rfl, -⟩ := hs.phase hd hc
    exact hs.pending hd rfl rfl ((programOf_bus p i).symm.trans hb)
  | start cmd' l b hc _ hb hlt =>
    obtain ⟨rfl, -⟩ := hs.phase hd hc
    have hbus : i.bus? = some b := (programOf_bus p i).symm.trans hb
    exact hs.follow hd fun call => programOf_callFits fun b' hb' => by
      obtain rfl : b = b' := Option.some.inj (hbus.symm.trans hb')
      exact hlt
  | next cmd' k last l hc =>
    obtain ⟨rfl, hfits⟩ := hs.phase hd hc
    exact hs.follow hd fun call => programOf_callFits fun b => bus_lt_of_compute hfits
  | setOpen cmd' k j b l x hc =>
    obtain ⟨rfl, hfits⟩ := hs.phase hd hc
    exact hs.pending hd rfl List.length_set ⟨hfits, rfl⟩
  | handOver cmd' k call l x txn hc =>
    obtain ⟨rfl, hfits⟩ := hs.phase hd hc
    exact hs.pending hd rfl List.length_set hfits
  | second cmd' k tt call l x txn txn' a rest count hc =>
    obtain ⟨rfl, hfits⟩ := hs.phase hd hc
    exact hs.pending hd rfl List.length_set hfits
  | answered cmd' k tt call l x txn a rest o buffer hc =>
    obtain ⟨rfl, hfits⟩ := hs.phase hd hc
    exact hs.pending hd rfl List.length_set ⟨hfits, spanMayReturn_spanResult call.span o buffer⟩
  | release cmd' k call r l x hc =>
    obtain ⟨rfl, ⟨⟨b, hb, -, hlt⟩, hspan⟩, hret⟩ := hs.phase hd hc
    exact hs.pending hd rfl List.length_set ⟨⟨b, hb, hlt⟩, hspan, hret⟩
  | releaseNone cmd' k call r l hc =>
    obtain ⟨rfl, ⟨⟨b, hb, -, hlt⟩, hspan⟩, hret⟩ := hs.phase hd hc
    exact hs.pending hd rfl rfl ⟨⟨b, hb, hlt⟩, hspan, hret⟩

/-- Every event from outside keeps the commands: it starts them in `DECODE`, and ends them. -/
theorem OutsideMove.commandInv (h : OutsideMove s t) (hs : CommandInv s) : CommandInv t := by
  cases h with
  | quiet => exact hs
  | lost => exact hs
  | submit c descriptor rest =>
    exact hs.set_client (y := .pending _ _ _) (by simp) rfl rfl (clientFits_submitted _ descriptor _)
  | answer j a rest x =>
    rw [commandInv_iff, setContext_contexts, List.length_set]
    exact hs
  | reset => rintro _ _ _ _ ⟨⟩
  | refuse => exact hs.set_client (y := .answered _) (by simp) rfl rfl (clientFits_answered _ _)

end commands

/-- At the start of a turn, every command fits and the client whose turn it is has its own. -/
theorem commandOf_of_turn {s : State} {c : Nat} {cmd : List Word} {ph : Phase} {l : Locals} (h : CommandInv s)
    (hc : s.client c = .pending cmd ph l) (rest : List Input) : CommandOf c cmd { s with inputs := rest } :=
  ⟨h, fun _ _ _ hc' => (Client.pending.inj (hc.symm.trans hc')).1.symm⟩

/-- Settles O54: a turn is moves of one command, and every other step an event from outside. -/
theorem stepKeepsCommandsInTheirContext : Obligations.StepKeepsCommandsInTheirContext := by
  intro s t hs hstep
  obtain ⟨i, c, n, rest, cmd, ph, l, -, hc, hd, rfl⟩ | ⟨-, hout⟩ := step_cases hstep
  · exact (turnSteps_moves _ c (CommandOf c cmd) (fun u v hu hm => hm.commandOf hd hu) n _
      (commandOf_of_turn hs hc rest)).commands
  · exact hout.commandInv hs

/-! ## What a command may answer -/

/-- The statuses the block produces (R101, R273). -/
def Status.Produced (status : Status) : Prop := status ≠ .errConfigUnavailable ∧ status ≠ .errInvalidSession

theorem produced_of_spanMayReturn {span : Span} {status : Status} (h : spanMayReturn span status = true) :
    status.Produced := by
  constructor
  · rintro rfl
    cases span <;> cases h
  · rintro rfl
    cases span <;> cases h

theorem legalResponse_ok (result : Word) (data : List Byte) : LegalResponse ⟨.ok, result, data⟩ := by
  simp [LegalResponse]

theorem legalResponse_plain {status : Status} (h : status.Produced) : LegalResponse (plain status) :=
  ⟨h.1, h.2, fun _ => ⟨rfl, rfl⟩⟩

theorem legalResponse_withData {status : Status} (h : status.Produced) (data : List Byte) :
    LegalResponse (withData status data) :=
  ⟨h.1, h.2, fun hne => ⟨rfl, if_neg hne⟩⟩

theorem legalResponse_withResult {status : Status} (h : status.Produced) (result : Word) :
    LegalResponse (withResult status result) :=
  ⟨h.1, h.2, fun hne => ⟨if_neg hne, rfl⟩⟩

theorem legalResponse_fgResponse (transform : Nat → Half → Int × Nat) (d : Nat) {r : SpanResult}
    (h : r.status.Produced) : LegalResponse (fgResponse transform d r).1 := by
  unfold fgResponse
  split
  · exact legalResponse_ok _ _
  · exact legalResponse_plain h

/-- The procedure that returned last, if any, returned a status the block produces. -/
def LastProduced (last : Option (Span × SpanResult)) : Prop := ∀ span r, last = some (span, r) → r.status.Produced

/-- An update that ends returns `OK` or the status of the procedure that failed (R153, R158). -/
theorem updateStep_done {f : FieldUpdate} {l l' : Locals} {last : Option (Span × SpanResult)} {status : Status}
    (hlast : LastProduced last) (h : updateStep f l last = (l', .done status)) : status.Produced := by
  unfold updateStep at h
  split at h
  · cases h
  · rename_i r
    have hr : r.status.Produced := hlast _ r rfl
    split at h
    · simp only [Prod.mk.injEq] at h
      obtain ⟨-, h⟩ := h
      split at h
      · cases h
        exact ⟨by simp, by simp⟩
      · cases h
    · cases h
      exact hr
  · rename_i r _
    have hr : r.status.Produced := hlast _ r rfl
    cases h
    exact hr

section responses
variable {d : Nat} {l : Locals} {last : Option (Span × SpanResult)} {r : Response} {b : BusIndex}

theorem drawingProgram_respond {span : Span} {finish : Nat → SpanResult → Response × Nat} (hlast : LastProduced last)
    (hfin : ∀ d r, r.status.Produced → LegalResponse (finish d r).1)
    (h : ((drawingProgram b span finish).next d l last).action = .respond r) : LegalResponse r := by
  match last, hlast, h with
  | some (span', r'), hlast, h =>
    cases h
    exact hfin d r' (hlast span' r' rfl)

theorem pureProgram_respond {result : Nat → Word × Nat}
    (h : ((pureProgram result).next d l last).action = .respond r) : LegalResponse r := by
  cases h
  exact legalResponse_ok _ _

theorem updateProgram_respond {f : FieldUpdate} (hlast : LastProduced last)
    (h : ((updateProgram b f).next d l last).action = .respond r) : LegalResponse r := by
  simp only [updateProgram] at h
  split at h
  · cases h
  · rename_i l' status hu
    cases h
    exact legalResponse_plain (updateStep_done hlast hu)

theorem updatesProgram_respond {fields : List FieldUpdate} (hlast : LastProduced last)
    (h : ((updatesProgram b fields).next d l last).action = .respond r) : LegalResponse r := by
  simp only [updatesProgram] at h
  split at h
  · cases h
    exact legalResponse_ok _ _
  · split at h
    · cases h
    · rename_i l' status hu
      split at h
      · split at h
        · cases h
          exact legalResponse_ok _ _
        · cases h
      · cases h
        exact legalResponse_plain (updateStep_done hlast hu)

/-- Whatever a command answers is legal (R100, R102, R273). -/
theorem programOf_respond {p : Params} {i : Instr} (hlast : LastProduced last)
    (h : ((programOf p i).next d l last).action = .respond r) : LegalResponse r := by
  cases i with
  | writeSync | writeReg | ctxOpen | ctxClose =>
    exact drawingProgram_respond hlast (fun _ _ hr => legalResponse_plain hr) h
  | readSync | seqWwr => exact drawingProgram_respond hlast (fun _ _ hr => legalResponse_withData hr _) h
  | readReg => exact drawingProgram_respond hlast (fun _ _ hr => legalResponse_withResult hr _) h
  | fgReadSoc | fgReadOcv | fgReadCurrent | fgReadTemp | fgReadCycle =>
    exact drawingProgram_respond hlast (fun _ _ hr => legalResponse_fgResponse _ _ hr) h
  | cvtSoc | cvtOcv | cvtCurrent | cvtTemp | cvtCycle | cvtIcl | cvtCc | cvtTopoff => exact pureProgram_respond h
  | updateReg | chgSetIcl | chgSetCc | chgSetTopoff | chgSetAutostop | chgSetEnable =>
    exact updateProgram_respond hlast h
  | chgProbe => exact updatesProgram_respond hlast h

end responses

theorem lastProduced_none : LastProduced none := by
  rintro _ _ ⟨⟩

/-- In a phase that fits its command, the last procedure returned a status it may return. -/
theorem lastProduced_of_compute {nCtx k : Nat} {i : Instr} {last : Option (Span × SpanResult)}
    (h : PhaseFits nCtx i (.compute k last)) : LastProduced last := by
  rintro span r rfl
  obtain ⟨-, -, hret⟩ := h
  exact produced_of_spanMayReturn hret

/-! ## Responses -/

section legal
variable {s t : State} {c : Nat} {cmd : List Word} {i : Instr}

/-- Where one client changes, the responses stay legal if it holds none or a legal one. -/
theorem ResponsesLegal.set_client {y : Client} (h : ResponsesLegal s) (hy : y ≠ .idle)
    (hcl : t.clients = putClient s.clients c y) (hlegal : ∀ r, y = .answered r → LegalResponse r) :
    ResponsesLegal t := by
  intro c' r hc'
  rw [client_of_putClient hy hcl] at hc'
  split at hc'
  · exact hlegal r hc'
  · exact h c' r hc'

theorem ResponsesLegal.answered {r : Response} (h : ResponsesLegal s)
    (hcl : t.clients = putClient s.clients c (.answered r)) (hlegal : LegalResponse r) : ResponsesLegal t :=
  h.set_client (by simp) hcl fun _ e => Client.answered.inj e ▸ hlegal

theorem ResponsesLegal.pending {ph : Phase} {l : Locals} (h : ResponsesLegal s)
    (hcl : t.clients = putClient s.clients c (.pending cmd ph l)) : ResponsesLegal t :=
  h.set_client (by simp) hcl fun _ e => by cases e

theorem ResponsesLegal.follow {k : Nat} {d : Decision} (h : ResponsesLegal s)
    (hlegal : ∀ r, d.action = .respond r → LegalResponse r) : ResponsesLegal (follow c cmd k d s) := by
  obtain ⟨call, -, e⟩ | ⟨r, ha, e⟩ := follow_cases c cmd k d s <;> rw [e]
  · exact h.pending rfl
  · exact h.answered rfl (hlegal r ha)

/-- Every move of a command that fits its phase answers legally, if it answers: `FAULT_CONTRACT`, or what its program
decides. -/
theorem Move.responsesLegal {p : Params} (h : Move (programOf p i) c s t) (hd : decode cmd = .ok i)
    (hs : CommandOf c cmd s) (hr : ResponsesLegal s) : ResponsesLegal t := by
  have hfault : Status.faultContract.Produced := ⟨by simp, by simp⟩
  cases h with
  | wait => exact hr
  | stopped => exact hr.answered rfl (legalResponse_plain hfault)
  | fault => exact hr.answered rfl (legalResponse_plain hfault)
  | start => exact hr.follow fun r => programOf_respond lastProduced_none
  | next cmd' k last l hc =>
    obtain ⟨rfl, hfits⟩ := hs.phase hd hc
    exact hr.follow fun r => programOf_respond (lastProduced_of_compute hfits)
  | compute | setOpen | handOver | second | answered | release | releaseNone => exact hr.pending rfl

/-- Every event from outside keeps the responses legal: the refusal of a descriptor is one (R274). -/
theorem OutsideMove.responsesLegal (h : OutsideMove s t) (hr : ResponsesLegal s) : ResponsesLegal t := by
  cases h with
  | quiet => exact hr
  | lost => exact hr
  | submit => exact hr.pending rfl
  | answer => exact hr
  | reset => rintro _ _ ⟨⟩
  | refuse => exact hr.answered rfl (legalResponse_plain (by split <;> exact ⟨by simp, by simp⟩))

end legal

/-- Settles O55: a turn keeps the responses legal together with the commands that answer them. -/
theorem stepKeepsResponsesLegal : Obligations.StepKeepsResponsesLegal := by
  intro s t hs hr hstep
  obtain ⟨i, c, n, rest, cmd, ph, l, -, hc, hd, rfl⟩ | ⟨-, hout⟩ := step_cases hstep
  · exact (turnSteps_moves _ c (fun u => CommandOf c cmd u ∧ ResponsesLegal u)
      (fun u v ⟨hu, hl⟩ hm => ⟨hm.commandOf hd hu, hm.responsesLegal hd hu hl⟩) n _
      ⟨commandOf_of_turn hs hc rest, hr⟩).2
  · exact hout.responsesLegal hr

end Sys2Proof.Machine
end

section
/-! The bus transaction primitive and its failures: what each bus procedure returns, then how a command of one span ends
(spec/40_bus_primitive.md R121 to R130, spec/60_exceptions.md R271, R272). -/

namespace Sys2Proof.Machine

/-! ## What a bus procedure returns -/

section results
variable {f1 f2 : List Byte} {n count : Nat} {delay : Word} {timeout : Timeout}

/-- A read whose count is its length returns its bytes (R124). -/
@[simp] theorem spanResult_read (addr : Byte) (n : Nat) (data buffer : List Byte) :
    spanResult (.read addr n) (.okRead n data) buffer = ⟨.ok, buffer⟩ := by
  simp [spanResult, readStatus]

/-- A read with any other count failed (R126). -/
theorem spanResult_read_count (addr : Byte) (data buffer : List Byte) (h : count ≠ n) :
    spanResult (.read addr n) (.okRead count data) buffer = ⟨.errBusTransport, []⟩ := by
  simp [spanResult, readStatus, h]

/-- A sequence is accepted from `len1 + readLength` on (R129). -/
theorem spanResult_sequence_accepted (data buffer : List Byte) (h : f1.length + n ≤ count) :
    spanResult (.sequence f1 f2 n delay timeout) (.okRead count data) buffer = ⟨.ok, buffer⟩ := by
  simp [spanResult, sequenceStatus, Nat.not_lt.mpr h]

/-- A sequence that moved fewer bytes is short (R129). -/
theorem spanResult_sequence_short (data buffer : List Byte) (h : count < f1.length + n) :
    spanResult (.sequence f1 f2 n delay timeout) (.okRead count data) buffer = ⟨.errShortTransfer, []⟩ := by
  simp [spanResult, sequenceStatus, h]

end results

/-! ## How a command of one span ends -/

section ends
variable {c n : Nat} {s : State} {cmd : List Word} {rest : List Input} {b : BusIndex} {x : Context}
  {fin : SpanResult → Response} {tape : List BusAnswer} {a : BusAnswer} {o : BusOutcome} {r : Response}

/-- A command whose span makes one transaction ends with that event, and with the response to what the procedure
returns (R121, R127). -/
theorem run_single_ends {span : Span} {t : Transaction} (hr : Ready s c (n + 5) rest cmd b x)
    (ha : x.answers = a :: tape) (h0 : ∀ b, span ≠ .setOpen b) (h1 : span.transaction 1 = some t)
    (h2 : span.transaction 2 = none) (ho : fitAnswer t a s.draws = o)
    (hfin : fin (spanResult span o (readBuffer t o (s.draws + fitDraws t a))) = r) :
    ∃ u, run (spanProgram b span fin) s = .next u ∧ u.draws = s.draws + fitDraws t a + bufferDraws t o ∧
      EndedWith s u c b rest x tape r [⟨b.toNat, c, t, o⟩] :=
  ⟨_, run_single hr ha h0 h1 h2 ho rfl rfl, rfl, hfin ▸ finished_ended hr.context (settled_after_span _ _)⟩

/-- A command of one read span whose pointer write is answered ends with two events (R124). -/
theorem run_read_ends {addr : Byte} {m count : Nat} {junk : List Byte} (hr : Ready s c (n + 6) rest cmd b x)
    (ha : x.answers = .ok count junk :: a :: tape) (ho : fitAnswer (.read m) a s.draws = o)
    (hfin : fin (spanResult (.read addr m) o (readBuffer (.read m) o (s.draws + fitDraws (.read m) a))) = r) :
    ∃ u, run (spanProgram b (.read addr m) fin) s = .next u ∧
      u.draws = s.draws + fitDraws (.read m) a + bufferDraws (.read m) o ∧
      EndedWith s u c b rest x tape r [⟨b.toNat, c, .write [addr], .okWrite count⟩, ⟨b.toNat, c, .read m, o⟩] :=
  ⟨_, run_read hr ha ho rfl rfl, rfl, hfin ▸ finished_ended hr.context (settled_after_span _ _)⟩

/-- A command of one read span whose pointer write fails ends with that event alone: it issues no read (R124). -/
theorem run_read_pointer_fails_ends {addr : Byte} {m : Nat} (hr : Ready s c (n + 6) rest cmd b x)
    (ha : x.answers = .err :: tape) (hfin : fin ⟨.errBusTransport, []⟩ = r) :
    ∃ u, run (spanProgram b (.read addr m) fin) s = .next u ∧
      EndedWith s u c b rest x tape r [⟨b.toNat, c, .write [addr], .err⟩] :=
  ⟨_, run_read_pointer_fails hr ha, hfin ▸ finished_ended hr.context (settled_after_span _ _)⟩

/-- `SEQ_WWR` ends with its one sequence, and answers what `SeqOp` returns (R127, R128). -/
theorem exec_seqWwr_ends {noLimit : Bool} {f1 f2 : List Byte} {len : Byte} {delay timeout : Word} {result : SpanResult}
    (hr : Ready s c (n + 5) rest cmd b x) (ha : x.answers = a :: tape)
    (ho : fitAnswer (.sequence f1 f2 len.toNat delay) a s.draws = o)
    (hresult : spanResult (.sequence f1 f2 len.toNat delay (sequenceTimeout noLimit timeout)) o
      (readBuffer (.sequence f1 f2 len.toNat delay) o
        (s.draws + fitDraws (.sequence f1 f2 len.toNat delay) a)) = result) :
    ∃ u, exec (.seqWwr b noLimit f1 f2 len delay timeout) s = .next u ∧
      u.draws = s.draws + fitDraws (.sequence f1 f2 len.toNat delay) a +
        bufferDraws (.sequence f1 f2 len.toNat delay) o ∧
      EndedWith s u c b rest x tape (withData result.status result.data)
        [⟨b.toNat, c, .sequence f1 f2 len.toNat delay, o⟩] :=
  run_single_ends hr ha (by simp) rfl rfl ho (congrArg (fun r => withData r.status r.data) hresult)

end ends

/-- `READ_SYNC` and `READ_REG` are one read span, and their answer to a read that failed is the status alone
(R125, 41_register_codec.md R151). -/
theorem exec_read_program {i : Instr} {b : BusIndex} {addr len : Byte} {m : Nat}
    (h : i = .readSync b addr len ∧ m = len.toNat ∨ i = .readReg b addr ∧ m = 2) :
    ∃ fin, (∀ s, exec i s = run (spanProgram b (.read addr m) fin) s) ∧
      fin ⟨.errBusTransport, []⟩ = ⟨.errBusTransport, 0, []⟩ := by
  obtain ⟨rfl, rfl⟩ | ⟨rfl, rfl⟩ := h
  · exact ⟨fun r => withData r.status r.data, fun _ => rfl, rfl⟩
  · exact ⟨fun r => withResult r.status (halfResult (valueOf r.data)), fun _ => rfl, rfl⟩

/-! ## The commands -/

/-- Settles O25: one write transaction, whose count `WriteOp` does not look at. -/
theorem writeSyncSendsOneFrame : Obligations.WriteSyncSendsOneFrame := by
  intro s c n rest cmd b x tape addr payload hr
  constructor
  · intro count data ha
    exact run_single_ends (span := .write ([addr] ++ payload)) hr ha (by simp) rfl rfl (fitAnswer_write ..) rfl
  · intro ha
    exact run_single_ends (span := .write ([addr] ++ payload)) hr ha (by simp) rfl rfl (fitAnswer_err ..) rfl

/-- Settles O27: a read with its length as count takes the bus's bytes as they are, and draws no free value. -/
theorem readSyncAnswersTheBytesRead : Obligations.ReadSyncAnswersTheBytesRead := by
  intro s c n rest cmd b x tape addr len count junk data hr hlen ha
  obtain ⟨t, hrun, hdraws, hend⟩ := run_read_ends (addr := addr) (fin := fun r => withData r.status r.data) hr ha
    (fitAnswer_read hlen ..) (r := ⟨.ok, 0, data⟩) (by simp [withData])
  rw [fitDraws_read hlen, bufferDraws_read] at hdraws
  exact ⟨t, hrun, hdraws, hend⟩

/-- Settles O29, by the transaction that fails and how: the pointer write, the read, or the read's count. -/
theorem readFailuresAreTransportErrors : Obligations.ReadFailuresAreTransportErrors := by
  intro s c n rest cmd b x tape addr len count junk hr i m hi
  obtain ⟨fin, hexec, hfin⟩ := exec_read_program hi
  rw [hexec s]
  refine ⟨fun ha => run_read_pointer_fails_ends hr ha hfin, fun ha => ?_, fun got data hgot hlen ha => ?_⟩
  · obtain ⟨t, hrun, -, hend⟩ := run_read_ends hr ha (fitAnswer_err ..) hfin
    exact ⟨t, hrun, hend⟩
  · obtain ⟨t, hrun, -, hend⟩ := run_read_ends hr ha (fitAnswer_read hlen ..)
      ((congrArg fin (spanResult_read_count addr data _ hgot)).trans hfin)
    exact ⟨t, hrun, hend⟩

/-- Settles O30, by the bus's answer: a full count, a count that is too short, `Err`. -/
theorem seqWwrStatusFollowsTheCount : Obligations.SeqWwrStatusFollowsTheCount := by
  intro s c n rest cmd b x tape noLimit f1 f2 len delay timeout hr
  refine ⟨fun count data hlen ha hfull => ?_, fun count data hlen ha hshort => ?_, fun ha => ?_⟩
  · have haccepted : f1.length + len.toNat ≤ count := by omega
    obtain ⟨t, hrun, hdraws, hend⟩ := exec_seqWwr_ends hr ha (fitAnswer_sequence hlen ..)
      (spanResult_sequence_accepted data _ haccepted)
    rw [readBuffer_sequence_full delay data _ hfull] at hend
    rw [fitDraws_sequence hlen, bufferDraws_sequence_full delay data hfull] at hdraws
    exact ⟨t, hrun, hdraws, hend⟩
  · obtain ⟨t, hrun, -, hend⟩ := exec_seqWwr_ends hr ha (fitAnswer_sequence hlen ..)
      (spanResult_sequence_short data _ hshort)
    exact ⟨t, hrun, hend⟩
  · obtain ⟨t, hrun, -, hend⟩ := exec_seqWwr_ends hr ha (fitAnswer_err ..) rfl
    exact ⟨t, hrun, hend⟩

/-- Settles O31: `SeqOp` accepts the count, and the read buffer it returns holds free values. -/
theorem acceptedShortSequenceDataIsFree : Obligations.AcceptedShortSequenceDataIsFree := by
  intro s c n rest cmd b x tape noLimit f1 f2 len delay timeout count data hr hlen ha haccepted hshort
  obtain ⟨t, hrun, hdraws, hend⟩ := exec_seqWwr_ends hr ha (fitAnswer_sequence hlen ..)
    (spanResult_sequence_accepted data _ haccepted)
  rw [readBuffer_sequence_short delay data _ hshort, fitDraws_sequence hlen] at hend
  rw [fitDraws_sequence hlen, bufferDraws_sequence_short delay data hshort] at hdraws
  exact ⟨t, hrun, hdraws, hend⟩

end Sys2Proof.Machine
end

section
/-! The register codec: the merge under a mask, the two bytes of a register value, and the masked update with its two
guard spans (spec/41_register_codec.md R150 to R158). -/

namespace Sys2Proof.Machine

/-! ## The merge -/

section merge
variable (cur mask value : Half)

/-- A bit of the merged value is the value's under the mask and the register's elsewhere (R154). -/
theorem getLsbD_merge {k : Nat} (hk : k < 16) :
    (merge cur mask value).getLsbD k = if mask.getLsbD k then value.getLsbD k else cur.getLsbD k := by
  rw [merge, BitVec.getLsbD_or, BitVec.getLsbD_and, BitVec.getLsbD_and, BitVec.getLsbD_not]
  cases mask.getLsbD k <;> simp [hk]

/-- What a merge changes: the bits under the mask in which the value differs (R155). -/
theorem merge_xor_cur : merge cur mask value ^^^ cur = (value ^^^ cur) &&& mask := by
  apply BitVec.eq_of_getLsbD_eq
  intro k hk
  rw [BitVec.getLsbD_xor, getLsbD_merge cur mask value hk, BitVec.getLsbD_and, BitVec.getLsbD_xor]
  cases mask.getLsbD k <;> simp

end merge

/-- Settles O19: the complement is the exclusive or with ones. -/
theorem mergeTakesMaskedBits : Obligations.MergeTakesMaskedBits := by
  intro cur mask value
  have hnot : (0xFFFF : Half) ^^^ mask = ~~~mask := BitVec.allOnes_xor
  exact ⟨by rw [hnot, merge], fun _ hk => getLsbD_merge cur mask value hk⟩

/-- Settles O20: the merge is the current value where what it changes is nothing. -/
theorem mergeUnchangedIffEqualUnderMask : Obligations.MergeUnchangedIffEqualUnderMask := by
  intro cur mask value
  rw [← merge_xor_cur]
  exact BitVec.xor_eq_zero_iff.symm

/-! ## One register read or written -/

/-- Settles O26: the frame of R82 is one write, whose count `WriteOp` does not look at. -/
theorem writeRegSendsLittleEndianValue : Obligations.WriteRegSendsLittleEndianValue := by
  intro s c n rest cmd b x tape addr value hr
  constructor
  · intro count data ha
    exact run_single_ends (span := .write (registerFrame addr value)) hr ha (by simp) rfl rfl (fitAnswer_write ..) rfl
  · intro ha
    exact run_single_ends (span := .write (registerFrame addr value)) hr ha (by simp) rfl rfl (fitAnswer_err ..) rfl

/-- Settles O28: a read of two bytes with count 2 takes the bus's bytes as they are, and draws no free value. -/
theorem readRegAnswersLittleEndianValue : Obligations.ReadRegAnswersLittleEndianValue := by
  intro s c n rest cmd b x tape addr b0 b1 count junk hr ha
  have hlen : [b0, b1].length = 2 := rfl
  obtain ⟨t, hrun, hdraws, hend⟩ := run_read_ends (addr := addr)
    (fin := fun r => withResult r.status (halfResult (valueOf r.data))) (r := ⟨.ok, (b1 ++ b0).setWidth 32, []⟩) hr ha
    (fitAnswer_read hlen ..) (by rw [readBuffer_read, spanResult_read]; rfl)
  rw [fitDraws_read hlen, bufferDraws_read] at hdraws
  exact ⟨t, hrun, hdraws, hend⟩

/-! ## One masked update -/

section update
variable {b : BusIndex} {f : FieldUpdate} {l : Locals} {d : Nat}

/-- After a read that succeeded, an update is answered `OK` or writes the merged value (R153, R155). -/
theorem updateProgram_read (v : Half) :
    (updateProgram b f).next d l (some (.read f.reg 2, ⟨.ok, bytes16 v⟩)) =
      if merge v f.mask f.value = v then
        ⟨{ l with cur := some v, new := some (merge v f.mask f.value) }, .respond (plain .ok), 0⟩
      else ⟨{ l with cur := some v, new := some (merge v f.mask f.value) },
        .call ⟨b.toNat, .write (registerFrame f.reg (merge v f.mask f.value))⟩, 0⟩ := by
  simp only [updateProgram, updateStep_read]
  by_cases hm : merge v f.mask f.value = v
  · simp only [if_pos hm]
  · simp only [if_neg hm]

/-- After a procedure that failed, an update reports the failure (R158). -/
theorem updateProgram_fails (span : Span) :
    (updateProgram b f).next d l (some (span, ⟨.errBusTransport, []⟩)) = ⟨l, .respond (plain .errBusTransport), 0⟩ := by
  simp only [updateProgram, updateStep_fails]

variable {c n : Nat} {s : State} {cmd : List Word} {rest : List Input} {x : Context} {tape : List BusAnswer}

/-- A decision that answers. -/
theorem follow_respond {k : Nat} {r : Response} :
    follow c cmd k ⟨l, .respond r, d⟩ s = ({ s with draws := s.draws + d } : State).setClient c (.answered r) := rfl

/-- The state in which client `c`'s command, its turn taken from the events, waits for the guard of its first span. -/
def awaitingFirst (s : State) (c : Nat) (cmd : List Word) (rest : List Input) (call : Call) : State :=
  ({ s with inputs := rest } : State).setClient c (.pending cmd (.acq 1 call) Locals.start)

@[simp] theorem awaitingFirst_client (call : Call) :
    (awaitingFirst s c cmd rest call).client c = .pending cmd (.acq 1 call) Locals.start :=
  client_setClient_pending ..

/-- An update waits first for the guard of its read (R153). -/
theorem run_update (hr : Ready s c (n + 1) rest cmd b x) :
    run (updateProgram b f) s = .next
      (turnSteps (updateProgram b f) c n (awaitingFirst s c cmd rest ⟨b.toNat, .read f.reg 2⟩)) :=
  run_decode hr.toAtDecode rfl (lt_of_context hr.context) rfl

/-- A command that waited for its first span and is answered has ended: of the wait nothing is left. -/
theorem awaitingFirst_finished (call : Call) (i : Nat) (y : Context) (events : List BusEvent) (r : Response) :
    (({ awaitingFirst s c cmd rest call with hist := s.hist ++ events, draws := d } : State).setContext i y).setClient c
      (.answered r) = finished s c i y events d r rest := by
  simp [awaitingFirst, finished, State.setClient, State.setContext, putClient_putClient]

/-- An update to which the bus reports no error reads, writes where the merged value differs, and is answered `OK`
(R153, R155). -/
theorem run_update_ends {v : Half} {count1 count2 : Nat} (hr : Ready s c (n + 10) rest cmd b x)
    (ha : x.answers = updateAnswers f v count1 count2 ++ tape) :
    ∃ t, run (updateProgram b f) s = .next t ∧ t.draws = s.draws ∧
      EndedWith s t c b rest x tape ⟨.ok, 0, []⟩ (updateEvents b.toNat c f v count1 count2) := by
  obtain ⟨m, k, x', -, hsettled, hsteps⟩ := steps_update (p := updateProgram b f) (c := c) (n := n)
    (s := awaitingFirst s c cmd rest ⟨b.toNat, .read f.reg 2⟩)
    (done := fun l => ⟨l, .respond (plain .ok), 0⟩) (awaitingFirst_client _) hr.notFaulted hr.context hr.free
    hr.isOpen ha (updateProgram_read v) rfl
  refine ⟨finished s c b.toNat x' (updateEvents b.toNat c f v count1 count2) s.draws (plain .ok) rest, ?_, rfl,
    finished_ended hr.context hsettled⟩
  rw [run_update hr, hsteps, follow_respond, turnSteps_answered _ _ _ _ _ (client_setClient_answered ..)]
  exact congrArg _ (awaitingFirst_finished ..)

/-- An update that fails is answered `ERR_BUS_TRANSPORT`, with the bus events of the failure (R153, R158). -/
theorem run_update_fails {answers : List BusAnswer} {events : List BusEvent} (hr : Ready s c (n + 10) rest cmd b x)
    (hu : FailedUpdate b.toNat c f answers events) (ha : x.answers = answers ++ tape) :
    ∃ t, run (updateProgram b f) s = .next t ∧ EndedWith s t c b rest x tape ⟨.errBusTransport, 0, []⟩ events := by
  obtain ⟨x', d, hsettled, hsteps⟩ := steps_update_fails (p := updateProgram b f) (c := c) (n := n)
    (s := awaitingFirst s c cmd rest ⟨b.toNat, .read f.reg 2⟩)
    (awaitingFirst_client _) hr.notFaulted hr.context hr.free hr.isOpen hu ha
    (fun _ v hm => by rw [updateProgram_read, if_neg hm]) (fun _ _ span _ => updateProgram_fails span)
  refine ⟨finished s c b.toNat x' events d (plain .errBusTransport) rest, ?_, finished_ended hr.context hsettled⟩
  rw [run_update hr, hsteps]
  exact congrArg _ (awaitingFirst_finished ..)

/-- The read span of an update whose write is due, and the decision that follows it: the guard is free, and the client
waits for it again with the value read and the merged value (R156). -/
theorem steps_update_between {p : Program} {k i : Nat} {v : Half} {count : Nat}
    (hc : s.client c = .pending cmd (.acq k ⟨i, .read f.reg 2⟩) l) (hf : s.faulted = false)
    (hx : s.contexts[i]? = some x) (hl : x.lock = .free) (ho : x.isOpen = true)
    (ha : x.answers = [.ok count [], .ok 2 (bytes16 v)] ++ tape)
    (hread : p.next s.draws l (some (.read f.reg 2, ⟨.ok, bytes16 v⟩)) =
      ⟨{ l with cur := some v, new := some (merge v f.mask f.value) },
        .call ⟨i, .write (registerFrame f.reg (merge v f.mask f.value))⟩, 0⟩) :
    ∃ x', Settled x x' tape ∧ turnSteps p c (n + 5) s = turnSteps p c n
      ((({ s with hist := s.hist ++
            [⟨i, c, .write [f.reg], .okWrite count⟩, ⟨i, c, .read 2, .okRead 2 (bytes16 v)⟩] } : State).setContext i
          x').setClient c
        (.pending cmd (.acq (k + 1) ⟨i, .write (registerFrame f.reg (merge v f.mask f.value))⟩)
          { l with cur := some v, new := some (merge v f.mask f.value) })) := by
  have hb : (bytes16 v).length = 2 := rfl
  refine ⟨?x', ?settled, ?steps⟩
  case steps =>
    rw [show n + 5 = (n + 1) + 4 from rfl, steps_read hc hf hx hl ho ha, fitAnswer_read hb, fitDraws_read hb,
      readBuffer_read, bufferDraws_read, spanResult_read,
      steps_call (afterSpan_client ..) (l' := { l with cur := some v, new := some (merge v f.mask f.value) })
        (call := ⟨i, .write (registerFrame f.reg (merge v f.mask f.value))⟩) (by rwa [afterSpan_draws]),
      afterSpan, setClient_setClient _ _ _ _ _ _ (by simp)]
    rfl
  case settled => exact settled_after_span _ _

end update

/-- A command that is one masked update of a field is that update (R153, R217). -/
theorem updateMeaning_of_program {i : BusIndex → Instr} {f : Params → FieldUpdate}
    (h : ∀ b s, exec (i b) s = run (updateProgram b (f s.params)) s) : UpdateMeaning i f := by
  intro s c n rest cmd b x tape hr
  rw [h b s]
  exact ⟨fun v count1 count2 ha => run_update_ends hr ha, fun answers events hu ha => run_update_fails hr hu ha⟩

/-- Settles O33: `UPDATE_REG` is one masked update, of the field its operands name. -/
theorem updateRegReadsMergesAndWrites : Obligations.UpdateRegReadsMergesAndWrites :=
  fun _ _ _ => updateMeaning_of_program fun _ _ => rfl

/-- Settles O34: the step of `DECODE`, and the five of the read span with the decision to write. -/
theorem updateFreesTheGuardBetweenItsSpans : Obligations.UpdateFreesTheGuardBetweenItsSpans := by
  intro s c rest cmd b x tape addr mask value v count hr ha hm
  obtain ⟨x', hsettled, hsteps⟩ := steps_update_between (p := updateProgram b ⟨addr, mask, value⟩) (n := 0)
    (f := ⟨addr, mask, value⟩) (s := awaitingFirst s c cmd rest ⟨b.toNat, .read addr 2⟩) (awaitingFirst_client _)
    hr.notFaulted hr.context hr.free hr.isOpen ha (by rw [updateProgram_read, if_neg hm])
  refine ⟨_, x', (run_update hr).trans (congrArg _ hsteps),
    client_setClient_pending .., set_getElem?_self hr.context, hsettled.lock, hsettled.onBus, hsettled.answers, rfl⟩

end Sys2Proof.Machine
end

section
/-! The fuel gauge: its transforms as fields of the raw value, the alternative reading of the signed fallback, the
`CVT_*` decoders, and the SRAM reads (spec/42_fuel_gauge.md R170 to R189). -/

namespace Sys2Proof.Machine

/-! ## The transforms as fields of the raw value -/

section fields
variable (raw : Half)

/-- The low bits of a raw value are a remainder. -/
theorem toNat_lowBits (n : Nat) : (raw.extractLsb' 0 n).toNat = raw.toNat % 2 ^ n := by
  rw [toNat_extract, pow_zero, Nat.div_one]

/-- The state of charge: the high byte is percent, the low byte a fraction of a percent (R172). -/
theorem socDecode_fields :
    socDecode raw =
      ((raw.extractLsb' 8 8).toNat : Int) * 10 + (((raw.extractLsb' 0 8).toNat : Int) * 10) / 256 := by
  have hhigh : raw.toNat / 2 ^ 8 % 2 ^ 8 = raw.toNat / 256 := by omega
  rw [socDecode, toNat_lowBits, toNat_extract, hhigh]
  push_cast
  rfl

/-- The magnitude of a voltage: bits 13:11 are volts, bits 10:0 a fraction of a volt (R173). -/
theorem milliValue_3800_fields :
    milliValue 0x3800 raw =
      ((raw.extractLsb' 11 3).toNat : Int) * 1000 + (((raw.extractLsb' 0 11).toNat : Int) * 1000) / 2048 := by
  rw [milliValue_3800, toNat_lowBits, toNat_extract]
  push_cast
  rfl

/-- The magnitude of a current: bits 12:11 are amperes, bits 10:0 a fraction of an ampere (R174). -/
theorem milliValue_1800_fields :
    milliValue 0x1800 raw =
      ((raw.extractLsb' 11 2).toNat : Int) * 1000 + (((raw.extractLsb' 0 11).toNat : Int) * 1000) / 2048 := by
  rw [milliValue_1800, toNat_lowBits, toNat_extract]
  push_cast
  rfl

/-- The tenths of a temperature: bits 14:8 are degrees, bits 7:4 a fraction of a degree (R175). -/
theorem tempTenths_fields :
    tempTenths raw =
      ((raw.extractLsb' 8 7).toNat : Int) * 10 + (((raw &&& 0x00F0).toNat : Int) * 10) / 256 := by
  rw [tempTenths_eq, toNat_extract]
  omega

/-- The fraction of a temperature is below a degree (R175). -/
theorem tempFraction_le : (raw &&& 0x00F0).toNat * 10 / 256 ≤ 9 := by
  have hfraction : (raw &&& 0x00F0).toNat ≤ 0x00F0 := by
    rw [BitVec.toNat_and]
    exact Nat.and_le_right
  omega

theorem milliValue_3800_range : 0 ≤ milliValue 0x3800 raw ∧ milliValue 0x3800 raw ≤ 7999 := by
  rw [milliValue_3800]
  omega

theorem milliValue_1800_range : 0 ≤ milliValue 0x1800 raw ∧ milliValue 0x1800 raw ≤ 3999 := by
  rw [milliValue_1800]
  omega

end fields

theorem mod_eq_of_lowBits {raw raw' : Half} {n : Nat} (h : raw'.extractLsb' 0 n = raw.extractLsb' 0 n) :
    raw'.toNat % 2 ^ n = raw.toNat % 2 ^ n := by
  rw [← toNat_lowBits, ← toNat_lowBits, h]

/-- Bits 15 and 14 do not enter a voltage (R173). -/
theorem milliValue_3800_congr {raw raw' : Half} (h : raw'.extractLsb' 0 14 = raw.extractLsb' 0 14) :
    milliValue 0x3800 raw' = milliValue 0x3800 raw := by
  have hmod := mod_eq_of_lowBits h
  have hvolts : raw'.toNat / 2048 % 8 = raw.toNat / 2048 % 8 := by omega
  have hfraction : raw'.toNat % 2048 = raw.toNat % 2048 := by omega
  rw [milliValue_3800, milliValue_3800, hvolts, hfraction]

/-- Bits 15, 14 and 13 do not enter the magnitude of a current (R174). -/
theorem milliValue_1800_congr {raw raw' : Half} (h : raw'.extractLsb' 0 13 = raw.extractLsb' 0 13) :
    milliValue 0x1800 raw' = milliValue 0x1800 raw := by
  have hmod := mod_eq_of_lowBits h
  have hamperes : raw'.toNat / 2048 % 4 = raw.toNat / 2048 % 4 := by omega
  have hfraction : raw'.toNat % 2048 = raw.toNat % 2048 := by omega
  rw [milliValue_1800, milliValue_1800, hamperes, hfraction]

/-! ## The transforms with the fallback off -/

section fallbackOff
variable (raw : Half)

theorem ocvDecode_off : ocvDecode false raw = milliValue 0x3800 raw := rfl

/-- A current is its magnitude with the sign of bit 15 (R174). -/
theorem currentDecode_off (free : BitVec 32) :
    currentDecode false free raw = (if raw.getLsbD 15 then -1 else 1) * milliValue 0x1800 raw := by
  simp only [currentDecode, msb_eq_bit15, Bool.false_and, Bool.false_eq_true, if_false, ite_mul, neg_one_mul, one_mul]

/-- A temperature is its tenths with the sign of bit 15, divided toward zero (R175). -/
theorem tempDecode_off :
    tempDecode false raw = ((if raw.getLsbD 15 then -1 else 1) * tempTenths raw).tdiv 10 := by
  simp only [tempDecode, msb_eq_bit15, Bool.false_and, Bool.false_eq_true, if_false, ite_mul, neg_one_mul, one_mul]

/-- The tenths divided by 10 are the whole degrees: the fraction is below a degree (R175). -/
theorem tempTenths_tdiv : (tempTenths raw).tdiv 10 = ((raw.extractLsb' 8 7).toNat : Int) := by
  have hfraction := tempFraction_le raw
  rw [Int.tdiv_eq_ediv_of_nonneg (tempTenths_range raw).1, tempTenths_fields]
  omega

/-- Truncation toward zero takes both signs alike, so a temperature is bits 14:8 with the sign of bit 15 (R175). -/
theorem tempDecode_off_eq :
    tempDecode false raw = (if raw.getLsbD 15 then -1 else 1) * ((raw.extractLsb' 8 7).toNat : Int) := by
  rw [tempDecode_off, ← tempTenths_tdiv]
  split
  · rw [neg_one_mul, neg_one_mul, Int.neg_tdiv]
  · rw [one_mul, one_mul]

end fallbackOff

/-- A magnitude with either sign stays within its bound on both sides. -/
theorem signed_range {m bound : Int} (hlo : 0 ≤ m) (hhi : m ≤ bound) (negative : Bool) :
    -bound ≤ (if negative then -1 else 1) * m ∧ (if negative then -1 else 1) * m ≤ bound := by
  split <;> omega

/-- Settles O9: the formula of R172, and the range that two bytes give it. -/
theorem socDecodeIsTenthsOfPercent : Obligations.SocDecodeIsTenthsOfPercent := by
  intro raw
  have hhigh := (raw.extractLsb' 8 8).isLt
  have hlow := (raw.extractLsb' 0 8).isLt
  refine ⟨socDecode_fields raw, ?_⟩
  rw [socDecode_fields]
  omega

/-- Settles O10, by the fields of the magnitude. -/
theorem ocvDecodeIsMillivolts : Obligations.OcvDecodeIsMillivolts := by
  intro raw
  obtain ⟨hlo, hhi⟩ := milliValue_3800_range raw
  simp only [ocvDecode_off]
  exact ⟨milliValue_3800_fields raw, hlo, hhi, fun _ => milliValue_3800_congr BitVec.extractLsb'_append_eq_right⟩

/-- Settles O11, by the fields of the magnitude and the sign of bit 15. -/
theorem currentDecodeIsSignedMagnitude : Obligations.CurrentDecodeIsSignedMagnitude := by
  intro free raw
  obtain ⟨hlo, hhi⟩ := milliValue_1800_range raw
  obtain ⟨hlower, hupper⟩ := signed_range hlo hhi (raw.getLsbD 15)
  refine ⟨?formula, ?_, ?_, ?zero, fun raw' hsign hlow => ?_⟩
  case formula => rw [currentDecode_off, milliValue_1800_fields]
  case zero =>
    rw [currentDecode_off]
    decide
  · rwa [currentDecode_off]
  · rwa [currentDecode_off]
  · rw [currentDecode_off, currentDecode_off, hsign, milliValue_1800_congr hlow]

/-- Settles O12: the formula of R175, and its closed form with the range of a 7-bit field. -/
theorem tempDecodeTruncatesTowardZero : Obligations.TempDecodeTruncatesTowardZero := by
  intro raw
  have hdegrees := (raw.extractLsb' 8 7).isLt
  obtain ⟨hlower, hupper⟩ := signed_range (m := (raw.extractLsb' 8 7).toNat) (bound := 127) (by omega) (by omega)
    (raw.getLsbD 15)
  refine ⟨?formula, tempDecode_off_eq raw, ?_, ?_, tempFraction_le raw⟩
  case formula => rw [tempDecode_off, tempTenths_fields]
  · rwa [tempDecode_off_eq]
  · rwa [tempDecode_off_eq]

/-- Settles O13: the low byte as a remainder. -/
theorem cycleDecodeIsLowByte : Obligations.CycleDecodeIsLowByte := by
  intro raw
  rw [cycleDecode_eq, toNat_lowBits]
  omega

/-! ## The alternative reading of the signed fallback -/

section fallback
variable {raw : Half} {free : BitVec 32}

theorem ocvDecode_fallback (h : raw.getLsbD 15 = true) : ocvDecode true raw = 4000 := by
  simp [ocvDecode, msb_eq_bit15, h]

theorem tempDecode_fallback (h : raw.getLsbD 15 = true) : tempDecode true raw = 0 := by
  simp [tempDecode, msb_eq_bit15, h]

theorem cycleDecode_fallback (h : raw.getLsbD 15 = true) : cycleDecode true raw = 0 := by
  simp [cycleDecode, msb_eq_bit15, h]

theorem currentDecode_fallback (h : raw.getLsbD 15 = true) : currentDecode true free raw = free.toInt := by
  simp [currentDecode, msb_eq_bit15, h]

/-- With bit 15 clear no transform takes the fallback, nor the free value (R178). -/
theorem fallback_needs_bit15 (h : raw.getLsbD 15 = false) (free' : BitVec 32) :
    ocvDecode true raw = ocvDecode false raw ∧ tempDecode true raw = tempDecode false raw ∧
      cycleDecode true raw = cycleDecode false raw ∧
      currentDecode true free raw = currentDecode false free' raw := by
  simp only [ocvDecode, tempDecode, cycleDecode, currentDecode, msb_eq_bit15, h, Bool.and_false, Bool.false_eq_true,
    if_false, and_self]

end fallback

/-- Settles O14: each transform with bit 15 set, and all of them with it clear. -/
theorem signedFallbackBranches : Obligations.SignedFallbackBranches := by
  intro free raw
  refine ⟨fun h => ⟨ocvDecode_fallback h, tempDecode_fallback h, cycleDecode_fallback h, ?_⟩,
    fallback_needs_bit15⟩
  rw [currentDecode_fallback h, quantityWord, BitVec.ofInt_toInt]

/-! ## The decoders without bus activity -/

/-- The transform of a current, its draw stated by bit 15 (R178). -/
theorem currentTransform_eq (p : Params) (d : Nat) (raw : Half) :
    currentTransform p d raw = (currentDecode p.quirkSignedFallback (Config.freeCurrent d) raw,
      if p.quirkSignedFallback && raw.getLsbD 15 then 1 else 0) := by
  rw [currentTransform, msb_eq_bit15]

section decoders
variable {i : Instr} {s : State} {c n : Nat} {rest : List Input} {cmd : List Word} {raw : Half}
  {transform : Nat → Half → Int × Nat} {q : Int}

/-- A decoder answers its transform, and draws what the transform draws (R185 to R189). -/
theorem exec_decoder {drawn : Nat} (hd : AtDecode s c (n + 2) rest cmd)
    (hexec : exec i s = run (decoderProgram transform raw) s) (hq : transform s.draws raw = (q, drawn)) :
    exec i s = .next (({ s with inputs := rest, draws := s.draws + drawn } : State).setClient c
      (.answered ⟨.ok, BitVec.ofInt 32 q, []⟩)) := by
  rw [hexec, decoderProgram, run_pureProgram hd, hq, quantityWord]

/-- A decoder whose transform draws nothing changes nothing but its client (R185, R186, R188, R189). -/
theorem exec_decoder_no_draw (hd : AtDecode s c (n + 2) rest cmd)
    (hexec : exec i s = run (decoderProgram transform raw) s) (hq : transform s.draws raw = (q, 0)) :
    exec i s = .next (({ s with inputs := rest } : State).setClient c (.answered ⟨.ok, BitVec.ofInt 32 q, []⟩)) :=
  exec_decoder hd hexec hq

end decoders

/-- Settles O22: each decoder with its transform; only that of the current draws. -/
theorem decoderCommandsAnswerTheirTransform : Obligations.DecoderCommandsAnswerTheirTransform :=
  fun _ _ _ _ _ _ hd => ⟨exec_decoder_no_draw hd rfl rfl, exec_decoder_no_draw hd rfl rfl,
    exec_decoder_no_draw hd rfl rfl, exec_decoder_no_draw hd rfl rfl, exec_decoder hd rfl (currentTransform_eq ..)⟩

/-! ## The reads of one SRAM location -/

/-- `FgRead` of a procedure that returned `OK` answers the transform of its bytes (R170). -/
theorem fgResponse_ok (transform : Nat → Half → Int × Nat) (d : Nat) (b0 b1 : Byte) :
    fgResponse transform d ⟨.ok, [b0, b1]⟩ =
      (⟨.ok, BitVec.ofInt 32 (transform d (b1 ++ b0)).1, []⟩, (transform d (b1 ++ b0)).2) := rfl

/-- `FgRead` of a procedure that failed answers its status alone (R170, R180). -/
theorem fgResponse_failed (transform : Nat → Half → Int × Nat) (d : Nat) {status : Status} (h : status ≠ .ok) :
    fgResponse transform d ⟨status, []⟩ = (⟨status, 0, []⟩, 0) := by
  simp [fgResponse, h, plain]

/-- The one transaction of an SRAM read (R170). -/
def sramTransaction (p : Params) (sub : Byte) : Transaction :=
  .sequence [0x8C, sub, 0x00] [0x8D] 2 p.fgReadDelay

theorem sramRead_transaction (p : Params) (sub : Byte) :
    (sramRead p sub).transaction 1 = some (sramTransaction p sub) := rfl

section reads
variable {p : Params} {sub : Byte} {count : Nat}

/-- What an SRAM read returns: its bytes from a count of 5 on (R129). -/
theorem spanResult_sramRead_accepted (data buffer : List Byte) (h : 5 ≤ count) :
    spanResult (sramRead p sub) (.okRead count data) buffer = ⟨.ok, buffer⟩ :=
  spanResult_sequence_accepted data buffer h

theorem spanResult_sramRead_short (data buffer : List Byte) (h : count < 5) :
    spanResult (sramRead p sub) (.okRead count data) buffer = ⟨.errShortTransfer, []⟩ :=
  spanResult_sequence_short data buffer h

variable {c n : Nat} {s : State} {cmd : List Word} {rest : List Input} {b : BusIndex} {x : Context}
  {tape : List BusAnswer} {a : BusAnswer} {o : BusOutcome} {location : SramLocation}
  {transform : Nat → Half → Int × Nat}

/-- A fuel-gauge read ends with its one sequence, and answers from the number of the next free value and what `SeqOp`
returns (R170). -/
theorem run_fgProgram_ends {buffer : List Byte} {d drawn : Nat} {r : Response} (hr : Ready s c (n + 5) rest cmd b x)
    (ha : x.answers = a :: tape) (ho : fitAnswer (sramTransaction s.params location.subAddress) a s.draws = o)
    (hbuffer : readBuffer (sramTransaction s.params location.subAddress) o
      (s.draws + fitDraws (sramTransaction s.params location.subAddress) a) = buffer)
    (hd : s.draws + fitDraws (sramTransaction s.params location.subAddress) a +
      bufferDraws (sramTransaction s.params location.subAddress) o = d)
    (hresponse : fgResponse transform d (spanResult (sramRead s.params location.subAddress) o buffer) = (r, drawn)) :
    ∃ t, run (fgProgram s.params b location transform) s = .next t ∧ t.draws = d + drawn ∧
      EndedWith s t c b rest x tape r [⟨b.toNat, c, sramTransaction s.params location.subAddress, o⟩] := by
  have hrun := run_drawing (finish := fgResponse transform) hr ha (by simp [sramRead])
    (sramRead_transaction s.params location.subAddress) rfl ho hbuffer hd
  rw [hresponse] at hrun
  exact ⟨_, hrun, rfl, finished_ended hr.context (settled_after_span _ _)⟩

end reads

/-- A command that is `FgRead` of a location has the meaning of its sub-address and transform, by the bus's answer:
every byte moved, the count 5 at which the bytes are free, a shorter count, `Err` (R129, R130, R170, R180). -/
theorem fgReadMeaning_of_program {i : BusIndex → Instr} {location : SramLocation}
    {T : Params → Nat → Half → Int × Nat}
    (h : ∀ b s, exec (i b) s = run (fgProgram s.params b location (T s.params)) s) :
    FgReadMeaning i location.subAddress T := by
  intro s c n rest cmd b x tape hr
  rw [h b s]
  have hlen (b0 b1 : Byte) : [b0, b1].length = 2 := rfl
  refine ⟨fun count b0 b1 ha hfull => ?full, fun b0 b1 ha raw hraw => ?accepted, fun count b0 b1 ha hshort => ?short,
    fun ha => ?err⟩
  case full =>
    refine run_fgProgram_ends hr ha (fitAnswer_sequence (hlen b0 b1) ..)
      (readBuffer_sequence_full _ _ _ hfull) ?_ ?_
    · rw [sramTransaction, fitDraws_sequence (hlen b0 b1), bufferDraws_sequence_full _ _ hfull,
        Nat.add_zero]
    · rw [spanResult_sramRead_accepted _ _ (by omega), fgResponse_ok]
  case accepted =>
    subst hraw
    refine run_fgProgram_ends hr ha (fitAnswer_sequence (hlen b0 b1) ..)
      (readBuffer_sequence_short _ _ _ (by simp)) ?_ ?_
    · rw [sramTransaction, fitDraws_sequence (hlen b0 b1), bufferDraws_sequence_short _ _ (by simp)]
    · rw [spanResult_sramRead_accepted _ _ le_rfl, sramTransaction, fitDraws_sequence (hlen b0 b1)]
      exact fgResponse_ok ..
  case short =>
    obtain ⟨t, hrun, -, hend⟩ := run_fgProgram_ends (transform := T s.params) hr ha
      (fitAnswer_sequence (hlen b0 b1) ..) rfl rfl
      (by rw [spanResult_sramRead_short _ _ hshort, fgResponse_failed _ _ (by decide)])
    exact ⟨t, hrun, hend⟩
  case err =>
    obtain ⟨t, hrun, -, hend⟩ := run_fgProgram_ends (transform := T s.params) hr ha (fitAnswer_err ..) rfl rfl
      (fgResponse_failed _ _ (status := .errBusTransport) (by decide))
    exact ⟨t, hrun, hend⟩

/-- Settles O32: each command is `FgRead` of its location. -/
theorem fuelGaugeReadsDecodeTheirLocation : Obligations.FuelGaugeReadsDecodeTheirLocation := by
  refine ⟨fgReadMeaning_of_program (location := .soc) fun _ _ => rfl,
    fgReadMeaning_of_program (location := .ocv) fun _ _ => rfl,
    fgReadMeaning_of_program (location := .current) fun b s => ?_,
    fgReadMeaning_of_program (location := .temperature) fun _ _ => rfl,
    fgReadMeaning_of_program (location := .socCycle) fun _ _ => rfl⟩
  rw [← funext₂ (currentTransform_eq s.params)]
  rfl

end Sys2Proof.Machine
end

section
/-! The charger: the codes of the setpoints and their fields, the `CVT_*` encoders, the setters of one field, and the
masked updates of `CHG_PROBE` in order (spec/43_charger.md R210 to R233). -/

namespace Sys2Proof.Machine

/-! ## The codes of the setpoints -/

/-- Settles O16: the code as a remainder. -/
theorem iclEncodeWraps : Obligations.IclEncodeWraps := by
  intro mA
  have hcode := toNat_iclEncode mA
  refine ⟨fun hlow => BitVec.eq_of_toNat_eq ?_, fun hhigh => ?_, fun hlo hhi => BitVec.eq_of_toNat_eq ?_, rfl, rfl⟩
  · rw [hcode, if_pos hlow]
    rfl
  · rw [hcode, if_neg (by omega)]
  · rw [hcode, if_neg (by omega)]
    change (mA.toNat - 100) / 25 % 128 = 127
    omega

/-- A charging current's code lies between the clamps (R212). -/
theorem ccEncode_range (mA : Half) : 0x07 ≤ (ccEncode mA).toNat ∧ (ccEncode mA).toNat ≤ 0xE0 := by
  rw [toNat_ccEncode]
  split_ifs <;> omega

/-- The code is the lower clamp up to 124 mA: below 109375 µA by the clamp, and from there because its first step ends
above 124000 µA (R212). -/
theorem ccEncode_of_le (mA : Half) (h : mA.toNat ≤ 124) : ccEncode mA = 0x07 := by
  apply BitVec.eq_of_toNat_eq
  rw [toNat_ccEncode]
  change _ = 7
  split_ifs <;> omega

/-- The upper clamp (R212). -/
theorem ccEncode_of_gt (mA : Half) (h : 3500000 < mA.toNat * 1000) : ccEncode mA = 0xE0 := by
  apply BitVec.eq_of_toNat_eq
  rw [toNat_ccEncode, if_neg (by omega), if_pos h]
  rfl

/-- Settles O17: the two clamps, and the steps between them. -/
theorem ccEncodeClamps : Obligations.CcEncodeClamps := by
  intro mA
  refine ⟨fun hlow => ccEncode_of_le mA (by omega), ccEncode_of_gt mA, fun hlo hhi => ?_, ccEncode_of_le mA,
    ccEncode_range mA⟩
  rw [toNat_ccEncode, if_neg (by omega), if_neg (by omega)]

/-- A topoff code is at most the ceiling (R213). -/
theorem topoffEncode_le (mA : Half) : (topoffEncode mA).toNat ≤ 28 := by
  rw [toNat_topoffEncode]
  split_ifs <;> omega

/-- Settles O18: the three pieces of the code, which meet without a fall. -/
theorem topoffEncodeIsMonotone : Obligations.TopoffEncodeIsMonotone := by
  refine ⟨fun mA => ⟨fun hlow => BitVec.eq_of_toNat_eq ?_, fun hlo hhi => ?_, fun hhigh => BitVec.eq_of_toNat_eq ?_,
    topoffEncode_le mA⟩, fun mA mA' hle => ?_⟩
  · rw [toNat_topoffEncode, if_pos hlow]
    rfl
  · rw [toNat_topoffEncode, if_neg (by omega), if_pos hhi]
  · rw [toNat_topoffEncode, if_neg (by omega), if_neg (by omega)]
    rfl
  · rw [toNat_topoffEncode, toNat_topoffEncode]
    split_ifs <;> omega

/-! ## Codes under their masks -/

/-- A code of at most `n` bits lies under the mask of the low `n` bits (R210). -/
theorem and_lowMask {n : Nat} {value mask : Half} (hm : mask.toNat = 2 ^ n - 1) (hv : value.toNat < 2 ^ n) :
    value &&& mask = value := by
  apply BitVec.eq_of_toNat_eq
  rw [BitVec.toNat_and, hm, Nat.and_two_pow_sub_one_eq_mod, Nat.mod_eq_of_lt hv]

/-- A merge leaves the bits outside the mask as they were (R154). -/
theorem merge_and_not_mask (cur mask value : Half) : merge cur mask value &&& ~~~mask = cur &&& ~~~mask := by
  apply BitVec.eq_of_getLsbD_eq
  intro k hk
  rw [BitVec.getLsbD_and, getLsbD_merge cur mask value hk, BitVec.getLsbD_and, BitVec.getLsbD_not]
  cases mask.getLsbD k <;> simp

/-- A merge puts the value's bits under the mask (R154). -/
theorem merge_and_mask (cur mask value : Half) : merge cur mask value &&& mask = value &&& mask := by
  apply BitVec.eq_of_getLsbD_eq
  intro k hk
  rw [BitVec.getLsbD_and, getLsbD_merge cur mask value hk, BitVec.getLsbD_and]
  cases mask.getLsbD k <;> simp

/-- A merge of a value that lies under the mask puts the whole value in the field, and changes no other bit (R210). -/
theorem merge_of_fits (cur : Half) {mask value : Half} (hv : value &&& mask = value) :
    merge cur mask value &&& mask = value ∧ merge cur mask value &&& ~~~mask = cur &&& ~~~mask :=
  ⟨(merge_and_mask cur mask value).trans hv, merge_and_not_mask cur mask value⟩

theorem iclEncode_fits (mA : Half) : iclEncode mA &&& 0x007F = iclEncode mA := by
  refine and_lowMask (n := 7) rfl ?_
  rw [toNat_iclEncode]
  split_ifs <;> omega

theorem ccEncode_fits (mA : Half) : ccEncode mA &&& 0x00FF = ccEncode mA :=
  and_lowMask (n := 8) rfl (by have := (ccEncode_range mA).2; omega)

theorem topoffEncode_fits (mA : Half) : topoffEncode mA &&& 0x001F = topoffEncode mA :=
  and_lowMask (n := 5) rfl (by have := topoffEncode_le mA; omega)

/-- Settles O21: each code lies under its mask, and the bits of autostop and enable under theirs. -/
theorem setpointCodesFitTheirMasks : Obligations.SetpointCodesFitTheirMasks := by
  intro cur mA b
  refine ⟨merge_of_fits cur (iclEncode_fits mA), merge_of_fits cur (ccEncode_fits mA),
    merge_of_fits cur (topoffEncode_fits mA), ?autostop, ?enable⟩
  case autostop =>
    rw [getLsbD_merge _ _ _ (by decide), if_pos (by decide)]
    cases b <;> rfl
  case enable =>
    rw [getLsbD_merge _ _ _ (by decide), if_pos (by decide)]
    cases b <;> rfl

/-! ## Commands of one operand -/

/-- An encoder answers its code, zero-extended, and changes nothing but its client (R223 to R225, R102). -/
theorem run_encoderProgram {s : State} {c n : Nat} {rest : List Input} {cmd : List Word} (code : Half)
    (hd : AtDecode s c (n + 2) rest cmd) :
    run (encoderProgram code) s = .next (({ s with inputs := rest } : State).setClient c
      (.answered ⟨.ok, code.setWidth 32, []⟩)) :=
  run_pureProgram hd

/-- Settles O23: each encoder is the program of its code. -/
theorem encoderCommandsAnswerTheirCode : Obligations.EncoderCommandsAnswerTheirCode :=
  fun _ _ _ _ _ _ hd => ⟨run_encoderProgram _ hd, run_encoderProgram _ hd, run_encoderProgram _ hd⟩

/-- Settles O36: each setter is the update of its field. -/
theorem settersUpdateTheirField : Obligations.SettersUpdateTheirField :=
  ⟨fun _ => updateMeaning_of_program fun _ _ => rfl, fun _ => updateMeaning_of_program fun _ _ => rfl,
    fun _ => updateMeaning_of_program fun _ _ => rfl, fun _ => updateMeaning_of_program fun _ _ => rfl,
    fun _ => updateMeaning_of_program fun _ _ => rfl⟩

/-! ## The decisions of updates in order -/

section decisions
variable {b : BusIndex} {fields : List FieldUpdate} {f : FieldUpdate} {l : Locals} {d : Nat}

/-- What follows an update that succeeded: the read of the next field, or the answer `OK` after the last (R230). -/
def afterUpdate (b : BusIndex) (fields : List FieldUpdate) (l : Locals) : Decision :=
  match fields[l.step + 1]? with
  | none => ⟨{ l with step := l.step + 1 }, .respond (plain .ok), 0⟩
  | some g => ⟨{ l with step := l.step + 1 }, .call ⟨b.toNat, .read g.reg 2⟩, 0⟩

theorem afterUpdate_next {g : FieldUpdate} (hg : fields[l.step + 1]? = some g) :
    afterUpdate b fields l = ⟨{ l with step := l.step + 1 }, .call ⟨b.toNat, .read g.reg 2⟩, 0⟩ := by
  simp only [afterUpdate, hg]

theorem afterUpdate_last (hlast : fields.length = l.step + 1) :
    afterUpdate b fields l = ⟨{ l with step := l.step + 1 }, .respond (plain .ok), 0⟩ := by
  simp only [afterUpdate, List.getElem?_eq_none hlast.le]

/-- The first decision is to read the first field (R230). -/
theorem updatesProgram_start (hf : fields[0]? = some f) :
    (updatesProgram b fields).next d Locals.start none = ⟨Locals.start, .call ⟨b.toNat, .read f.reg 2⟩, 0⟩ := by
  simp only [updatesProgram, Locals.start, hf, updateStep]

/-- After a read that succeeded, an update ends or writes the merged value (R153, R155). -/
theorem updatesProgram_read (hf : fields[l.step]? = some f) (v : Half) :
    (updatesProgram b fields).next d l (some (.read f.reg 2, ⟨.ok, bytes16 v⟩)) =
      if merge v f.mask f.value = v then
        afterUpdate b fields { l with cur := some v, new := some (merge v f.mask f.value) }
      else ⟨{ l with cur := some v, new := some (merge v f.mask f.value) },
        .call ⟨b.toNat, .write (registerFrame f.reg (merge v f.mask f.value))⟩, 0⟩ := by
  simp only [updatesProgram, hf, updateStep_read]
  by_cases hm : merge v f.mask f.value = v
  · simp only [if_pos hm]
    rfl
  · simp only [if_neg hm]

/-- After a write that succeeded, an update ends (R153). -/
theorem updatesProgram_write (hf : fields[l.step]? = some f) (frame : List Byte) :
    (updatesProgram b fields).next d l (some (.write frame, ⟨.ok, []⟩)) = afterUpdate b fields l := by
  simp only [updatesProgram, hf, updateStep_write]
  rfl

/-- After a procedure that failed, the command reports the failure, and reads no further field (R233). -/
theorem updatesProgram_fails (hf : fields[l.step]? = some f) (span : Span) :
    (updatesProgram b fields).next d l (some (span, ⟨.errBusTransport, []⟩)) =
      ⟨l, .respond (plain .errBusTransport), 0⟩ := by
  simp only [updatesProgram, hf, updateStep_fails]
  rfl

end decisions

/-! ## The traffic of one field more -/

section traffic
variable {fields : List FieldUpdate} {f : FieldUpdate} {v : Nat → Half} {count1 count2 : Nat → Nat} {j : Nat}

/-- The events of the first `j + 1` updates are those of the first `j` and then those of update `j`. -/
theorem updatesEvents_take_succ (i c : Nat) (hj : fields[j]? = some f) :
    updatesEvents i c v count1 count2 (fields.take (j + 1)) =
      updatesEvents i c v count1 count2 (fields.take j) ++ updateEvents i c f (v j) (count1 j) (count2 j) := by
  have hlen : (fields.take j).length = j := List.length_take_of_le (List.getElem?_eq_some_iff.mp hj).1.le
  simp [updatesEvents, List.take_add_one, hj, List.zipIdx_append, hlen]

/-- As the events, the bus's answers. -/
theorem updatesAnswers_take_succ (hj : fields[j]? = some f) :
    updatesAnswers v count1 count2 (fields.take (j + 1)) =
      updatesAnswers v count1 count2 (fields.take j) ++ updateAnswers f (v j) (count1 j) (count2 j) := by
  have hlen : (fields.take j).length = j := List.length_take_of_le (List.getElem?_eq_some_iff.mp hj).1.le
  simp [updatesAnswers, List.take_add_one, hj, List.zipIdx_append, hlen]

end traffic

/-! ## Updates in order -/

section updates

/-- Context `y` where the next update of a command that began on `x` waits for its guard: `y` is as `x` but for the
buffers, the answers left, and what may have been with the bus before the first update. -/
structure BetweenUpdates (x y : Context) (tape : List BusAnswer) : Prop where
  isOpen : y.isOpen = x.isOpen
  lock : y.lock = .free
  answers : y.answers = tape
  endpoint : y.endpoint = x.endpoint

/-- The state in which client `c` waits for the guard of the read of `f` with locals `l`, after the bus events
`events`, which left the context at `y`. -/
def awaitingUpdate (s : State) (c : Nat) (cmd : List Word) (rest : List Input) (k i : Nat) (f : FieldUpdate)
    (l : Locals) (y : Context) (events : List BusEvent) : State :=
  (({ s with inputs := rest, hist := s.hist ++ events } : State).setContext i y).setClient c
    (.pending cmd (.acq k ⟨i, .read f.reg 2⟩) l)

variable {b : BusIndex} {fields : List FieldUpdate} {f : FieldUpdate} {l : Locals} {d c n k i : Nat} {s : State}
  {cmd : List Word} {rest : List Input} {x y : Context} {tape : List BusAnswer} {v : Nat → Half}
  {count1 count2 : Nat → Nat} {events : List BusEvent}

theorem Settled.between {y' : Context} (h : Settled y y' tape) {tape0 : List BusAnswer}
    (hy : BetweenUpdates x y tape0) : BetweenUpdates x y' tape :=
  ⟨h.isOpen.trans hy.isOpen, h.lock, h.answers, h.endpoint.trans hy.endpoint⟩

theorem Settled.of_between {y' : Context} (h : Settled y y' tape) {tape0 : List BusAnswer}
    (hy : BetweenUpdates x y tape0) : Settled x y' tape :=
  ⟨h.isOpen.trans hy.isOpen, h.lock, h.onBus, h.answers, h.endpoint.trans hy.endpoint⟩

@[simp] theorem awaitingUpdate_client :
    (awaitingUpdate s c cmd rest k i f l y events).client c = .pending cmd (.acq k ⟨i, .read f.reg 2⟩) l :=
  client_setClient_pending ..

theorem awaitingUpdate_context (hx : s.contexts[i]? = some x) :
    (awaitingUpdate s c cmd rest k i f l y events).contexts[i]? = some y :=
  set_getElem?_self hx

/-- After the traffic of the update that was waited for. -/
theorem awaitingUpdate_traffic (events' : List BusEvent) (y' : Context) :
    ({ awaitingUpdate s c cmd rest k i f l y events with
        hist := (awaitingUpdate s c cmd rest k i f l y events).hist ++ events', draws := d } : State).setContext i y' =
      (({ s with inputs := rest, hist := s.hist ++ (events ++ events'), draws := d } : State).setContext i
        y').setClient c (.pending cmd (.acq k ⟨i, .read f.reg 2⟩) l) := by
  simp [awaitingUpdate, State.setClient, State.setContext]

/-- A context written with what it holds stays. -/
theorem setContext_of_getElem? (hx : s.contexts[i]? = some x) : s.setContext i x = s := by
  obtain ⟨hi, rfl⟩ := List.getElem?_eq_some_iff.mp hx
  rw [State.setContext, List.set_getElem_self]

/-- A command of updates waits first for the guard of the first field's read. -/
theorem run_updates_start (hr : Ready s c (n + 1) rest cmd b x) (hf : fields[0]? = some f) :
    run (updatesProgram b fields) s = .next
      (turnSteps (updatesProgram b fields) c n (awaitingUpdate s c cmd rest 1 b.toNat f Locals.start x [])) := by
  rw [run_decode hr.toAtDecode rfl (lt_of_context hr.context) (updatesProgram_start hf), awaitingUpdate,
    setContext_of_getElem? (by exact hr.context), List.append_nil]

/-- One update of the list, from the wait for its read's guard to the decision that follows it, when the bus reports no
error (R217, R230). -/
theorem steps_updates_one {v : Half} {count1 count2 m : Nat} (hm : n + 9 ≤ m) (hf : fields[l.step]? = some f)
    (hs : s.faulted = false) (hx : s.contexts[b.toNat]? = some x) (hl : y.lock = .free) (ho : y.isOpen = true)
    (ha : y.answers = updateAnswers f v count1 count2 ++ tape) :
    ∃ m' k' y' l', n ≤ m' ∧ l'.step = l.step ∧ Settled y y' tape ∧
      turnSteps (updatesProgram b fields) c m (awaitingUpdate s c cmd rest k b.toNat f l y events) =
        turnSteps (updatesProgram b fields) c m' (follow c cmd k' (afterUpdate b fields l')
          (({ s with
            inputs := rest
            hist := s.hist ++ (events ++ updateEvents b.toNat c f v count1 count2) } : State).setContext b.toNat
              y')) := by
  obtain ⟨m, rfl⟩ := Nat.exists_eq_add_of_le' ((Nat.le_add_left 9 n).trans hm)
  obtain ⟨m', k', y', hm', hsettled, hsteps⟩ := steps_update (p := updatesProgram b fields) (n := m)
    (done := afterUpdate b fields) (awaitingUpdate_client (s := s) (events := events) (rest := rest)) hs
    (awaitingUpdate_context hx) hl ho ha (updatesProgram_read hf v) (updatesProgram_write (by exact hf) _)
  refine ⟨m', k', y', { l with cur := some v, new := some (merge v f.mask f.value) }, by omega, rfl, hsettled,
    hsteps.trans (congrArg _ ?_)⟩
  exact (congrArg _ (awaitingUpdate_traffic ..)).trans (follow_setClient ..)

/-- The first `j` updates of a command, when the bus reports no error: their bus events, and the wait for update `j`
with `STEP = j` (R230). -/
theorem run_updates_until {j : Nat} (hr : Ready s c (n + 9 * j + 1) rest cmd b x) (hj : fields[j]? = some f)
    (ha : x.answers = updatesAnswers v count1 count2 (fields.take j) ++ tape) :
    ∃ m k l y, n ≤ m ∧ l.step = j ∧ BetweenUpdates x y tape ∧
      run (updatesProgram b fields) s = .next (turnSteps (updatesProgram b fields) c m
        (awaitingUpdate s c cmd rest k b.toNat f l y
          (updatesEvents b.toNat c v count1 count2 (fields.take j)))) := by
  induction j generalizing f n tape with
  | zero => exact ⟨n, 1, Locals.start, x, le_rfl, rfl, ⟨rfl, hr.free, ha, rfl⟩, run_updates_start hr hj⟩
  | succ j ih =>
    obtain ⟨e, he⟩ : ∃ e, fields[j]? = some e :=
      ⟨_, List.getElem?_eq_getElem (by have := (List.getElem?_eq_some_iff.mp hj).1; omega)⟩
    rw [updatesAnswers_take_succ he, List.append_assoc] at ha
    obtain ⟨m, k, l, y, hm, rfl, hy, hrun⟩ := ih (n := n + 9) (by convert hr using 1; omega) he ha
    obtain ⟨m', k', y', l', hm', hl', hsettled, hsteps⟩ := steps_updates_one hm he hr.notFaulted hr.context hy.lock
      (hy.isOpen.trans hr.isOpen) hy.answers
    refine ⟨m', k' + 1, { l' with step := l'.step + 1 }, y', hm', by rw [hl'], hsettled.between hy, ?_⟩
    rw [hrun, hsteps, afterUpdate_next (by rwa [hl']), updatesEvents_take_succ _ _ he]
    rfl

/-- Updates to which the bus reports no error are all made, in order, and answered `OK` (R230, R232). -/
theorem run_updates_end {j : Nat} (hr : Ready s c (n + 9 * (j + 1) + 1) rest cmd b x) (hlen : fields.length = j + 1)
    (ha : x.answers = updatesAnswers v count1 count2 fields ++ tape) :
    ∃ t, run (updatesProgram b fields) s = .next t ∧ t.draws = s.draws ∧
      EndedWith s t c b rest x tape ⟨.ok, 0, []⟩ (updatesEvents b.toNat c v count1 count2 fields) := by
  obtain ⟨f, hf⟩ : ∃ f, fields[j]? = some f := ⟨_, List.getElem?_eq_getElem (by omega)⟩
  have hall : fields.take (j + 1) = fields := List.take_of_length_le hlen.le
  rw [← hall, updatesAnswers_take_succ hf, List.append_assoc] at ha
  obtain ⟨m, k, l, y, hm, rfl, hy, hrun⟩ := run_updates_until (n := n + 9) (by convert hr using 1; omega) hf ha
  obtain ⟨m', k', y', l', -, hl', hsettled, hsteps⟩ := steps_updates_one hm hf hr.notFaulted hr.context hy.lock
    (hy.isOpen.trans hr.isOpen) hy.answers
  refine ⟨finished s c b.toNat y' (updatesEvents b.toNat c v count1 count2 fields) s.draws (plain .ok) rest, ?_, rfl,
    finished_ended hr.context (hsettled.of_between hy)⟩
  rw [hrun, hsteps, afterUpdate_last (by rw [hlen, hl']), follow_respond,
    turnSteps_answered _ _ _ _ _ (client_setClient_answered ..), ← updatesEvents_take_succ _ _ hf, hall]
  rfl

/-- Updates stop at the first that fails, which is answered `ERR_BUS_TRANSPORT` (R233, R278). -/
theorem run_updates_fail {j : Nat} {answers : List BusAnswer} (hr : Ready s c (n + 9 * (j + 1) + 1) rest cmd b x)
    (hf : fields[j]? = some f) (hu : FailedUpdate b.toNat c f answers events)
    (ha : x.answers = updatesAnswers v count1 count2 (fields.take j) ++ answers ++ tape) :
    ∃ t, run (updatesProgram b fields) s = .next t ∧
      EndedWith s t c b rest x tape ⟨.errBusTransport, 0, []⟩
        (updatesEvents b.toNat c v count1 count2 (fields.take j) ++ events) := by
  rw [List.append_assoc] at ha
  obtain ⟨m, k, l, y, hm, rfl, hy, hrun⟩ := run_updates_until (n := n + 9) (by convert hr using 1; omega) hf ha
  obtain ⟨m, rfl⟩ := Nat.exists_eq_add_of_le' ((Nat.le_add_left 9 n).trans hm)
  obtain ⟨y', d, hsettled, hsteps⟩ := steps_update_fails (p := updatesProgram b fields) (n := m)
    (awaitingUpdate_client (s := s) (k := k) (c := c) (cmd := cmd) (y := y) (l := l) (rest := rest)
      (events := updatesEvents b.toNat c v count1 count2 (fields.take l.step)))
    hr.notFaulted (awaitingUpdate_context hr.context) hy.lock (hy.isOpen.trans hr.isOpen) hu hy.answers
    (fun _ v hne => by rw [updatesProgram_read hf, if_neg hne])
    (fun _ l' span hl' => updatesProgram_fails (by rwa [hl']) span)
  refine ⟨finished s c b.toNat y' _ d (plain .errBusTransport) rest, ?_,
    finished_ended hr.context (hsettled.of_between hy)⟩
  rw [hrun, hsteps, awaitingUpdate_traffic, setClient_setClient _ _ _ _ _ _ (by simp)]
  rfl

end updates

/-! ## The probe -/

/-- Settles O37: the probe is the updates of its four fields in order. -/
theorem probeAppliesFourFieldsInOrder : Obligations.ProbeAppliesFourFieldsInOrder := by
  intro s c n rest cmd b x tape e icl cc top v count1 count2 hr fields hfields ha
  subst hfields
  exact run_updates_end (j := 3) hr rfl ha

/-- Settles O38: a turn for all four updates is one for those up to the failing one, with steps to spare. -/
theorem probeStopsAtFirstFailure : Obligations.ProbeStopsAtFirstFailure := by
  intro s c n rest cmd b x tape e icl cc top v count1 count2 j f answers events hr fields hfields hj hu ha
  subst hfields
  have hlt : j < 4 := (List.getElem?_eq_some_iff.mp hj).1
  have hturn : n + 37 = n + 9 * (3 - j) + 9 * (j + 1) + 1 := by omega
  rw [hturn] at hr
  exact run_updates_fail hr hj hu ha

end Sys2Proof.Machine
end

section
/-! The session: the lifecycle of a context, the contract fault of a bad index and of a closed context, and the one
context a command touches (spec/44_session.md R251 to R255, spec/60_exceptions.md R275, R276). -/

namespace Sys2Proof.Machine

/-! ## Opening and closing -/

section commands
variable {s : State} {c n : Nat} {rest : List Input} {cmd : List Word} {l : Locals} {b : BusIndex} {x : Context}

/-- A command that only sets `OPEN` does so under the guard and answers `OK`, with no bus event (R252, R253). -/
theorem run_setOpen (v : Bool) (hd : AtDecode s c (n + 4) rest cmd) (hx : s.contexts[b.toNat]? = some x)
    (hl : x.lock = .free) :
    run (spanProgram b (.setOpen v) fun r => plain r.status) s = .next
      ((({ s with inputs := rest } : State).setContext b.toNat { x with isOpen := v }).setClient c
        (.answered (plain .ok))) := by
  rw [run_decode hd rfl (lt_of_context hx) rfl, show n + 3 = (n + 1) + 2 from rfl,
    steps_setOpen (client_setClient_pending ..) (by exact hd.notFaulted) (by exact hx) hl,
    steps_respond (afterSpan_client ..) rfl]
  simp [afterSpan, State.setClient, State.setContext, putClient_putClient]

/-! ## Contract faults -/

/-- `DECODE` of a command whose context does not exist (R251, R275). -/
theorem decodePhase_bad_index {p : Program} (hp : p.bus = some b) (hf : s.faulted = false)
    (hb : s.contexts.length ≤ b.toNat) : decodePhase p c cmd l s = raiseFault c s := by
  simp [decodePhase, hp, hf, hb]

/-- A contract fault answers its command, and so ends the turn (R276, R294). -/
theorem turnSteps_raiseFault {p : Program} (h : advance p c s = raiseFault c s) :
    turnSteps p c (n + 1) s = raiseFault c s := by
  rw [turnSteps_succ, h]
  exact turnSteps_answered p c n _ _ (client_setClient_answered ..)

/-- A contract fault sets the client, whatever it was. -/
theorem raiseFault_setClient (ph : Phase) :
    raiseFault c (s.setClient c (.pending cmd ph l)) = raiseFault c s := by
  simp [raiseFault, respond, State.setClient, putClient_putClient]

/-- A command that waits for the guard of a closed context, whichever its span, ends with the contract fault
(R254, R275). -/
theorem turnSteps_closed {p : Program} {k : Nat} {call : Call} (hc : s.client c = .pending cmd (.acq k call) l)
    (hf : s.faulted = false) (hs : ∀ v, call.span ≠ .setOpen v) (hx : s.contexts[call.ctx]? = some x)
    (hl : x.lock = .free) (ho : x.isOpen = false) : turnSteps p c (n + 1) s = raiseFault c s :=
  turnSteps_raiseFault ((advance_acq hc).trans (acquirePhase_closed hf hs hx hl ho))

/-- Every command with a context but `CTX_OPEN` and `CTX_CLOSE` calls a bus procedure first (R254). -/
theorem programOf_start {i : Instr} (hb : i.bus? = some b) (hopen : i ≠ .ctxOpen b) (hclose : i ≠ .ctxClose b)
    (p : Params) (d : Nat) :
    ∃ span, (∀ v, span ≠ Span.setOpen v) ∧
      (programOf p i).next d Locals.start none = ⟨Locals.start, .call ⟨b.toNat, span⟩, 0⟩ := by
  cases i with
  | ctxOpen => cases hb; exact absurd rfl hopen
  | ctxClose => cases hb; exact absurd rfl hclose
  | cvtSoc | cvtOcv | cvtCurrent | cvtTemp | cvtCycle | cvtIcl | cvtCc | cvtTopoff => cases hb
  | writeSync | readSync | seqWwr | readReg | writeReg | updateReg | fgReadSoc | fgReadOcv | fgReadCurrent
  | fgReadTemp | fgReadCycle | chgSetIcl | chgSetCc | chgSetTopoff | chgSetAutostop | chgSetEnable | chgProbe =>
    cases hb
    exact ⟨_, by rintro _ ⟨⟩, rfl⟩

end commands

/-- Settles O24: both commands are the one span that sets `OPEN`. -/
theorem openAndCloseChangeOnlyOpen : Obligations.OpenAndCloseChangeOnlyOpen :=
  fun _ _ _ _ _ _ _ hd hx hl => ⟨run_setOpen true hd hx hl, run_setOpen false hd hx hl⟩

/-- Settles O44: the fault is raised in the first step, and ends the turn. -/
theorem badIndexRaisesContractFault : Obligations.BadIndexRaisesContractFault := by
  intro i s c n rest cmd b hb hd hlen
  have hadvance : advance (programOf s.params i) c { s with inputs := rest } = raiseFault c { s with inputs := rest } :=
    (advance_decode (by exact hd.client)).trans
      (decodePhase_bad_index ((programOf_bus s.params i).trans hb) (by exact hd.notFaulted) hlen)
  rw [exec_eq_run, run_turn _ s c (n + 1) rest hd.inputs, turnSteps_raiseFault hadvance]
  rfl

/-- Settles O45: the command waits for the guard of its first span, or of any span, and finds the context closed. -/
theorem closedContextRaisesContractFault : Obligations.ClosedContextRaisesContractFault := by
  constructor
  · intro i s c n rest cmd b x hb hopen hclose hd hx hl ho
    obtain ⟨span, hspan, hnext⟩ := programOf_start hb hopen hclose s.params s.draws
    rw [exec_eq_run, run_decode hd ((programOf_bus s.params i).trans hb) (lt_of_context hx) hnext,
      turnSteps_closed (client_setClient_pending ..) (by exact hd.notFaulted) (by exact hspan) (by exact hx) hl ho,
      raiseFault_setClient]
    rfl
  · intro i s c n rest cmd k call l x hi hf hc hspan hx hl ho
    rw [exec_eq_run, run_turn _ s c (n + 1) rest hi,
      turnSteps_closed (s := { s with inputs := rest }) hc hf hspan hx hl ho]
    rfl

/-! ## The context of a command -/

/-- `j` is the number of the command's own context. -/
def UsesContext (i : Instr) (j : Nat) : Prop := ∃ b, i.bus? = some b ∧ j = b.toNat

/-- No `BUS` field holds the number 16. -/
theorem not_usesContext_16 (i : Instr) : ¬ UsesContext i 16 := by
  rintro ⟨b, -, hb⟩
  have hlt : b.toNat < 16 := b.isLt
  omega

section context
variable {s t : State} {c j : Nat} {cmd : List Word} {i : Instr}

/-- A move changes a context, and adds an event, only where the call of its phase is, and that is the context of its
command (R255). -/
theorem Move.untouched_of_not_own {p : Params} (h : Move (programOf p i) c s t) (hd : decode cmd = .ok i)
    (hs : CommandOf c cmd s) (hj : ¬ UsesContext i j) : Untouched j s t := by
  have ne_of_fits {call : Call} (hfits : CallFits s.contexts.length i call) : call.ctx ≠ j := by
    obtain ⟨⟨b, hb, hctx, -⟩, -⟩ := hfits
    rintro rfl
    exact hj ⟨b, hb, hctx⟩
  cases h with
  | wait => exact .of_eq rfl rfl
  | stopped => exact .of_eq rfl rfl
  | fault => exact .of_eq rfl rfl
  | compute => exact .of_eq rfl rfl
  | start => exact follow_untouched ..
  | next => exact follow_untouched ..
  | setOpen cmd' k j' v l x hc =>
    obtain ⟨-, hfits⟩ := hs.phase hd hc
    exact .of_set (ne_of_fits hfits) rfl rfl
  | handOver cmd' k call l x txn hc =>
    obtain ⟨-, hfits⟩ := hs.phase hd hc
    exact .of_set (ne_of_fits hfits) rfl rfl
  | second cmd' k tt call l x txn txn' a rest count hc =>
    obtain ⟨-, hfits⟩ := hs.phase hd hc
    exact .of_event (e := ⟨call.ctx, c, txn, .okWrite count⟩) (ne_of_fits hfits) rfl rfl
  | answered cmd' k tt call l x txn a rest o buffer hc =>
    obtain ⟨-, hfits⟩ := hs.phase hd hc
    exact .of_event (e := ⟨call.ctx, c, txn, o⟩) (ne_of_fits hfits) rfl rfl
  | release cmd' k call r l x hc =>
    obtain ⟨-, hfits, -⟩ := hs.phase hd hc
    exact .of_set (ne_of_fits hfits) rfl rfl
  | releaseNone => exact .of_eq rfl rfl

/-- A turn of a command leaves every context alone that is not its own, since each of its moves does. -/
theorem turnSteps_untouched_of_not_own {p : Params} (n : Nat) (hd : decode cmd = .ok i) (hs : CommandOf c cmd s)
    (hj : ¬ UsesContext i j) : Untouched j s (turnSteps (programOf p i) c n s) :=
  (turnSteps_moves _ c (fun u => CommandOf c cmd u ∧ Untouched j s u)
    (fun _ _ ⟨hu, hsu⟩ hm => ⟨hm.commandOf hd hu, hsu.trans (hm.untouched_of_not_own hd hu hj)⟩) n s
    ⟨hs, .of_eq rfl rfl⟩).2

/-- Where every context outside `A` is left alone, and there is such a number, the events are in `A`. -/
theorem events_of_untouched {A : Nat → Prop} (hA : ¬ A j) (h : ∀ j, ¬ A j → Untouched j s t) :
    ∃ events, t.hist = s.hist ++ events ∧ ∀ e ∈ events, A e.ctx := by
  obtain ⟨events, hevents, -⟩ := (h j hA).hist
  refine ⟨events, hevents, fun e he => by_contra fun hne => ?_⟩
  obtain ⟨events', hevents', hother⟩ := (h e.ctx hne).hist
  obtain rfl : events = events' := List.append_cancel_left (hevents.symm.trans hevents')
  exact hother e he rfl

end context

/-- Settles O58: a turn leaves alone each context that is not the command's own. -/
theorem commandsTouchOnlyTheirContext : Obligations.CommandsTouchOnlyTheirContext := by
  intro s t c n rest cmd ph l i hs hi hc hd hexec
  rw [exec_eq_run, run_turn _ s c n rest hi] at hexec
  cases hexec
  have hother (j : Nat) (hj : ¬ UsesContext i j) :=
    turnSteps_untouched_of_not_own (p := s.params) n hd (commandOf_of_turn hs hc rest) hj
  have hevents := events_of_untouched (not_usesContext_16 i) hother
  exact ⟨fun j hj => (hother j fun ⟨b, hb, hjb⟩ => hj b hb hjb).context, hevents⟩

end Sys2Proof.Machine
end

section
/-! Errors and the fault: an illegal descriptor, the statuses a command may answer, and a command that the fault finds
in `DECODE`, at `Acquire` or in a span (spec/30_encoding.md R106, spec/60_exceptions.md R274, R276, R293). -/

namespace Sys2Proof.Machine

/-! ## Illegal descriptors -/

/-- At a turn of a client whose descriptor is illegal, there is no command to run. -/
theorem fetch_of_illegal {s : State} {c n : Nat} {rest : List Input} {cmd : List Word} {ph : Phase} {l : Locals}
    {e : DecodeError} (hi : s.inputs = .turn c n :: rest) (hc : s.client c = .pending cmd ph l)
    (hd : decode cmd = .error e) : fetch s = none := by
  simp [fetch, hi, hc, hd]

/-- A turn that runs no command refuses the descriptor of its client. -/
theorem outside_turn {s : State} {c n : Nat} {rest : List Input} (hi : s.inputs = .turn c (n + 1) :: rest) :
    outside s = refuse c { s with inputs := rest } := by
  simp [outside, hi]

/-- The refusal of a descriptor in `DECODE`: the fault check comes first (R106, R274). -/
theorem refuse_decode {s : State} {c : Nat} {cmd : List Word} {l : Locals} (hc : s.client c = .pending cmd .decode l) :
    refuse c s = respond c (plain (if s.faulted then .faultContract else .errIllegalCommand)) s := by
  simp [refuse, hc]

/-- Settles O47: the step finds no command, and what is left of the event is the refusal. -/
theorem illegalDescriptorChangesOnlyItsClient : Obligations.IllegalDescriptorChangesOnlyItsClient := by
  intro s c n rest cmd l e hi hc hd
  have hstep : step s = .next (outside s) := by simp [step, fetch_of_illegal hi hc hd]
  rw [hstep, outside_turn hi, refuse_decode (by exact hc)]
  rfl

/-! ## The status a program answers -/

/-- A status a command answers by itself: `OK`, or the status of the procedure that returned last. -/
def Status.OkOrLast (status : Status) (last : Option (Span × SpanResult)) : Prop :=
  status = .ok ∨ ∃ span r, last = some (span, r) ∧ status = r.status

theorem updateStep_done_okOrLast {f : FieldUpdate} {l l' : Locals} {last : Option (Span × SpanResult)}
    {status : Status} (h : updateStep f l last = (l', .done status)) : status.OkOrLast last := by
  unfold updateStep at h
  split at h
  · cases h
  · rename_i a n r
    split at h
    · simp only [Prod.mk.injEq] at h
      obtain ⟨-, h⟩ := h
      split at h
      · cases h
        exact .inl rfl
      · cases h
    · cases h
      exact .inr ⟨_, r, rfl, rfl⟩
  · rename_i span r _
    cases h
    exact .inr ⟨span, r, rfl, rfl⟩

section status
variable {d : Nat} {l : Locals} {last : Option (Span × SpanResult)} {r : Response} {b : BusIndex}

theorem drawingProgram_status {span : Span} {finish : Nat → SpanResult → Response × Nat}
    (hfin : ∀ d r, (finish d r).1.status = r.status)
    (h : ((drawingProgram b span finish).next d l last).action = .respond r) : r.status.OkOrLast last := by
  match last, h with
  | some (span', r'), h =>
    cases h
    exact .inr ⟨span', r', rfl, hfin d r'⟩

theorem pureProgram_status {result : Nat → Word × Nat}
    (h : ((pureProgram result).next d l last).action = .respond r) : r.status.OkOrLast last := by
  cases h
  exact .inl rfl

theorem updateProgram_status {f : FieldUpdate} (h : ((updateProgram b f).next d l last).action = .respond r) :
    r.status.OkOrLast last := by
  simp only [updateProgram] at h
  split at h
  · cases h
  · rename_i l' status hu
    cases h
    exact updateStep_done_okOrLast hu

theorem updatesProgram_status {fields : List FieldUpdate}
    (h : ((updatesProgram b fields).next d l last).action = .respond r) : r.status.OkOrLast last := by
  simp only [updatesProgram] at h
  split at h
  · cases h
    exact .inl rfl
  · split at h
    · cases h
    · rename_i l' status hu
      split at h
      · split at h
        · cases h
          exact .inl rfl
        · cases h
      · cases h
        exact updateStep_done_okOrLast hu

theorem fgResponse_status (transform : Nat → Half → Int × Nat) (d : Nat) (r : SpanResult) :
    (fgResponse transform d r).1.status = r.status := by
  unfold fgResponse
  split
  · rename_i hok
    exact hok.symm
  · rfl

/-- Whatever a command decides to answer, its status is `OK` or that of its last procedure (R158, R180, R233). -/
theorem programOf_status {p : Params} {i : Instr} (h : ((programOf p i).next d l last).action = .respond r) :
    r.status.OkOrLast last := by
  cases i with
  | writeSync | readSync | seqWwr | readReg | writeReg | ctxOpen | ctxClose =>
    exact drawingProgram_status (fun _ _ => rfl) h
  | fgReadSoc | fgReadOcv | fgReadCurrent | fgReadTemp | fgReadCycle =>
    exact drawingProgram_status (fgResponse_status _) h
  | cvtSoc | cvtOcv | cvtCurrent | cvtTemp | cvtCycle | cvtIcl | cvtCc | cvtTopoff => exact pureProgram_status h
  | updateReg | chgSetIcl | chgSetCc | chgSetTopoff | chgSetAutostop | chgSetEnable => exact updateProgram_status h
  | chgProbe => exact updatesProgram_status h

end status

/-! ## The statuses of R293 -/

/-- A command that makes a span has a context, and makes no lifecycle change unless this span is one. -/
theorem bus_of_usesSpan {i : Instr} {span : Span} (h : usesSpan i span = true) (hspan : ∀ v, span ≠ .setOpen v) :
    (i.bus?.isSome && !(usesSpan i (.setOpen true))) = true := by
  cases i with
  | ctxOpen | ctxClose =>
    cases span with
    | setOpen v => exact absurd rfl (hspan v)
    | write | read | sequence => cases h
  | cvtSoc | cvtOcv | cvtCurrent | cvtTemp | cvtCycle | cvtIcl | cvtCc | cvtTopoff => cases span <;> cases h
  | writeSync | readSync | seqWwr | readReg | writeReg | updateReg | fgReadSoc | fgReadOcv | fgReadCurrent
  | fgReadTemp | fgReadCycle | chgSetIcl | chgSetCc | chgSetTopoff | chgSetAutostop | chgSetEnable | chgProbe => rfl

/-- The operands of a sequence play no part in whether a command makes it. -/
theorem usesSpan_sequence (i : Instr) (f1 f2 : List Byte) (n : Nat) (delay : Word) (timeout : Timeout) :
    usesSpan i (.sequence f1 f2 n delay timeout) = usesSpan i (.sequence [] [] 0 0 .noLimit) := by
  cases i <;> rfl

/-- A command may answer whatever a procedure it calls may return, and no procedure returns `FAULT_CONTRACT`
(R121, R124, R127, R293). -/
theorem mayAnswer_of_spanMayReturn {i : Instr} {span : Span} {status : Status} (hspan : usesSpan i span = true)
    (h : spanMayReturn span status = true) : mayAnswer i status = true ∧ status ≠ .faultContract := by
  cases status with
  | ok => exact ⟨rfl, by simp⟩
  | errBusTransport =>
    refine ⟨bus_of_usesSpan hspan ?_, by simp⟩
    rintro v rfl
    cases h
  | errShortTransfer =>
    cases span with
    | sequence f1 f2 n delay timeout =>
      exact ⟨(usesSpan_sequence i f1 f2 n delay timeout).symm.trans hspan, by simp⟩
    | write | read | setOpen => cases h
  | errConfigUnavailable | errInvalidSession | errIllegalCommand | faultContract => cases span <;> cases h

/-- What the last procedure of a phase that fits its command returned, the command may answer. -/
theorem mayAnswer_of_okOrLast {nCtx k : Nat} {i : Instr} {last : Option (Span × SpanResult)} {status : Status}
    (hfits : PhaseFits nCtx i (.compute k last)) (h : status.OkOrLast last) :
    mayAnswer i status = true ∧ status ≠ .faultContract := by
  obtain rfl | ⟨span, r, rfl, rfl⟩ := h
  · exact ⟨rfl, by simp⟩
  · obtain ⟨-, hspan, hret⟩ := hfits
    exact mayAnswer_of_spanMayReturn hspan hret

/-! ## The answer of a turn -/

/-- What R293 says of the answer `r` of the command `i`, where `f` is whether the fault stood before its turn. -/
def MayEnd (i : Instr) (f : Bool) (r : Response) : Prop :=
  mayAnswer i r.status = true ∧ (i.bus? = none → r.status = .faultContract → f = true)

/-- What a turn of client `c`'s command `i` keeps, where `f` is whether the fault stood before it: a command without
a context raises no fault, and an answer is one of R293. -/
structure TurnEnd (i : Instr) (c : Nat) (f : Bool) (s : State) : Prop where
  faulted : i.bus? = none → s.faulted = f
  answer : ∀ r, s.client c = .answered r → MayEnd i f r

section turnEnd
variable {i : Instr} {s t : State} {c : Nat} {f : Bool} {cmd : List Word}

theorem TurnEnd.pending {ph : Phase} {l : Locals} (h : TurnEnd i c f s) (hf : t.faulted = s.faulted)
    (hc : t.client c = .pending cmd ph l) : TurnEnd i c f t where
  faulted hb := hf.trans (h.faulted hb)
  answer r hr := by cases hc.symm.trans hr

theorem TurnEnd.answered {r : Response} (hf : i.bus? = none → t.faulted = f) (hc : t.client c = .answered r)
    (hr : MayEnd i f r) : TurnEnd i c f t where
  faulted := hf
  answer r' hr' := by
    obtain rfl : r = r' := Client.answered.inj (hc.symm.trans hr')
    exact hr

/-- A decision to answer, where the status is `OK` or what the last procedure returned. -/
theorem TurnEnd.follow {k : Nat} {d : Decision} (h : TurnEnd i c f s)
    (hd : ∀ r, d.action = .respond r → mayAnswer i r.status = true ∧ r.status ≠ .faultContract) :
    TurnEnd i c f (follow c cmd k d s) := by
  obtain ⟨call, -, e⟩ | ⟨r, ha, e⟩ := follow_cases c cmd k d s <;> rw [e]
  · exact h.pending rfl (client_setClient_pending ..)
  · obtain ⟨hmay, hne⟩ := hd r ha
    exact .answered h.faulted (client_setClient_answered ..) ⟨hmay, fun _ he => absurd he hne⟩

/-- A command that may raise the contract fault has a context (R275). -/
theorem bus_ne_none_of_fault {p : Params} {nCtx : Nat} {ph : Phase} (hfits : PhaseFits nCtx i ph)
    (h : ph = .decode ∧ (programOf p i).bus ≠ none ∨ ∃ k call, ph = .acq k call) : i.bus? ≠ none := by
  obtain ⟨-, hb⟩ | ⟨k, call, rfl⟩ := h
  · rwa [programOf_bus] at hb
  · obtain ⟨⟨b, hb, -⟩, -⟩ := hfits
    simp [hb]

/-- Every move of a command that fits its phase answers as R293 says, if it answers. -/
theorem Move.turnEnd {p : Params} (h : Move (programOf p i) c s t) (hd : decode cmd = .ok i) (hs : CommandOf c cmd s)
    (he : TurnEnd i c f s) : TurnEnd i c f t := by
  cases h with
  | wait => exact he
  | stopped cmd' ph l _ hf =>
    exact .answered he.faulted (client_setClient_answered ..) ⟨rfl, fun hb _ => (he.faulted hb).symm.trans hf⟩
  | fault cmd' ph l hc _ hph =>
    obtain ⟨-, hfits⟩ := hs.phase hd hc
    have hbus : i.bus? ≠ none := bus_ne_none_of_fault hfits hph
    exact .answered (fun hb => absurd hb hbus) (client_setClient_answered ..) ⟨rfl, fun hb => absurd hb hbus⟩
  | start cmd' l b =>
    refine he.follow fun r hr => ?_
    obtain hok | ⟨_, _, ⟨⟩, -⟩ := programOf_status hr
    rw [hok]
    exact ⟨rfl, by simp⟩
  | next cmd' k last l hc =>
    obtain ⟨-, hfits⟩ := hs.phase hd hc
    exact he.follow fun r hr => mayAnswer_of_okOrLast hfits (programOf_status hr)
  | compute | setOpen | handOver | second | answered | release | releaseNone =>
    exact he.pending rfl (client_setClient_pending ..)

end turnEnd

/-- Settles O48: at the start of its turn the client is pending, and every move of the turn keeps what R293 says. -/
theorem commandsAnswerOnlyTheirStatuses : Obligations.CommandsAnswerOnlyTheirStatuses := by
  intro s t c n rest cmd ph l i r hs hi hc hd hexec hr
  rw [exec_eq_run, run_turn _ s c n rest hi] at hexec
  cases hexec
  have hstart : TurnEnd i c s.faulted { s with inputs := rest } :=
    ⟨fun _ => rfl, fun r hr => by cases hc.symm.trans hr⟩
  obtain ⟨-, hend⟩ := turnSteps_moves (programOf s.params i) c (fun u => CommandOf c cmd u ∧ TurnEnd i c s.faulted u)
    (fun _ _ ⟨hu, he⟩ hm => ⟨hm.commandOf hd hu, hm.turnEnd hd hu he⟩) n _
    ⟨commandOf_of_turn hs hc rest, hstart⟩
  exact hend.answer r hr

/-! ## Under the fault -/

section faulted
variable {p : Program} {c n k : Nat} {s : State} {cmd : List Word} {l : Locals} {call : Call}

/-- While the fault stands, a command in `DECODE` or at `Acquire` is answered, which ends its turn (R276). -/
theorem turnSteps_stopped {ph : Phase} (hf : s.faulted = true) (hc : s.client c = .pending cmd ph l)
    (hph : ph = .decode ∨ ∃ k call, ph = .acq k call) :
    turnSteps p c (n + 1) s = respond c (plain .faultContract) s := by
  have hstep : advance p c s = respond c (plain .faultContract) s := by
    obtain rfl | ⟨k, call, rfl⟩ := hph
    · rw [advance_decode hc, decodePhase_faulted hf]
    · rw [advance_acq hc, acquirePhase_faulted hf]
  rw [turnSteps_succ, hstep]
  exact turnSteps_answered p c n _ _ (client_setClient_answered ..)

/-- One step of a command that waits for the bus is the same under the fault (R276). -/
theorem turnSteps_bus_with_faulted {tt : Nat} (hc : s.client c = .pending cmd (.bus k tt call) l) (v : Bool) :
    turnSteps p c 1 { s with faulted := v } = { turnSteps p c 1 s with faulted := v } := by
  rw [turnSteps_succ, turnSteps_succ, turnSteps_zero, turnSteps_zero, advance_bus (s := { s with faulted := v }) hc,
    advance_bus hc, busPhase_with_faulted]

/-- The two steps of a span's end: the holder frees the guard, and the command decides what is next (R16, R29). -/
theorem turnSteps_spanEnd {r : SpanResult} {x : Context} (hc : s.client c = .pending cmd (.rel k call r) l)
    (hx : s.contexts[call.ctx]? = some x) (hl : x.lock = .held c) :
    turnSteps p c 2 s =
      follow c cmd k (p.next s.draws l (some (call.span, r))) (s.setContext call.ctx { x with lock := .free }) := by
  have hrelease : advance p c s = (s.setContext call.ctx { x with lock := .free }).setClient c
      (.pending cmd (.compute k (some (call.span, r))) l) := by
    simp [advance_rel hc, releasePhase, hx, releaseLock, hl]
  rw [turnSteps_succ, hrelease, turnSteps_succ, turnSteps_zero, advance_compute (client_setClient_pending ..),
    follow_setClient]
  rfl

/-- They are the same under the fault. -/
theorem turnSteps_spanEnd_with_faulted {r : SpanResult} {x : Context} (hc : s.client c = .pending cmd (.rel k call r) l)
    (hx : s.contexts[call.ctx]? = some x) (hl : x.lock = .held c) (v : Bool) :
    turnSteps p c 2 { s with faulted := v } = { turnSteps p c 2 s with faulted := v } := by
  rw [turnSteps_spanEnd (s := { s with faulted := v }) hc hx hl, turnSteps_spanEnd hc hx hl]
  exact follow_with_faulted (s := s.setContext call.ctx { x with lock := .free }) v

/-- After them the guard is free, no event is new, and the client is answered or at the `Acquire` of its next span. -/
theorem turnSteps_spanEnd_leaves {r : SpanResult} {x : Context} (hc : s.client c = .pending cmd (.rel k call r) l)
    (hx : s.contexts[call.ctx]? = some x) (hl : x.lock = .held c) :
    (turnSteps p c 2 s).contexts = s.contexts.set call.ctx { x with lock := .free } ∧
      (turnSteps p c 2 s).hist = s.hist ∧
      ((∃ response, (turnSteps p c 2 s).client c = .answered response) ∨
        ∃ k' call' l', (turnSteps p c 2 s).client c = .pending cmd (.acq k' call') l') := by
  rw [turnSteps_spanEnd hc hx hl]
  obtain ⟨call', -, e⟩ | ⟨response, -, e⟩ := follow_cases c cmd k (p.next s.draws l (some (call.span, r)))
    (s.setContext call.ctx { x with lock := .free }) <;> rw [e]
  · exact ⟨rfl, rfl, .inr ⟨_, _, _, client_setClient_pending ..⟩⟩
  · exact ⟨rfl, rfl, .inl ⟨_, client_setClient_answered ..⟩⟩

end faulted

/-- Settles O43: `DECODE` and `Acquire` stop at the fault, and the steps of a span do not look at it. -/
theorem faultedBlockAnswersFaultContract : Obligations.FaultedBlockAnswersFaultContract := by
  intro i s c n rest cmd l hf
  refine ⟨fun ph hi hc hph => ?_, fun k tt call u hi hc hu => ?_, fun k call r x u hi hc hx hl hu => ?_⟩
  · rw [exec_eq_run, run_turn _ s c (n + 1) rest hi, turnSteps_stopped (by exact hf) (by exact hc) hph]
    rfl
  · rw [exec_eq_run, run_turn _ _ c 1 rest (by exact hi)] at hu
    cases hu
    rw [exec_eq_run, run_turn _ s c 1 rest hi, ← turnSteps_bus_with_faulted (by exact hc), ← hf]
  · rw [exec_eq_run, run_turn _ _ c 2 rest rfl] at hu
    have hu := Host.Outcome.next.inj hu
    obtain ⟨hcontexts, hhist, hclient⟩ := hu ▸ turnSteps_spanEnd_leaves (p := programOf s.params i)
      (s := { s with faulted := false, inputs := rest }) hc hx hl
    have hexec : exec i s = .next (turnSteps (programOf s.params i) c (n + 1) { u with faulted := true }) := by
      rw [exec_eq_run, run_turn _ s c (n + 3) rest hi, show n + 3 = 2 + (n + 1) by omega, turnSteps_add, ← hu,
        ← turnSteps_spanEnd_with_faulted (by exact hc) (by exact hx) hl, ← hf]
    refine ⟨?_, hhist, ?_⟩
    · rw [hcontexts]
      exact List.getElem?_set_self (lt_of_context hx)
    · obtain ⟨response, hresponse⟩ | ⟨k', call', l', hacq⟩ := hclient
      · refine .inl ⟨⟨response, hresponse⟩, ?_⟩
        rw [hexec, turnSteps_answered _ c _ _ response (by exact hresponse)]
      · refine .inr ⟨⟨k', call', l', hacq⟩, ?_⟩
        rw [hexec, turnSteps_stopped rfl (by exact hacq) (.inr ⟨k', call', rfl⟩)]
        rfl

end Sys2Proof.Machine
end

section
/-! Reset, and two clients whose masked updates of one register are interleaved (spec/70_reset_and_hazards.md R300,
R310). -/

namespace Sys2Proof.Machine

/-! ## Reset -/

/-- A context after reset is the reset context of the one that stood in its place (R300). -/
theorem context_of_resetBlock {s : State} {i : Nat} {y : Context} (h : (resetBlock s).contexts[i]? = some y) :
    ∃ x, s.contexts[i]? = some x ∧ y = resetContext s.params x := by
  obtain ⟨x, hx, rfl⟩ := Option.map_eq_some_iff.mp (List.getElem?_map.symm.trans h)
  exact ⟨x, hx, rfl⟩

/-- Settles O52: the state after the event is `resetBlock`, which keeps of each context its endpoint. -/
theorem resetEventRestoresResetValues : Obligations.ResetEventRestoresResetValues := by
  intro s rest hi
  refine ⟨_, step_reset hi, rfl, rfl, fun _ => rfl, rfl, rfl, List.length_map .., fun i y hy => ?_⟩
  obtain ⟨x, hx, rfl⟩ := context_of_resetBlock hy
  exact ⟨rfl, rfl, rfl, x, hx, rfl⟩

/-! ## One turn of an update among the turns of other clients -/

/-- No fault stands, and context `i` is open and its guard free, with the answers `tape` to come. -/
structure BusReady (s : State) (i : Nat) (tape : List BusAnswer) : Prop where
  notFaulted : s.faulted = false
  context : ∃ x, s.contexts[i]? = some x ∧ x.isOpen = true ∧ x.lock = .free ∧ x.answers = tape

/-- The next event is a turn of `n` steps of client `c`, which stands at `y`, and the bus is ready for it. -/
structure AtTurn (s : State) (c n : Nat) (rest : List Input) (y : Client) (i : Nat) (tape : List BusAnswer) :
    Prop where
  inputs : s.inputs = .turn c n :: rest
  client : s.client c = y
  bus : BusReady s i tape

/-- A turn of client `c` led from `s` to `t`: the client stands at `y`, `events` are new, nothing but the client and
context `i` was touched, and the bus is ready for the next turn. -/
structure TurnedTo (s t : State) (c : Nat) (rest : List Input) (y : Client) (i : Nat) (tape : List BusAnswer)
    (events : List BusEvent) : Prop where
  client : t.client c = y
  hist : t.hist = s.hist ++ events
  frame : OnlyAt s t c i rest
  bus : BusReady t i tape

section turns
variable {s t : State} {c n i : Nat} {rest : List Input} {cmd : List Word} {y : Client} {tape : List BusAnswer}
  {b : BusIndex} {f : FieldUpdate} {v : Half} {count : Nat}

/-- After a turn it is the turn of another client, which stands where it stood. -/
theorem TurnedTo.atTurn {c' : Nat} {y' : Client} {events : List BusEvent}
    (h : TurnedTo s t c (.turn c' n :: rest) y i tape events) (hne : c' ≠ c) (hc : s.client c' = y') :
    AtTurn t c' n rest y' i tape :=
  ⟨h.frame.inputs, (h.frame.clients c' hne).trans hc, h.bus⟩

/-- A change of client `c` and of context `i` touches nothing else. -/
theorem onlyAt_of_set {x' : Context} (hp : t.params = s.params) (hf : t.faulted = s.faulted) (hi : t.inputs = rest)
    (hc : ∀ c', c' ≠ c → t.client c' = s.client c') (hx : t.contexts = s.contexts.set i x') :
    OnlyAt s t c i rest where
  params := hp
  faulted := hf
  inputs := hi
  clients := hc
  nCtx := by rw [hx, List.length_set]
  contexts j hj := by rw [hx, List.getElem?_set_ne (Ne.symm hj)]

/-- A client that waits for the guard of its update's write, with the value read and the merged value in its locals. -/
def awaitingWrite (cmd : List Word) (i : Nat) (f : FieldUpdate) (v : Half) : Client :=
  .pending cmd (.acq 2 ⟨i, .write (registerFrame f.reg (merge v f.mask f.value))⟩)
    ⟨some v, some (merge v f.mask f.value), 0⟩

/-- The turn of an update's read span: `DECODE`, the span, and the decision to write (R153, R156). -/
theorem run_update_read_turn
    (h : AtTurn s c 6 rest (.pending cmd .decode Locals.start) b.toNat ([.ok count [], .ok 2 (bytes16 v)] ++ tape))
    (hm : merge v f.mask f.value ≠ v) :
    ∃ t, run (updateProgram b f) s = .next t ∧ TurnedTo s t c rest (awaitingWrite cmd b.toNat f v) b.toNat tape
      [⟨b.toNat, c, .write [f.reg], .okWrite count⟩, ⟨b.toNat, c, .read 2, .okRead 2 (bytes16 v)⟩] := by
  obtain ⟨x, hx, ho, hl, ha⟩ := h.bus.context
  have hr : Ready s c 6 rest cmd b x := ⟨⟨h.inputs, h.client, h.bus.notFaulted⟩, hx, ho, hl⟩
  obtain ⟨x', hsettled, hsteps⟩ := steps_update_between (p := updateProgram b f) (n := 0)
    (s := awaitingFirst s c cmd rest ⟨b.toNat, .read f.reg 2⟩) (awaitingFirst_client _)
    hr.notFaulted hx hl ho ha (by rw [updateProgram_read, if_neg hm])
  refine ⟨_, (run_update hr).trans (congrArg _ hsteps), client_setClient_pending .., rfl,
    onlyAt_of_set rfl rfl rfl (fun _ hc => (client_setClient_ne _ _ hc).trans (client_setClient_ne _ _ hc)) rfl,
    h.bus.notFaulted, x', set_getElem?_self hx, hsettled.isOpen.trans ho, hsettled.lock, hsettled.answers⟩

/-- The turn of an update's write span, from the wait for its guard to the answer: what is written is the value merged
when the register was read (R153, R156). -/
theorem run_update_write_turn (h : AtTurn s c 4 rest (awaitingWrite cmd b.toNat f v) b.toNat (.ok count [] :: tape)) :
    ∃ t, run (updateProgram b f) s = .next t ∧ TurnedTo s t c rest (.answered ⟨.ok, 0, []⟩) b.toNat tape
      [⟨b.toNat, c, .write (registerFrame f.reg (merge v f.mask f.value)), .okWrite count⟩] := by
  obtain ⟨x, hx, ho, hl, ha⟩ := h.bus.context
  have hsteps := steps_single (p := updateProgram b f) (s := { s with inputs := rest }) (n := 1) h.client
    h.bus.notFaulted hx hl ho ha (by simp) rfl rfl
  rw [steps_respond (afterSpan_client ..) rfl] at hsteps
  refine ⟨_, (run_turn _ s c 4 rest h.inputs).trans (congrArg _ hsteps), client_setClient_answered .., rfl,
    onlyAt_of_set rfl rfl rfl (fun _ hc => (client_setClient_ne _ _ hc).trans (afterSpan_client_ne _ _ _ _ hc)) rfl,
    h.bus.notFaulted, _, set_getElem?_self hx, ho, rfl, rfl⟩

/-- At a turn of a client whose descriptor is that of an `UPDATE_REG`, the step is the update its operands name. -/
theorem step_updateReg {addr : Byte} {mask value : Half} {ph : Phase} {l : Locals} (hi : s.inputs = .turn c n :: rest)
    (hc : s.client c = .pending (encode (.updateReg b addr mask value)) ph l) :
    step s = run (updateProgram b ⟨addr, mask, value⟩) s :=
  step_of_fetch_eq_some (fetch_of_turn hi hc (decodeOfEncode _ rfl))

end turns

/-- Settles O35: the second client's read comes before the first's write, and no later turn of another client changes
the merged value in a client's locals. -/
theorem concurrentUpdatesLoseTheFirstWrite : Obligations.ConcurrentUpdatesLoseTheFirstWrite := by
  intro s c c' b x rest tape addr mask value mask' value' v hne hf hi hc hc' hx ho hl ha hm hm'
  have h0 : AtTurn s c 6 _ _ b.toNat _ := ⟨hi, hc, hf, x, hx, ho, hl, ha⟩
  obtain ⟨t1, hrun1, h1⟩ := run_update_read_turn (f := ⟨addr, mask, value⟩) h0 hm
  have hturn1 := h1.atTurn hne.symm hc'
  obtain ⟨t2, hrun2, h2⟩ := run_update_read_turn (f := ⟨addr, mask', value'⟩) hturn1 hm'
  have hturn2 := h2.atTurn hne h1.client
  obtain ⟨t3, hrun3, h3⟩ := run_update_write_turn hturn2
  have hturn3 := h3.atTurn hne.symm h2.client
  obtain ⟨t4, hrun4, h4⟩ := run_update_write_turn hturn3
  refine ⟨t1, t2, t3, t4, (step_updateReg hi hc).trans hrun1, (step_updateReg hturn1.inputs hturn1.client).trans hrun2,
    (step_updateReg hturn2.inputs hturn2.client).trans hrun3, (step_updateReg hturn3.inputs hturn3.client).trans hrun4,
    (h4.frame.clients c hne).trans h3.client, h4.client, ?_⟩
  rw [h4.hist, h3.hist, h2.hist, h1.hist]
  simp only [List.append_assoc]
  rfl

end Sys2Proof.Machine
end
